-- ==== Sys2Proof/Word.lean ====
section
/-! DEFINITION. The word types of the block: bytes, masks, queue indices and times. -/

namespace Sys2Proof

/-- One byte of the queue, of the wire or of the settings store (R37). -/
abbrev Byte := BitVec 8

/-- A ButtonMask, bit k for button index k, 0 = pressed (format MASK8, R50). -/
abbrev Mask := BitVec 8

/-- A queue index, modulo 64 (R17, R18, R44 a). -/
abbrev Index := BitVec 6

/-- A layout profile index, 0..3 (R13). -/
abbrev Profile := BitVec 2

/-- A button index: 0 A, 1 B, 2 Select, 3 Start, 4 Up, 5 Down, 6 Left, 7 Right. -/
abbrev Button := Fin 8

/-- The eight button indices in ascending order, the order of every loop over them (R97, R137, D8). -/
def buttons : List Button := [0, 1, 2, 3, 4, 5, 6, 7]

/-- A count of microseconds; a finite TIME_W bounds it, see `Machine.timeAdd` (R15). -/
abbrev Time := Nat

end Sys2Proof
end

