-- ==== Sys2Proof/Config.lean ====
section
/-! DEFINITION. The parameters of 00_scope.md rule R6 that the spec fixes, and the free values of the environment.
The OPEN parameters are fields of `Machine.Params`. -/

namespace Sys2Proof.Config

/-- T_INTERBYTE, 2.5 ms: the one behavioural time threshold (R6, R110, R194 a). -/
def tInterbyte : Time := 2500

/-- T_DEBOUNCE, 300 ms (R6, R139). -/
def tDebounce : Time := 300000

/-- T_SETTLE, 150 us (R6, R114). -/
def tSettle : Time := 150

/-- T_LATCH, 12 us (R6, R71). -/
def tLatch : Time := 12

/-- T_PADHALF, 6 us (R6, R71). -/
def tPadHalf : Time := 6

/-- PREFIX_EXT (R6, R57). -/
def prefixExt : Byte := 0xE0

/-- PREFIX_BREAK (R6, R57). -/
def prefixBreak : Byte := 0xF0

/-- PAUSE_SEQ, the eight-byte literal of the special key (R6, R58). -/
def pauseSeq : List Byte := [0xE1, 0x14, 0x77, 0xE1, 0xF0, 0x14, 0xF0, 0x77]

/-- KEY_NONE, the code of the disabled-key sentinel (R6, R54, D6). -/
def keyNone : Byte := 0x00

/-- KEY_PAUSE, the code that marks the special multi-byte key (R6, R54, D6). -/
def keyPause : Byte := 0xE1

/-- DEFAULT_PROFILE (R6, R152, D21). -/
def defaultProfile : Profile := 0

/-- DEFAULT_SWAP (R6, R152, D21). -/
def defaultSwap : Bool := false

/-- Free value: by how much TIME advances `now` before a read, beyond the delays (R174; log 7). -/
opaque freeAdvance : Nat → Time

/-- Free value: the level PAD_DATA has at a read (R72, R174; log 7). -/
opaque freePadLevel : Nat → Bool

/-- Free value: the levels (clock, data) the peer leaves the keyboard lines at in a poll, true = not pulled low
(R111, R174; log 7). -/
opaque freeLines : Nat → Bool × Bool

/-- Free value: the byte the store holds after a settings write that RESET interrupted (R180, U17; log 22). -/
opaque freeNvByte : Nat → Byte

end Sys2Proof.Config
end

