-- ==== Sys2Proof/Syntax.lean ====
section
/-! DEFINITION. The instructions: one constructor per row of spec/opcode_table.json (86 rows), with the operand types.
An instruction of this block is one operation, one wire sequence or one datum of an input or storage format (R4, R63). -/

namespace Sys2Proof

/-- A layout entry, format ENTRY9 `{ext, code}` (R54). -/
structure Entry where
  ext : Bool
  code : Byte
  deriving DecidableEq, Repr

/-- The 22 ordinary keys of the layout table (R86). -/
inductive Key where
  | m | q | a | o | p
  | d0 | d1 | d2 | d3 | d4 | d5 | d6 | d7 | d8 | d9
  | esc | f1 | enter
  | up | down | left | right
  deriving DecidableEq, Repr

/-- The instructions, in the order of the opcode table. -/
inductive Instr where
  /-- MAKE.M -/
  | makeM
  /-- BREAK.M -/
  | breakM
  /-- MAKE.Q -/
  | makeQ
  /-- BREAK.Q -/
  | breakQ
  /-- MAKE.A -/
  | makeA
  /-- BREAK.A -/
  | breakA
  /-- MAKE.O -/
  | makeO
  /-- BREAK.O -/
  | breakO
  /-- MAKE.P -/
  | makeP
  /-- BREAK.P -/
  | breakP
  /-- MAKE.0 -/
  | make0
  /-- BREAK.0 -/
  | break0
  /-- MAKE.1 -/
  | make1
  /-- BREAK.1 -/
  | break1
  /-- MAKE.2 -/
  | make2
  /-- BREAK.2 -/
  | break2
  /-- MAKE.3 -/
  | make3
  /-- BREAK.3 -/
  | break3
  /-- MAKE.4 -/
  | make4
  /-- BREAK.4 -/
  | break4
  /-- MAKE.5 -/
  | make5
  /-- BREAK.5 -/
  | break5
  /-- MAKE.6 -/
  | make6
  /-- BREAK.6 -/
  | break6
  /-- MAKE.7 -/
  | make7
  /-- BREAK.7 -/
  | break7
  /-- MAKE.8 -/
  | make8
  /-- BREAK.8 -/
  | break8
  /-- MAKE.9 -/
  | make9
  /-- BREAK.9 -/
  | break9
  /-- MAKE.ESC -/
  | makeEsc
  /-- BREAK.ESC -/
  | breakEsc
  /-- MAKE.F1 -/
  | makeF1
  /-- BREAK.F1 -/
  | breakF1
  /-- MAKE.ENTER -/
  | makeEnter
  /-- BREAK.ENTER -/
  | breakEnter
  /-- MAKE.UPARROW -/
  | makeUpArrow
  /-- BREAK.UPARROW -/
  | breakUpArrow
  /-- MAKE.DOWNARROW -/
  | makeDownArrow
  /-- BREAK.DOWNARROW -/
  | breakDownArrow
  /-- MAKE.LEFTARROW -/
  | makeLeftArrow
  /-- BREAK.LEFTARROW -/
  | breakLeftArrow
  /-- MAKE.RIGHTARROW -/
  | makeRightArrow
  /-- BREAK.RIGHTARROW -/
  | breakRightArrow
  /-- PAUSE.MAKE (R93) -/
  | pauseMake
  /-- PAUSE.BREAK (R94) -/
  | pauseBreak
  /-- DISABLED.MAKE (R92) -/
  | disabledMake
  /-- DISABLED.BREAK (R92) -/
  | disabledBreak
  /-- MAKE1.generic, code c, ext 0 (R95) -/
  | make1Generic (c : Byte)
  /-- BREAK2.generic, code c, ext 0 (R96) -/
  | break2Generic (c : Byte)
  /-- XMAKE2.generic, code c, ext 1 (R95) -/
  | xmake2Generic (c : Byte)
  /-- XBREAK3.generic, code c, ext 1 (R96) -/
  | xbreak3Generic (c : Byte)
  /-- SAMPLE (R70) -/
  | sample
  /-- LAYOUT_LOOKUP p b (R80) -/
  | layoutLookup (p : Profile) (b : BitVec 3)
  /-- ENC_PRESS e (R90) -/
  | encPress (e : Entry)
  /-- ENC_RELEASE e (R91) -/
  | encRelease (e : Entry)
  /-- RELEASE_ALL p (R97) -/
  | releaseAll (p : Profile)
  /-- ENQUEUE b (R106) -/
  | enqueue (b : Byte)
  /-- ENQUEUE_PAUSE (R107) -/
  | enqueuePause
  /-- DRAIN (R109) -/
  | drain
  /-- IDLE_WAIT (R111) -/
  | idleWait
  /-- TX_BYTE b (R112, R113) -/
  | txByte (b : Byte)
  /-- CYCLE (R125) -/
  | cycle
  /-- CFG_ENTER (R128) -/
  | cfgEnter
  /-- CFG_EXIT (R129) -/
  | cfgExit
  /-- CFG_SWAP_A (R131) -/
  | cfgSwapA
  /-- CFG_SWAP_B (R132) -/
  | cfgSwapB
  /-- CFG_LAYOUT n (R133) -/
  | cfgLayout (n : Profile)
  /-- EDGE_SCAN m (R137) -/
  | edgeScan (m : Mask)
  /-- STORE_PREV m (R138) -/
  | storePrev (m : Mask)
  /-- DEBOUNCE (R139) -/
  | debounce
  /-- NV_LOAD (R151) -/
  | nvLoad
  /-- NV_SAVE (R153) -/
  | nvSave
  /-- RESET (R180) -/
  | reset
  /-- MASK.A: a mask byte m with physical button A pressed (R50) -/
  | maskA (m : Mask)
  /-- MASK.B (R50) -/
  | maskB (m : Mask)
  /-- MASK.SELECT (R50) -/
  | maskSelect (m : Mask)
  /-- MASK.START (R50) -/
  | maskStart (m : Mask)
  /-- MASK.UP (R50) -/
  | maskUp (m : Mask)
  /-- MASK.DOWN (R50) -/
  | maskDown (m : Mask)
  /-- MASK.LEFT (R50) -/
  | maskLeft (m : Mask)
  /-- MASK.RIGHT (R50) -/
  | maskRight (m : Mask)
  /-- SETTINGS: a settings byte v (R52) -/
  | settings (v : Byte)
  /-- ENTRY: a layout entry e (R54) -/
  | entry (e : Entry)
  /-- FRAME: parity bit p and data byte d between start 0 and stop 1 (R59) -/
  | frame (p : Bool) (d : Byte)
  /-- PADSTREAM: the eight levels of one sample, bit k the k-th read (R66) -/
  | padstream (r : Mask)
  deriving DecidableEq, Repr

end Sys2Proof
end

