-- ==== Sys2Proof/Machine/Codec.lean ====
section
/-! DEFINITION. The block's constant tables and its data formats: key codes (R86), the layout ROM (R81 to R84), the
entry classes (R55), the settings byte (R52, R53), the frame and its parity (R59, R60). -/

namespace Sys2Proof

/-- The code byte of each ordinary key (R86; only 0x45 is the source's, the rest is general knowledge G1; log 26). -/
def Key.code : Key → Byte
  | .m => 0x3A
  | .q => 0x15
  | .a => 0x1C
  | .o => 0x44
  | .p => 0x4D
  | .d0 => 0x45
  | .d1 => 0x16
  | .d2 => 0x1E
  | .d3 => 0x26
  | .d4 => 0x25
  | .d5 => 0x2E
  | .d6 => 0x36
  | .d7 => 0x3D
  | .d8 => 0x3E
  | .d9 => 0x46
  | .esc => 0x76
  | .f1 => 0x05
  | .enter => 0x5A
  | .up => 0x75
  | .down => 0x72
  | .left => 0x6B
  | .right => 0x74

/-- The extended keys are the four arrows (R85). -/
def Key.ext : Key → Bool
  | .up | .down | .left | .right => true
  | .m | .q | .a | .o | .p | .d0 | .d1 | .d2 | .d3 | .d4 | .d5 | .d6 | .d7 | .d8 | .d9 | .esc | .f1 | .enter => false

/-- All 22 ordinary keys. -/
def Key.all : List Key :=
  [.m, .q, .a, .o, .p, .d0, .d1, .d2, .d3, .d4, .d5, .d6, .d7, .d8, .d9, .esc, .f1, .enter, .up, .down, .left, .right]

/-- The layout entry of an ordinary key (R54, R86). -/
def Key.entry (k : Key) : Entry := ⟨k.ext, k.code⟩

/-- The ordinary key with a given extended flag and code, if there is one. -/
def keyOf? (ext : Bool) (c : Byte) : Option Key := Key.all.find? fun k => k.ext == ext && k.code == c

/-- The layout entry of the special multi-byte key (R54). -/
def pauseEntry : Entry := ⟨false, Config.keyPause⟩

/-- A disabled layout entry; no profile has one (R54, R92). -/
def disabledEntry : Entry := ⟨false, Config.keyNone⟩

/-- The contents of LROM: profiles 0 to 3 (R81, R82, R83, R84), each in the order A, B, Select, Start, Up, Down, Left,
Right. -/
def layoutRom : Vector Entry 32 := #v[
  Key.m.entry, Key.q.entry, Key.esc.entry, pauseEntry, Key.q.entry, Key.a.entry, Key.o.entry, Key.p.entry,
  Key.d5.entry, Key.d4.entry, Key.esc.entry, pauseEntry, Key.d4.entry, Key.d3.entry, Key.d1.entry, Key.d2.entry,
  Key.d0.entry, Key.d9.entry, Key.esc.entry, pauseEntry, Key.d9.entry, Key.d8.entry, Key.d6.entry, Key.d7.entry,
  Key.d2.entry, Key.d3.entry, Key.f1.entry, Key.enter.entry, Key.up.entry, Key.down.entry, Key.left.entry, Key.right.entry]

/-- The four classes of a layout entry (R55). -/
inductive EntryClass where
  | disabled | pause | extended | normal
  deriving DecidableEq, Repr

/-- The class of an entry, tested in the order of R55; `ext` is ignored for the two sentinels. -/
def Entry.cls (e : Entry) : EntryClass :=
  if e.code = Config.keyNone then .disabled
  else if e.code = Config.keyPause then .pause
  else if e.ext then .extended
  else .normal

/-- Format ENTRY9 as a nine-bit number, `ext` in bit 8 (R54). -/
def Entry.toBits (e : Entry) : BitVec 9 := BitVec.ofBool e.ext ++ e.code

/-- The entry a nine-bit number packs (R54). -/
def Entry.ofBits (v : BitVec 9) : Entry := ⟨v.getLsbD 8, v.setWidth 8⟩

/-- The profile field of a settings byte, bits 1:0 (R52, R53). -/
def settingsProfile (v : Byte) : Profile := v.setWidth 2

/-- The swap field of a settings byte, bit 2 (R52, R53). -/
def settingsSwap (v : Byte) : Bool := v.getLsbD 2

/-- The settings byte written: reserved bits 0, then swapAB, then profile (R52, R53). -/
def settingsByte (swap : Bool) (p : Profile) : Byte := 0#5 ++ BitVec.ofBool swap ++ p

/-- Odd parity: the complement of the exclusive-or of the eight data bits (R44 f, R60). -/
def parity (b : Byte) : Bool :=
  (((((((true ^^ b.getLsbD 0) ^^ b.getLsbD 1) ^^ b.getLsbD 2) ^^ b.getLsbD 3) ^^ b.getLsbD 4) ^^ b.getLsbD 5) ^^
    b.getLsbD 6) ^^ b.getLsbD 7

/-- Format FRAME11 with parity bit p and data byte d: stop 1, p, d, start 0; bit 0 is sent first (R59). -/
def frameBits (p : Bool) (d : Byte) : BitVec 11 := 1#1 ++ BitVec.ofBool p ++ d ++ 0#1

/-- Button i is pressed in mask m: bit i is 0 (R51). -/
def pressed (m : Mask) (i : Button) : Bool := !m.getLsbD i.val

/-- The mask with bit k set to the level v: one step of the sampler's shift (R70). -/
def setMaskBit (m : Mask) (k : Nat) (v : Bool) : Mask :=
  if v then m ||| (1#8 <<< k) else m &&& ~~~(1#8 <<< k)

/-- The eight levels of a mask in the order they are read, bit 0 first (R35, R66). -/
def maskLevels (m : Mask) : List Bool := buttons.map fun i => m.getLsbD i.val

end Sys2Proof
end

