-- ==== Sys2Proof/WellFormed.lean ====
section
/-! DEFINITION. Which terms of `Instr` an instruction word stands for. -/

namespace Sys2Proof

/-- The conditions a row of the opcode table puts on its operands: a code byte of MAKE1.generic is no sentinel (the
table's row); a code that a named row of the same format has is that row's (log 23); a mask row's button is pressed (R50,
R51); a frame's parity bit is the odd parity of its data (R60). -/
def Instr.WellFormed : Instr → Bool
  | .make1Generic c =>
    c != Config.keyNone && c != Config.keyPause && (keyOf? false c).isNone
  | .break2Generic c => (keyOf? false c).isNone
  | .xmake2Generic c => (keyOf? true c).isNone
  | .xbreak3Generic c => (keyOf? true c).isNone
  | .maskA m => pressed m 0
  | .maskB m => pressed m 1
  | .maskSelect m => pressed m 2
  | .maskStart m => pressed m 3
  | .maskUp m => pressed m 4
  | .maskDown m => pressed m 5
  | .maskLeft m => pressed m 6
  | .maskRight m => pressed m 7
  | .frame p d => p == parity d
  | .makeM | .breakM | .makeQ | .breakQ | .makeA | .breakA | .makeO | .breakO | .makeP | .breakP | .make0
  | .break0 | .make1 | .break1 | .make2 | .break2 | .make3 | .break3 | .make4 | .break4 | .make5 | .break5
  | .make6 | .break6 | .make7 | .break7 | .make8 | .break8 | .make9 | .break9 | .makeEsc | .breakEsc | .makeF1
  | .breakF1 | .makeEnter | .breakEnter | .makeUpArrow | .breakUpArrow | .makeDownArrow | .breakDownArrow
  | .makeLeftArrow | .breakLeftArrow | .makeRightArrow | .breakRightArrow | .pauseMake | .pauseBreak
  | .disabledMake | .disabledBreak | .sample | .layoutLookup _ _ | .encPress _ | .encRelease _ | .releaseAll _
  | .enqueue _ | .enqueuePause | .drain | .idleWait | .txByte _ | .cycle | .cfgEnter | .cfgExit | .cfgSwapA
  | .cfgSwapB | .cfgLayout _ | .edgeScan _ | .storePrev _ | .debounce | .nvLoad | .nvSave | .reset
  | .settings _ | .entry _ | .padstream _ => true

end Sys2Proof
end

