-- ==== Sys2Proof/Decode.lean ====
section
/-! DEFINITION. From words to instructions and back: the decoder, total on any bytes and rejecting by name, and the
encoder. A word is the bytes together with the channel (format) they are read in: the block has no instruction memory,
and its formats overlap as bit patterns, so the format is not part of the bits (R63; log 1). -/

namespace Sys2Proof

/-- The rows whose sequence is empty (R56: "Two further cases produce the empty sequence"). -/
inductive SilentRow where
  | pauseBreak | disabledMake | disabledBreak
  deriving DecidableEq, Repr

/-- The format a word is read in: a wire sequence (R56), an empty sequence, an operation (coded by the model, log 2), a
mask byte read at one button's bit (R50), a settings byte (R52), a layout entry (R54), a frame (R59), a controller stream
(R66). -/
inductive Channel where
  | wire
  | silent (r : SilentRow)
  | operation
  | mask8 (k : Button)
  | settings8
  | entry9
  | frame11
  | padstream
  deriving DecidableEq, Repr

/-- A word: its channel and its bytes, the first transmitted (most significant) byte first (R34, R63). -/
structure CodeWord where
  channel : Channel
  bytes : List Byte
  deriving DecidableEq, Repr

/-- Why a word is no instruction. -/
inductive DecodeError where
  /-- no byte at all -/
  | empty
  /-- a sequence ends after its prefix (R62) -/
  | truncated
  /-- E1 is not followed by the rest of the Pause literal (R58, R62) -/
  | badPause
  /-- the byte 00 alone: the block never sends it (R61 e) -/
  | neverSent
  /-- bytes stand after the word's last byte -/
  | trailing
  /-- no operation has this code (log 2) -/
  | unknownOperation
  /-- an operand is wider than its field -/
  | operandRange
  /-- the word does not have the length of its format -/
  | length
  /-- the mask byte m does not press the row's button, so it is no word of that row (R51); it is a legal sample all the
  same, and a step runs it (R50, R61 a; log 13) -/
  | notPressed (m : Mask)
  /-- the start bit is not 0 or the stop bit not 1 (R59) -/
  | badFrame
  /-- the parity bit is not the odd parity of the data (R60) -/
  | badParity
  deriving DecidableEq, Repr

/-- The MAKE row of a key. -/
def makeOf : Key → Instr
  | .m => .makeM
  | .q => .makeQ
  | .a => .makeA
  | .o => .makeO
  | .p => .makeP
  | .d0 => .make0
  | .d1 => .make1
  | .d2 => .make2
  | .d3 => .make3
  | .d4 => .make4
  | .d5 => .make5
  | .d6 => .make6
  | .d7 => .make7
  | .d8 => .make8
  | .d9 => .make9
  | .esc => .makeEsc
  | .f1 => .makeF1
  | .enter => .makeEnter
  | .up => .makeUpArrow
  | .down => .makeDownArrow
  | .left => .makeLeftArrow
  | .right => .makeRightArrow

/-- The BREAK row of a key. -/
def breakOf : Key → Instr
  | .m => .breakM
  | .q => .breakQ
  | .a => .breakA
  | .o => .breakO
  | .p => .breakP
  | .d0 => .break0
  | .d1 => .break1
  | .d2 => .break2
  | .d3 => .break3
  | .d4 => .break4
  | .d5 => .break5
  | .d6 => .break6
  | .d7 => .break7
  | .d8 => .break8
  | .d9 => .break9
  | .esc => .breakEsc
  | .f1 => .breakF1
  | .enter => .breakEnter
  | .up => .breakUpArrow
  | .down => .breakDownArrow
  | .left => .breakLeftArrow
  | .right => .breakRightArrow

/-- A one-byte make (format MAKE1): the named row of the code if it has one, else the generic row (R56, R57). -/
def make1 (c : Byte) : Instr := match keyOf? false c with | some k => makeOf k | none => .make1Generic c

/-- A two-byte break (format BREAK2). -/
def break2 (c : Byte) : Instr := match keyOf? false c with | some k => breakOf k | none => .break2Generic c

/-- A two-byte extended make (format XMAKE2). -/
def xmake2 (c : Byte) : Instr := match keyOf? true c with | some k => makeOf k | none => .xmake2Generic c

/-- A three-byte extended break (format XBREAK3). -/
def xbreak3 (c : Byte) : Instr := match keyOf? true c with | some k => breakOf k | none => .xbreak3Generic c

/-- The rest of a Pause literal, after its first byte E1. -/
def decodePause : List Byte → Except DecodeError (Instr × List Byte)
  | b1 :: b2 :: b3 :: b4 :: b5 :: b6 :: b7 :: rest =>
    if Config.keyPause :: [b1, b2, b3, b4, b5, b6, b7] = Config.pauseSeq then .ok (.pauseMake, rest)
    else .error .badPause
  | _ => .error .truncated

/-- The first wire sequence of a byte stream and the bytes after it: the stream parse of R62. -/
def decodeWire : List Byte → Except DecodeError (Instr × List Byte)
  | [] => .error .empty
  | b :: rest =>
    if b = Config.keyPause then decodePause rest
    else if b = Config.prefixExt then
      match rest with
      | [] => .error .truncated
      | c :: rest =>
        if c = Config.prefixBreak then
          match rest with
          | [] => .error .truncated
          | c :: rest => .ok (xbreak3 c, rest)
        else .ok (xmake2 c, rest)
    else if b = Config.prefixBreak then
      match rest with
      | [] => .error .truncated
      | c :: rest => .ok (break2 c, rest)
    else if b = Config.keyNone then .error .neverSent
    else .ok (make1 b, rest)

/-- The stream parse of R62 over a whole stream; `fuel` bounds the number of sequences. -/
def parseStreamAux : Nat → List Byte → Except DecodeError (List Instr)
  | _, [] => .ok []
  | 0, _ :: _ => .error .trailing
  | fuel + 1, b :: bs =>
    match decodeWire (b :: bs) with
    | .error e => .error e
    | .ok (i, rest) =>
      match parseStreamAux fuel rest with
      | .error e => .error e
      | .ok is => .ok (i :: is)

/-- A whole stream as the list of its sequences (R62): every sequence has at least one byte. -/
def parseStream (bs : List Byte) : Except DecodeError (List Instr) := parseStreamAux bs.length bs

/-- A whole word whose code byte is itself a prefix: MAKE1 of E0 or F0, XMAKE2 of F0. Such codes "are copied to the wire
unchecked" like any other (R61 c); only in a stream do they look like the start of a longer sequence (R62). -/
def prefixCodeWord : List Byte → Option Instr
  | [c] => if c = Config.prefixExt ∨ c = Config.prefixBreak then some (.make1Generic c) else none
  | [p, c] => if p = Config.prefixExt ∧ c = Config.prefixBreak then some (.xmake2Generic c) else none
  | _ => none

/-- A stored flag byte: 0 or 1. -/
def flagOf (x : Byte) : Except DecodeError Bool :=
  if x = 0 then .ok false else if x = 1 then .ok true else .error .operandRange

/-- An operation word: its code, the place of the operation in the list of R4 (the model's own code, log 2), then its
operands. -/
def decodeOperation : List Byte → Except DecodeError Instr
  | [] => .error .empty
  | op :: args =>
    if 22 ≤ op.toNat then .error .unknownOperation
    else
      match op.toNat, args with
      | 0, [] => .ok .sample
      | 1, [p, b] =>
        if p.toNat < 4 ∧ b.toNat < 8 then .ok (.layoutLookup (p.setWidth 2) (b.setWidth 3))
        else .error .operandRange
      | 2, [x, c] => (flagOf x).map fun x => .encPress ⟨x, c⟩
      | 3, [x, c] => (flagOf x).map fun x => .encRelease ⟨x, c⟩
      | 4, [p] => if p.toNat < 4 then .ok (.releaseAll (p.setWidth 2)) else .error .operandRange
      | 5, [b] => .ok (.enqueue b)
      | 6, [] => .ok .enqueuePause
      | 7, [] => .ok .drain
      | 8, [] => .ok .idleWait
      | 9, [b] => .ok (.txByte b)
      | 10, [] => .ok .cycle
      | 11, [] => .ok .cfgEnter
      | 12, [] => .ok .cfgExit
      | 13, [] => .ok .cfgSwapA
      | 14, [] => .ok .cfgSwapB
      | 15, [n] => if n.toNat < 4 then .ok (.cfgLayout (n.setWidth 2)) else .error .operandRange
      | 16, [m] => .ok (.edgeScan m)
      | 17, [m] => .ok (.storePrev m)
      | 18, [] => .ok .nvLoad
      | 19, [] => .ok .nvSave
      | 20, [] => .ok .debounce
      | 21, [] => .ok .reset
      | _, _ => .error .length

/-- The mask row of a button. -/
def maskRow (k : Button) (m : Mask) : Instr :=
  match k with
  | 0 => .maskA m
  | 1 => .maskB m
  | 2 => .maskSelect m
  | 3 => .maskStart m
  | 4 => .maskUp m
  | 5 => .maskDown m
  | 6 => .maskLeft m
  | 7 => .maskRight m

/-- A mask byte read at button k's bit (R50, R51). -/
def decodeMask (k : Button) : List Byte → Except DecodeError Instr
  | [m] => if pressed m k then .ok (maskRow k m) else .error (.notPressed m)
  | _ => .error .length

/-- An ENTRY9 word: two bytes, the upper seven bits 0 (R54). -/
def decodeEntry : List Byte → Except DecodeError Instr
  | [h, c] => (flagOf h).map fun x => .entry ⟨x, c⟩
  | _ => .error .length

/-- A FRAME11 word: two bytes, the upper five bits 0 (R59, R60). -/
def decodeFrame : List Byte → Except DecodeError Instr
  | [h, l] =>
    let f : BitVec 16 := h ++ l
    if f.toNat ≥ 2048 then .error .operandRange
    else if f.getLsbD 0 || !f.getLsbD 10 then .error .badFrame
    else if f.getLsbD 9 != parity (f.extractLsb' 1 8) then .error .badParity
    else .ok (.frame (f.getLsbD 9) (f.extractLsb' 1 8))
  | _ => .error .length

/-- The instruction a word is: total on every channel and every list of bytes. -/
def decode (w : CodeWord) : Except DecodeError Instr :=
  match w.channel with
  | .wire =>
    match prefixCodeWord w.bytes with
    | some i => .ok i
    | none =>
      match decodeWire w.bytes with
      | .ok (i, []) => .ok i
      | .ok (_, _ :: _) => .error .trailing
      | .error e => .error e
  | .silent r =>
    match w.bytes with
    | _ :: _ => .error .trailing
    | [] =>
      match r with
      | .pauseBreak => .ok .pauseBreak
      | .disabledMake => .ok .disabledMake
      | .disabledBreak => .ok .disabledBreak
  | .operation => decodeOperation w.bytes
  | .mask8 k => decodeMask k w.bytes
  | .settings8 => match w.bytes with | [v] => .ok (.settings v) | _ => .error .length
  | .entry9 => decodeEntry w.bytes
  | .frame11 => decodeFrame w.bytes
  | .padstream => match w.bytes with | [r] => .ok (.padstream r) | _ => .error .length

/-- The bytes of an ordinary key's press (R95). -/
def makeBytes (k : Key) : List Byte := if k.ext then [Config.prefixExt, k.code] else [k.code]

/-- The bytes of an ordinary key's release (R96). -/
def breakBytes (k : Key) : List Byte :=
  if k.ext then [Config.prefixExt, Config.prefixBreak, k.code] else [Config.prefixBreak, k.code]

/-- A one-bit operand as a byte. -/
def flagByte (x : Bool) : Byte := if x then 1 else 0

/-- A wire word. -/
def wireWord (bs : List Byte) : CodeWord := ⟨.wire, bs⟩

/-- An operation word: the operation's code in the list of R4 and its operands (log 2). -/
def opWord (code : Nat) (args : List Byte) : CodeWord := ⟨.operation, BitVec.ofNat 8 code :: args⟩

/-- The word of an instruction. -/
def encode : Instr → CodeWord
  | .makeM => wireWord (makeBytes .m)
  | .breakM => wireWord (breakBytes .m)
  | .makeQ => wireWord (makeBytes .q)
  | .breakQ => wireWord (breakBytes .q)
  | .makeA => wireWord (makeBytes .a)
  | .breakA => wireWord (breakBytes .a)
  | .makeO => wireWord (makeBytes .o)
  | .breakO => wireWord (breakBytes .o)
  | .makeP => wireWord (makeBytes .p)
  | .breakP => wireWord (breakBytes .p)
  | .make0 => wireWord (makeBytes .d0)
  | .break0 => wireWord (breakBytes .d0)
  | .make1 => wireWord (makeBytes .d1)
  | .break1 => wireWord (breakBytes .d1)
  | .make2 => wireWord (makeBytes .d2)
  | .break2 => wireWord (breakBytes .d2)
  | .make3 => wireWord (makeBytes .d3)
  | .break3 => wireWord (breakBytes .d3)
  | .make4 => wireWord (makeBytes .d4)
  | .break4 => wireWord (breakBytes .d4)
  | .make5 => wireWord (makeBytes .d5)
  | .break5 => wireWord (breakBytes .d5)
  | .make6 => wireWord (makeBytes .d6)
  | .break6 => wireWord (breakBytes .d6)
  | .make7 => wireWord (makeBytes .d7)
  | .break7 => wireWord (breakBytes .d7)
  | .make8 => wireWord (makeBytes .d8)
  | .break8 => wireWord (breakBytes .d8)
  | .make9 => wireWord (makeBytes .d9)
  | .break9 => wireWord (breakBytes .d9)
  | .makeEsc => wireWord (makeBytes .esc)
  | .breakEsc => wireWord (breakBytes .esc)
  | .makeF1 => wireWord (makeBytes .f1)
  | .breakF1 => wireWord (breakBytes .f1)
  | .makeEnter => wireWord (makeBytes .enter)
  | .breakEnter => wireWord (breakBytes .enter)
  | .makeUpArrow => wireWord (makeBytes .up)
  | .breakUpArrow => wireWord (breakBytes .up)
  | .makeDownArrow => wireWord (makeBytes .down)
  | .breakDownArrow => wireWord (breakBytes .down)
  | .makeLeftArrow => wireWord (makeBytes .left)
  | .breakLeftArrow => wireWord (breakBytes .left)
  | .makeRightArrow => wireWord (makeBytes .right)
  | .breakRightArrow => wireWord (breakBytes .right)
  | .pauseMake => wireWord Config.pauseSeq
  | .pauseBreak => ⟨.silent .pauseBreak, []⟩
  | .disabledMake => ⟨.silent .disabledMake, []⟩
  | .disabledBreak => ⟨.silent .disabledBreak, []⟩
  | .make1Generic c => wireWord [c]
  | .break2Generic c => wireWord [Config.prefixBreak, c]
  | .xmake2Generic c => wireWord [Config.prefixExt, c]
  | .xbreak3Generic c => wireWord [Config.prefixExt, Config.prefixBreak, c]
  | .sample => opWord 0 []
  | .layoutLookup p b => opWord 1 [p.setWidth 8, b.setWidth 8]
  | .encPress e => opWord 2 [flagByte e.ext, e.code]
  | .encRelease e => opWord 3 [flagByte e.ext, e.code]
  | .releaseAll p => opWord 4 [p.setWidth 8]
  | .enqueue b => opWord 5 [b]
  | .enqueuePause => opWord 6 []
  | .drain => opWord 7 []
  | .idleWait => opWord 8 []
  | .txByte b => opWord 9 [b]
  | .cycle => opWord 10 []
  | .cfgEnter => opWord 11 []
  | .cfgExit => opWord 12 []
  | .cfgSwapA => opWord 13 []
  | .cfgSwapB => opWord 14 []
  | .cfgLayout n => opWord 15 [n.setWidth 8]
  | .edgeScan m => opWord 16 [m]
  | .storePrev m => opWord 17 [m]
  | .nvLoad => opWord 18 []
  | .nvSave => opWord 19 []
  | .debounce => opWord 20 []
  | .reset => opWord 21 []
  | .maskA m => ⟨.mask8 0, [m]⟩
  | .maskB m => ⟨.mask8 1, [m]⟩
  | .maskSelect m => ⟨.mask8 2, [m]⟩
  | .maskStart m => ⟨.mask8 3, [m]⟩
  | .maskUp m => ⟨.mask8 4, [m]⟩
  | .maskDown m => ⟨.mask8 5, [m]⟩
  | .maskLeft m => ⟨.mask8 6, [m]⟩
  | .maskRight m => ⟨.mask8 7, [m]⟩
  | .settings v => ⟨.settings8, [v]⟩
  | .entry e => ⟨.entry9, [flagByte e.ext, e.code]⟩
  | .frame p d =>
    let f : BitVec 16 := (frameBits p d).setWidth 16
    ⟨.frame11, [f.extractLsb' 8 8, f.extractLsb' 0 8]⟩
  | .padstream r => ⟨.padstream, [r]⟩

/-- The n bytes of a table word w, first transmitted byte (most significant) first (R63; log 3). -/
def tableBytes : Nat → Nat → List Byte
  | 0, _ => []
  | n + 1, w => BitVec.ofNat 8 (w / 256 ^ n) :: tableBytes n w

/-- The channel a table word of nbits is read in: the table gives no channel, and its one-byte and two-byte rows overlap
across formats, so the model tries them in a fixed order (log 4). -/
def tableChannel (nbits w : Nat) : Channel :=
  if nbits = 0 then .silent .pauseBreak
  else if nbits ≤ 8 then
    if (keyOf? false (BitVec.ofNat 8 w)).isSome then .wire
    else match buttons.find? fun k => w == 255 - 2 ^ k.val with
      | some k => .mask8 k
      | none => if w = 0 then .mask8 0 else if w ≤ 7 then .settings8 else .wire
  else if nbits ≤ 16 then
    if w / 256 = 0xF0 ∨ w / 256 = 0xE0 then .wire
    else if w < 512 then .entry9 else .frame11
  else .wire

/-- The word the table numbers w in nbits. -/
def tableWord (nbits w : Nat) : CodeWord := ⟨tableChannel nbits w, tableBytes ((nbits + 7) / 8) w⟩

/-- The instruction the decoder reads from a table word. -/
def decodeTableWord (nbits w : Nat) : Option Instr :=
  match decode (tableWord nbits w) with
  | .ok i => some i
  | .error _ => none

end Sys2Proof
end

