-- ==== Sys2Proof/Machine/State.lean ====
section
/-! DEFINITION. The state: the block's registers, queue memory and pin drivers (R10 to R26), the environment it observes
(R15, R23, R27), the OPEN parameters (R6) and the model's own fields. -/

namespace Sys2Proof.Machine

/-- A sparse memory: (address, byte) pairs, addresses strictly rising, no entry equal to what an unlisted address reads
as. -/
abbrev Memory := List Host.Cell

/-- The sequencer positions (R20). -/
inductive Phase where
  | resetLoad | drain | idleWait | tx | settle | sample | selectEdge | config | debounce | normal | store
  deriving DecidableEq, Repr

/-- The position inside a phase that the step divides: the two serial engines and the settings write (log 5). -/
inductive Engine where
  /-- not begun -/
  | off
  /-- SAMPLE: PAD_LATCH is high -/
  | latchHigh
  /-- SAMPLE, TX: before the next bit -/
  | ready
  /-- SAMPLE: a level is read and PAD_CLK is high -/
  | clkHigh
  /-- TX: the bit is on KB_DATA, KB_CLK still released -/
  | dataOut
  /-- SAMPLE: PAD_CLK is low again; TX: KB_CLK is low -/
  | clkLow
  /-- DEBOUNCE: the settings write is in progress -/
  | writing
  /-- DEBOUNCE: the settings byte is stored and the delay runs -/
  | saved
  deriving DecidableEq, Repr

/-- The block's drive of an open-collector keyboard line: it pulls low or it does not pull (R26). -/
inductive Drive where
  | low | release
  deriving DecidableEq, Repr

/-- The anomalies an operation notes (R160 to R163). PeerUnresponsive is not detected (R164) and BadProfileIndex has no
representation (R165), so neither is noted (log 24). -/
inductive Anomaly where
  /-- ENQUEUE on a full queue: byte b is lost (R161) -/
  | queueOverflow (b : Byte)
  /-- ENQUEUE_PAUSE with fewer than 8 free slots (R162) -/
  | pauseDropped (free : Nat)
  /-- NV_LOAD decoded an index of 4 or more: unreachable (R163) -/
  | corruptSettings (v : Byte)
  deriving DecidableEq, Repr

/-- What a run did that leaves no other record: the model's trace (R112, R160; log 24). -/
inductive Event where
  | padLatch (level : Bool)
  | padClk (level : Bool)
  | kbClk (d : Drive)
  | kbData (d : Drive)
  /-- a blocking delay of at least this many microseconds -/
  | delay (us : Time)
  /-- IDLE_WAIT read these levels of KB_CLK and KB_DATA -/
  | poll (clk data : Bool)
  /-- one byte was transmitted (R112) -/
  | tx (b : Byte)
  | nvRead (v : Byte)
  | nvWrite (v : Byte)
  | note (a : Anomaly)
  /-- RESET: all pin drivers to their idle level, time restarts at 0 (R180) -/
  | reset
  deriving DecidableEq, Repr

/-- The OPEN parameters and the layout ROM: fixed for a machine, never written by a step; the defaults are the spec's
(R6, R22; log 20). -/
structure Params where
  /-- NV_ADDR -/
  nvAddr : Nat := 0
  /-- T_KBHALF -/
  tKbHalf : Time := 40
  /-- CFG_ACTION_UPDATES_PREV -/
  cfgActionUpdatesPrev : Bool := false
  /-- T_NV_WRITE -/
  tNvWrite : Time := 0
  /-- TIME_W; none is unbounded -/
  timeW : Option Nat := none
  /-- LROM -/
  lrom : Vector Entry 32 := layoutRom
  deriving DecidableEq, Repr

/-- The machine. -/
structure State where
  -- the block's registers
  prevMask : Mask
  btn : Vector Bool 8
  profile : Profile
  swapAB : Bool
  cfg : Bool
  head : Index
  tail : Index
  lastSend : Time
  phase : Phase
  qram : Memory
  curMask : Mask
  sampCnt : BitVec 4
  txShift : BitVec 11
  txCnt : BitVec 4
  -- the block's pin drivers
  padLatch : Bool
  padClk : Bool
  kbClk : Drive
  kbData : Drive
  -- the environment
  now : Time
  nv : Memory
  resetPin : Bool
  timeIn : List Time
  padIn : List Bool
  kbIn : List (Bool × Bool)
  draws : Nat
  -- fixed
  params : Params
  -- the model's own
  engine : Engine
  busEntry : Entry
  script : List CodeWord
  trace : List Event
  deriving DecidableEq, Repr

/-- Why the machine stops. No rule of the spec stops it (R160). -/
inductive Fault where
  /-- DRAIN (and CYCLE, the mask rows and the TX phase, which run it) reads a queue slot that nothing has written. No run
  from reset does (R181); safe: the model stops where the hardware would send an unspecified byte (log 9). -/
  | qramUnwritten (slot : Nat)
  deriving DecidableEq, Repr

/-- Why there is no meaning. -/
inductive Refusal where
  /-- raised by an arm of exec that has no meaning yet (none in this model); safe -/
  | notModelled (mnemonic : String)
  /-- raised by step: the next script word is neither a row's word nor a mask byte; safe: the hardware has no such words at
  all -/
  | badWord (e : DecodeError)
  deriving DecidableEq, Repr

/-- The machine right after RESET is asserted, the store never written and nothing placed in it: the constants of R181,
phase RESET_LOAD, so that the first step is NV_LOAD. `profile` and `swapAB` are 0 until then (log 11), the scratch
registers 0 (log 12), the model's own fields empty (log 30). -/
def State.reset : State where
  prevMask := 0xFF
  btn := Vector.replicate 8 false
  profile := 0
  swapAB := false
  cfg := false
  head := 0
  tail := 0
  lastSend := 0
  phase := .resetLoad
  qram := []
  curMask := 0
  sampCnt := 0
  txShift := 0
  txCnt := 0
  padLatch := false
  padClk := false
  kbClk := .release
  kbData := .release
  now := 0
  nv := []
  resetPin := false
  timeIn := []
  padIn := []
  kbIn := []
  draws := 0
  params := {}
  engine := .off
  busEntry := disabledEntry
  script := []
  trace := []

end Sys2Proof.Machine
end

