-- ==== Sys2Proof/Machine/Ops.lean ====
section
/-! DEFINITION. The named operations over memory, time, pins and inputs, and the noting of an anomaly, which every
operation shares. -/

namespace Sys2Proof.Machine

/-! ### Memory -/

/-- The byte at an address; an unlisted address reads as `dflt`, none for no value. -/
def Memory.read (dflt : Option Byte) : Memory → Nat → Option Byte
  | [], _ => dflt
  | (a, b) :: rest, x => if x = a then some b else Memory.read dflt rest x

/-- The memory with byte v at address x, in canonical form again. -/
def Memory.write (dflt : Option Byte) (m : Memory) (x : Nat) (v : Byte) : Memory :=
  match m with
  | [] => if some v = dflt then [] else [(x, v)]
  | (a, b) :: rest =>
    if x < a then (if some v = dflt then (a, b) :: rest else (x, v) :: (a, b) :: rest)
    else if x = a then (if some v = dflt then rest else (x, v) :: rest)
    else (a, b) :: Memory.write dflt rest x v

/-- The canonical form: addresses strictly rising, no entry equal to what an unlisted address reads as. -/
def Memory.wf (dflt : Option Byte) : Memory → Bool
  | [] => true
  | (a, b) :: rest => some b != dflt && rest.all (fun c => a < c.1) && Memory.wf dflt rest

/-- A queue slot that nothing has written holds no value (R181; log 9). -/
def qramDefault : Option Byte := none

/-- A byte of the settings store that nothing has written reads as erased, 0xFF (R196, G7; log 10). -/
def nvErased : Byte := 0xFF

/-- MemRead(QRAM, a, 1) (R31). -/
def qramRead (s : State) (a : Index) : Option Byte := Memory.read qramDefault s.qram a.toNat

/-- MemWrite(QRAM, a, 1, v) (R31). -/
def qramWrite (a : Index) (v : Byte) (s : State) : State := { s with qram := Memory.write qramDefault s.qram a.toNat v }

/-- The byte the settings store holds at an address (R23, R33). -/
def nvByteAt (s : State) (a : Nat) : Byte := (Memory.read (some nvErased) s.nv a).getD nvErased

/-! ### The trace and anomalies -/

/-- Record an event. -/
def emit (e : Event) (s : State) : State := { s with trace := e :: s.trace }

/-- What every anomaly does, in whichever operation it is detected: it is noted, and control goes on in that operation;
nothing is saved, no mode changes, nothing is restored afterwards (R160, R166, R169, R170). -/
def noteAnomaly (a : Anomaly) (s : State) : State := emit (.note a) s

/-! ### Time -/

/-- Time advanced by d, modulo 2^TIME_W where TIME_W is finite (R15). -/
def timeAdd (w : Option Nat) (t d : Time) : Time :=
  match w with
  | none => t + d
  | some w => (t + d) % 2 ^ w

/-- Elapsed time `a -t b`, modulo 2^TIME_W where TIME_W is finite (R44 e, R192). -/
def timeSub (w : Option Nat) (a b : Time) : Time :=
  match w with
  | none => a - b
  | some w => (a + 2 ^ w - b % 2 ^ w) % 2 ^ w

/-- Advance `now`. -/
def advance (d : Time) (s : State) : State := { s with now := timeAdd s.params.timeW s.now d }

/-- Delay(d): nothing in the block changes and `now` advances by at least d; what it advances beyond d comes with the
next read of `now` (R194 b; log 21). -/
def delay (d : Time) (s : State) : State := emit (.delay d) (advance d s)

/-! ### Inputs -/

/-- Read the time input: first TIME advances `now` by the next input, or by a free value when none is given (R15, R174;
log 7). The value read is `now` of the state answered. -/
def readNow (s : State) : State :=
  match s.timeIn with
  | a :: rest => advance a { s with timeIn := rest }
  | [] => advance (Config.freeAdvance s.draws) { s with draws := s.draws + 1 }

/-- read(PAD_DATA): the next input level, or a free value when none is given (R72; log 7). -/
def readPadData (s : State) : Bool × State :=
  match s.padIn with
  | v :: rest => (v, { s with padIn := rest })
  | [] => (Config.freePadLevel s.draws, { s with draws := s.draws + 1 })

/-- The levels the peer leaves the keyboard lines at, true = not pulled low: the next input, or a free value when none is
given (R27 b; log 7). -/
def readPeer (s : State) : (Bool × Bool) × State :=
  match s.kbIn with
  | v :: rest => (v, { s with kbIn := rest })
  | [] => (Config.freeLines s.draws, { s with draws := s.draws + 1 })

/-! ### Pins -/

/-- PAD_LATCH <- v -/
def drivePadLatch (v : Bool) (s : State) : State := emit (.padLatch v) { s with padLatch := v }

/-- PAD_CLK <- v -/
def drivePadClk (v : Bool) (s : State) : State := emit (.padClk v) { s with padClk := v }

/-- KB_CLK <- d -/
def driveKbClk (d : Drive) (s : State) : State := emit (.kbClk d) { s with kbClk := d }

/-- KB_DATA <- d -/
def driveKbData (d : Drive) (s : State) : State := emit (.kbData d) { s with kbData := d }

/-- One poll of the keyboard lines: read(KB_CLK) and read(KB_DATA), each the wired-AND of the peer and the block
(R26, R111). -/
def pollLines (s : State) : (Bool × Bool) × State :=
  let r := readPeer s
  let clk := r.1.1 && s.kbClk == .release
  let data := r.1.2 && s.kbData == .release
  ((clk, data), emit (.poll clk data) r.2)

/-! ### The sequencer -/

/-- phase <- p, at the start of that phase (R20). DESIGN CHOICE (log 34): a script word that changes the phase in the middle
of a sample, a frame or a settings write ends that engine here; no pin driver changes. -/
def goto (p : Phase) (s : State) : State := { s with phase := p, engine := .off }

/-- Apply f n times. -/
def repeatOp (f : State → State) : Nat → State → State
  | 0, s => s
  | n + 1, s => repeatOp f n (f s)

end Sys2Proof.Machine
end

