-- ==== Sys2Proof/Machine/Flags.lean ====
section
/-! DEFINITION. The tests the block makes. It has no flags or condition codes (R10): every condition is computed where
it is used, from the registers alone. -/

namespace Sys2Proof.Machine

/-- The number of resident bytes, `(head - tail) mod 64` (R44 b, R105). -/
def count (s : State) : Nat := (s.head - s.tail).toNat

/-- The free slots, counted against the usable capacity of 63 (R44 c, R107, D29). -/
def free (s : State) : Nat := 63 - count s

/-- The queue is empty: `head == tail` (R18, R105). -/
def queueEmpty (s : State) : Bool := s.head == s.tail

/-- The queue is full: `(head + 1) mod 64 == tail` (R18, R105). -/
def queueFull (s : State) : Bool := s.head + 1 == s.tail

/-- The gate of DRAIN at time `now`: the queue is not empty and at least T_INTERBYTE has elapsed since the last send
timestamp, inclusive (R110). -/
def gateOpen (s : State) : Bool :=
  !queueEmpty s && decide (Config.tInterbyte ≤ timeSub s.params.timeW s.now s.lastSend)

/-- selectPressed of a raw mask (R74, R127). -/
def selectPressed (m : Mask) : Bool := pressed m 2

/-- Button i is a fresh press: pressed in m and not pressed in the previous mask p (R130). -/
def fresh (m p : Mask) (i : Button) : Bool := pressed m i && !pressed p i

/-- Logical button i of raw mask m: A and B exchanged when the swap flag is set (R136). -/
def logical (swap : Bool) (m : Mask) (i : Button) : Bool :=
  if i = 0 then pressed m (if swap then 1 else 0)
  else if i = 1 then pressed m (if swap then 0 else 1)
  else pressed m i

end Sys2Proof.Machine
end

