-- ==== Sys2Proof/Machine/Operands.lean ====
section
/-! DEFINITION. The operand forms of the operations: entries of the layout ROM, the configuration actions and the
resident bytes of the queue. -/

namespace Sys2Proof.Machine

/-- LAYOUT_LOOKUP(p, i) = MemRead(LROM, p * 8 + i, 1) (R32, R80). -/
def lookupEntry (lrom : Vector Entry 32) (p : Profile) (i : Button) : Entry :=
  lrom[p.toNat * 8 + i.val]'(by have := p.isLt; have := i.isLt; omega)

/-- The three configuration actions (R130). -/
inductive Action where
  | swapA | swapB | layout (n : Profile)
  deriving DecidableEq, Repr

/-- The configuration dispatch: the first fresh button of A, B, Down, Left, Right, Up fires its action (R130, R134). -/
def configAction (m p : Mask) : Option Action :=
  if fresh m p 0 then some .swapA
  else if fresh m p 1 then some .swapB
  else if fresh m p 5 then some (.layout 0)
  else if fresh m p 6 then some (.layout 1)
  else if fresh m p 7 then some (.layout 2)
  else if fresh m p 4 then some (.layout 3)
  else none

/-- The byte of PAUSE_SEQ at k (R58). -/
def pauseByte (k : Nat) : Byte := Config.pauseSeq.getD k 0

end Sys2Proof.Machine
end

