-- ==== Sys2Proof/Machine/Queue.lean ====
section
/-! DEFINITION. The producer side of the Output Queue: ENQUEUE and ENQUEUE_PAUSE (R105 to R108). -/

namespace Sys2Proof.Machine

/-- ENQUEUE(b): the byte is stored at `head`, then `head` advances; on a full queue it is dropped (R106, R40, R161). -/
def enqueue (b : Byte) (s : State) : State :=
  if queueFull s then noteAnomaly (.queueOverflow b) s
  else
    let s := qramWrite s.head b s
    { s with head := s.head + 1 }

/-- The eight stores of the Pause sequence, at `head + k` for k = 0..7 (R107). -/
def storePause (s : State) : State :=
  [0, 1, 2, 3, 4, 5, 6, 7].foldl (fun t k => qramWrite (s.head + BitVec.ofNat 6 k) (pauseByte k) t) s

/-- ENQUEUE_PAUSE: all eight bytes and one index update, or nothing (R107, R38, R162). -/
def enqueuePause (s : State) : State :=
  if free s < 8 then noteAnomaly (.pauseDropped (free s)) s
  else
    let s := storePause s
    { s with head := s.head + 8 }

/-- Append bytes one at a time, each with its own full test (R95, R96, R98). -/
def enqueueAll (bs : List Byte) (s : State) : State := bs.foldl (fun s b => enqueue b s) s

/-- ENQUEUE b (R106). -/
def execEnqueue (b : Byte) (s : State) : Host.Outcome State Fault Refusal := .next (enqueue b s)

/-- ENQUEUE_PAUSE (R107). -/
def execEnqueuePause (s : State) : Host.Outcome State Fault Refusal := .next (enqueuePause s)

end Sys2Proof.Machine
end

