-- ==== Sys2Proof/Machine/Encoder.lean ====
section
/-! DEFINITION. The Layout Table and the Key Event Encoder: LAYOUT_LOOKUP (R80), ENC_PRESS (R90), ENC_RELEASE (R91) and
RELEASE_ALL (R97). -/

namespace Sys2Proof.Machine

/-- ENC_PRESS(e) (R90, R92, R93, R95). -/
def encPress (e : Entry) (s : State) : State :=
  if e.code = Config.keyNone then s
  else if e.code = Config.keyPause then enqueuePause s
  else enqueueAll (if e.ext then [Config.prefixExt, e.code] else [e.code]) s

/-- ENC_RELEASE(e) (R91, R92, R94, R96). -/
def encRelease (e : Entry) (s : State) : State :=
  if e.code = Config.keyNone then s
  else if e.code = Config.keyPause then s
  else
    enqueueAll
      (if e.ext then [Config.prefixExt, Config.prefixBreak, e.code] else [Config.prefixBreak, e.code]) s

/-- btn[i] <- v (R12). -/
def setBtn (i : Button) (v : Bool) (s : State) : State := { s with btn := s.btn.set i.val v }

/-- One turn of RELEASE_ALL's loop: release button i under profile p if it is marked (R97). -/
def releaseButton (p : Profile) (s : State) (i : Button) : State :=
  if s.btn[i.val] then setBtn i false (encRelease (lookupEntry s.params.lrom p i) s) else s

/-- RELEASE_ALL(p), ascending button index (R97, D8). -/
def releaseAll (p : Profile) (s : State) : State := buttons.foldl (releaseButton p) s

/-- LAYOUT_LOOKUP p b: no state of the block is written; the entry is handed to the caller (R80; log 15). -/
def execLayoutLookup (p : Profile) (b : BitVec 3) (s : State) : Host.Outcome State Fault Refusal :=
  .next { s with busEntry := lookupEntry s.params.lrom p b.toFin }

/-- ENC_PRESS e (R90). -/
def execEncPress (e : Entry) (s : State) : Host.Outcome State Fault Refusal := .next (encPress e s)

/-- ENC_RELEASE e (R91). -/
def execEncRelease (e : Entry) (s : State) : Host.Outcome State Fault Refusal := .next (encRelease e s)

/-- RELEASE_ALL p (R97). -/
def execReleaseAll (p : Profile) (s : State) : Host.Outcome State Fault Refusal := .next (releaseAll p s)

end Sys2Proof.Machine
end

