-- ==== Sys2Proof/Machine/Sampler.lean ====
section
/-! DEFINITION. The Input Sampler: SAMPLE (R70 to R74), with the eight reads one at a time so that the sequencer can run
it one pin change a step (log 5). -/

namespace Sys2Proof.Machine

/-- The latch line goes high (R71). -/
def raiseLatch (s : State) : State := drivePadLatch true s

/-- The latch pulse ends; the read counter starts at 0 (R70, R71). -/
def lowerLatch (s : State) : State :=
  let s := delay Config.tLatch s
  let s := drivePadLatch false s
  { s with sampCnt := 0 }

/-- The latch pulse (R71). -/
def startSample (s : State) : State := lowerLatch (raiseLatch s)

/-- Read PAD_DATA into bit sampCnt; then the clock line goes high (R70, R71). -/
def readBit (s : State) : State :=
  let r := readPadData s
  let s := { r.2 with curMask := setMaskBit r.2.curMask r.2.sampCnt.toNat r.1 }
  drivePadClk true s

/-- The clock pulse ends (R71). -/
def lowerPadClk (s : State) : State := drivePadClk false (delay Config.tPadHalf s)

/-- The low half-phase ends the turn (R71). -/
def endRead (s : State) : State :=
  let s := delay Config.tPadHalf s
  { s with sampCnt := s.sampCnt + 1 }

/-- One turn of the read loop: read PAD_DATA into bit sampCnt, then one high clock pulse (R70, R71). -/
def sampleBit (s : State) : State := endRead (lowerPadClk (readBit s))

/-- SAMPLE: one latch pulse and eight reads (R70). -/
def sample (s : State) : State := repeatOp sampleBit 8 (startSample s)

/-- SAMPLE (R70); the sequencer goes on to SELECT_EDGE (R20). -/
def execSample (s : State) : Host.Outcome State Fault Refusal := .next (goto .selectEdge (sample s))

end Sys2Proof.Machine
end

