-- ==== Sys2Proof/Machine/Settings.lean ====
section
/-! DEFINITION. The persistent-settings interface: NV_LOAD (R151, R152) and NV_SAVE (R153). -/

namespace Sys2Proof.Machine

/-- The store's byte at NV_ADDR becomes v (R23, R33). -/
def nvSet (v : Byte) (s : State) : State :=
  { s with nv := Memory.write (some nvErased) s.nv s.params.nvAddr v }

/-- MemWrite(NV, NV_ADDR, 1, v) by the block (R33, R38). -/
def nvWrite (v : Byte) (s : State) : State := emit (.nvWrite v) (nvSet v s)

/-- NV_SAVE: the settings byte is written, always; the write takes T_NV_WRITE (R153). -/
def nvSave (s : State) : State := delay s.params.tNvWrite (nvWrite (settingsByte s.swapAB s.profile) s)

/-- The repair of an invalid index: the defaults are loaded and written at once; no stored byte reaches it (R152, R163,
C1). -/
def nvRepair (v : Byte) (s : State) : State :=
  let s := { s with profile := Config.defaultProfile, swapAB := Config.defaultSwap }
  noteAnomaly (.corruptSettings v) (nvWrite (settingsByte s.swapAB s.profile) s)

/-- NV_LOAD: one read of the store, masked to two bits before the validity test (R53, R151). -/
def nvLoad (s : State) : State :=
  let v := nvByteAt s s.params.nvAddr
  let s := emit (.nvRead v) s
  let s := { s with swapAB := settingsSwap v }
  if (settingsProfile v).toNat < 4 then { s with profile := settingsProfile v } else nvRepair v s

/-- NV_LOAD (R151); the sequencer goes on from RESET_LOAD to DRAIN (R20). -/
def execNvLoad (s : State) : Host.Outcome State Fault Refusal := .next (goto .drain (nvLoad s))

/-- NV_SAVE (R153). -/
def execNvSave (s : State) : Host.Outcome State Fault Refusal := .next (nvSave s)

end Sys2Proof.Machine
end

