-- ==== Sys2Proof/Machine/Transmitter.lean ====
section
/-! DEFINITION. The consumer side of the Output Queue and the Transmitter: DRAIN (R109, R110), IDLE_WAIT (R111) and
TX_BYTE (R112 to R114), with the frame bit by bit so that the sequencer can run it one pin change a step (log 5). -/

namespace Sys2Proof.Machine

/-- The start of a frame: the eleven bits are loaded, none is sent yet (R113). -/
def startFrame (p : Bool) (d : Byte) (s : State) : State := { s with txShift := frameBits p d, txCnt := 0 }

/-- Bit txCnt goes to KB_DATA while the clock is high (R113). -/
def putBit (s : State) : State :=
  let bit := s.txShift.getLsbD s.txCnt.toNat
  driveKbData (if bit then .release else .low) s

/-- The clock line goes low: the peer samples KB_DATA (R113). -/
def lowerKbClk (s : State) : State := driveKbClk .low (delay s.params.tKbHalf s)

/-- The clock line is released, which ends the turn (R113). -/
def endBit (s : State) : State :=
  let s := driveKbClk .release (delay s.params.tKbHalf s)
  { s with txCnt := s.txCnt + 1 }

/-- One turn of the frame loop: bit txCnt goes to KB_DATA while the clock is high, then one low clock pulse (R113). -/
def txBit (s : State) : State := endBit (lowerKbClk (putBit s))

/-- The end of a frame: the data line is released and the byte counts as sent (R112, R113). DESIGN CHOICE (log 24): R112
names the event `tx(b)` and gives no instant; it is appended here, after the eleventh bit and before the settle delay,
so a frame that RESET cuts short leaves no such event. -/
def endFrame (s : State) : State := emit (.tx (s.txShift.extractLsb' 1 8)) (driveKbData .release s)

/-- One whole frame with parity bit p and data byte d (R59, R113). -/
def sendFrame (p : Bool) (d : Byte) (s : State) : State := endFrame (repeatOp txBit 11 (startFrame p d s))

/-- TX_BYTE(b): one frame, then the settle delay (R112, R113, R114). -/
def txByte (b : Byte) (s : State) : State := delay Config.tSettle (sendFrame (parity b) b s)

/-- tail <- (tail + 1) mod 64, after the byte is consumed (R41, R116). -/
def consumeByte (s : State) : State := { s with tail := s.tail + 1 }

/-- lastSend <- now, the second read of the time input (R115). -/
def stampSend (s : State) : State :=
  let s := readNow s
  { s with lastSend := s.now }

/-- DRAIN after IDLE_WAIT has returned: send the byte at `tail`, consume it, take the timestamp (R109). -/
def sendOldest (s : State) : Host.Outcome State Fault Refusal :=
  match qramRead s s.tail with
  | none => .fault (.qramUnwritten s.tail.toNat)
  | some b => .next (goto .sample (stampSend (consumeByte (txByte b s))))

/-- DRAIN from IDLE_WAIT on: one poll; with a line low the block is held in phase IDLE_WAIT (R111, R164).
DESIGN CHOICE (log 17): as a script word a held DRAIN or CYCLE is done as a word; the block waits in phase IDLE_WAIT, and
a script word behind it runs while it waits. -/
def waitThenSend (s : State) : Host.Outcome State Fault Refusal :=
  let r := pollLines s
  if r.1.1 && r.1.2 then sendOldest r.2 else .next (goto .idleWait r.2)

/-- DRAIN: the gate test on the first read of the time input, then at most one byte (R109, R110). It answers in phase
SAMPLE when it completes and in phase IDLE_WAIT when it is held. -/
def drain (s : State) : Host.Outcome State Fault Refusal :=
  let s := readNow s
  if gateOpen s then waitThenSend s else .next (goto .sample s)

/-- DRAIN (R109). -/
def execDrain (s : State) : Host.Outcome State Fault Refusal := drain s

/-- IDLE_WAIT: one poll. With both lines high it returns (in phase IDLE_WAIT, to phase TX, R20). Otherwise the block is
held (R111, R164). DESIGN CHOICE (log 17): outside phase IDLE_WAIT the held word stays the next one; in phase IDLE_WAIT
the phase itself holds, the word is done, and a script word behind it runs while the block waits. -/
def execIdleWait (s : State) : Host.Outcome State Fault Refusal :=
  let r := pollLines s
  if r.1.1 && r.1.2 then .next (if s.phase = .idleWait then goto .tx r.2 else r.2)
  else .next (if s.phase = .idleWait then r.2 else { r.2 with script := encode .idleWait :: r.2.script })

/-- TX_BYTE b (R112, R113). -/
def execTxByte (b : Byte) (s : State) : Host.Outcome State Fault Refusal := .next (txByte b s)

end Sys2Proof.Machine
end

