-- ==== Sys2Proof/Machine/Controller.lean ====
section
/-! DEFINITION. The Controller State Machine: CFG_ENTER, CFG_EXIT, CFG_SWAP_A, CFG_SWAP_B, CFG_LAYOUT, EDGE_SCAN,
STORE_PREV, DEBOUNCE and CYCLE (R125 to R143). -/

namespace Sys2Proof.Machine

/-- CFG_ENTER: everything marked is released under the active profile (R128). -/
def cfgEnter (s : State) : State :=
  let s := releaseAll s.profile s
  { s with cfg := true }

/-- CFG_EXIT (R129). -/
def cfgExit (s : State) : State := { s with cfg := false }

/-- Step 3 of a cycle: the Select edge, `cfg` being the previous value (R16, R128, R129). -/
def selectEdge (s : State) : State :=
  if selectPressed s.curMask && !s.cfg then cfgEnter s
  else if !selectPressed s.curMask && s.cfg then cfgExit s
  else s

/-- DEBOUNCE: save the settings, then block for 300 ms (R139). -/
def debounce (s : State) : State := delay Config.tDebounce (nvSave s)

/-- The register effects of a configuration action, before its DEBOUNCE (R131, R132, R133). -/
def applyAction (a : Action) (s : State) : State :=
  match a with
  | .swapA => { s with swapAB := false }
  | .swapB => { s with swapAB := true }
  | .layout n =>
    let s := releaseAll s.profile s
    { s with profile := n, btn := Vector.replicate 8 false }

/-- The end of a configuration action: steps 5 and 6 are skipped; `prevMask` takes the raw mask only under
CFG_ACTION_UPDATES_PREV (R140, D17); the cycle ends. In a cycle `curMask` is R140's m (R24). DESIGN CHOICE (log 32): an
action run as a script word belongs to no cycle and the spec gives it no m; `prevMask` takes `curMask` as it stands, the mask
of the last SAMPLE or, before any, its reset value (log 12). -/
def endAction (s : State) : State :=
  goto .drain (if s.params.cfgActionUpdatesPrev then { s with prevMask := s.curMask } else s)

/-- A whole configuration action (R131, R132, R133, R140). -/
def runAction (a : Action) (s : State) : State := endAction (debounce (applyAction a s))

/-- One turn of EDGE_SCAN's loop: logical button i of mask m against btn[i] (R136, R137). -/
def scanButton (m : Mask) (s : State) (i : Button) : State :=
  let e := lookupEntry s.params.lrom s.profile i
  if logical s.swapAB m i && !s.btn[i.val] then setBtn i true (encPress e s)
  else if !logical s.swapAB m i && s.btn[i.val] then setBtn i false (encRelease e s)
  else s

/-- EDGE_SCAN(m), ascending button index (R137, D8). -/
def edgeScan (m : Mask) (s : State) : State := buttons.foldl (scanButton m) s

/-- STORE_PREV(m) (R138). -/
def storePrev (m : Mask) (s : State) : State := { s with prevMask := m }

/-- Steps 4 to 6 of a cycle, the mask being `curMask` (R125, R130, R135). -/
def steps4to6 (s : State) : State :=
  let scanned := goto .drain (storePrev s.curMask (edgeScan s.curMask s))
  if s.cfg then
    match configAction s.curMask s.prevMask with
    | some a => runAction a s
    | none => scanned
  else scanned

/-- Steps 2 to 6 of a cycle (R125). -/
def afterDrain (s : State) : State := steps4to6 (selectEdge (sample s))

/-- A cycle whose DRAIN answered: held in IDLE_WAIT it does not complete, else steps 2 to 6 follow (R125, R164). -/
def completeCycle (o : Host.Outcome State Fault Refusal) : Host.Outcome State Fault Refusal :=
  match o with
  | .next s => .next (if s.phase = .idleWait then s else afterDrain s)
  | .fault r => .fault r
  | .refused r => .refused r

/-- CYCLE: steps 1 to 6 (R125). A cycle that is held in IDLE_WAIT goes on from there (R164); before the first cycle of a
session RESET_LOAD completes (R20, R180); see log 18. -/
def cycle (s : State) : Host.Outcome State Fault Refusal :=
  match s.phase with
  | .idleWait => completeCycle (waitThenSend s)
  | .resetLoad => completeCycle (drain (nvLoad s))
  | .drain | .tx | .settle | .sample | .selectEdge | .config | .debounce | .normal | .store => completeCycle (drain s)

/-- CYCLE (R125). -/
def execCycle (s : State) : Host.Outcome State Fault Refusal := cycle s

/-- CFG_ENTER (R128); the sequencer goes on to CONFIG (R20). -/
def execCfgEnter (s : State) : Host.Outcome State Fault Refusal := .next (goto .config (cfgEnter s))

/-- CFG_EXIT (R129); the sequencer goes on to NORMAL (R20). -/
def execCfgExit (s : State) : Host.Outcome State Fault Refusal := .next (goto .normal (cfgExit s))

/-- CFG_SWAP_A (R131). -/
def execCfgSwapA (s : State) : Host.Outcome State Fault Refusal := .next (runAction .swapA s)

/-- CFG_SWAP_B (R132). -/
def execCfgSwapB (s : State) : Host.Outcome State Fault Refusal := .next (runAction .swapB s)

/-- CFG_LAYOUT n (R133). -/
def execCfgLayout (n : Profile) (s : State) : Host.Outcome State Fault Refusal := .next (runAction (.layout n) s)

/-- EDGE_SCAN m (R137); the sequencer goes on to STORE (R20). -/
def execEdgeScan (m : Mask) (s : State) : Host.Outcome State Fault Refusal := .next (goto .store (edgeScan m s))

/-- STORE_PREV m (R138); the cycle ends (R20). -/
def execStorePrev (m : Mask) (s : State) : Host.Outcome State Fault Refusal := .next (goto .drain (storePrev m s))

/-- DEBOUNCE (R139); the cycle ends (R20). -/
def execDebounce (s : State) : Host.Outcome State Fault Refusal := .next (goto .drain (debounce s))

end Sys2Proof.Machine
end

