-- ==== Sys2Proof/Machine/Reset.lean ====
section
/-! DEFINITION. RESET (R180, R181). -/

namespace Sys2Proof.Machine

/-- A settings write that RESET interrupts leaves a free byte in the store; a write is in progress in phase DEBOUNCE from its
beginning until the byte is stored (R180, U17; log 22). -/
def interruptWrite (s : State) : State :=
  if s.phase = .debounce && s.engine = .writing then
    nvSet (Config.freeNvByte s.draws) { s with draws := s.draws + 1 }
  else s

/-- The pin drivers to their idle level and the registers to the constants of R181; `profile` and `swapAB` wait for
NV_LOAD; what R181 leaves unspecified holds no value (QRAM, log 28) or 0 (scratch registers, log 12). DESIGN CHOICE (log
30): the model's own `busEntry`, script, draws, input lists and trace are no session state of the block and stay. -/
def resetConstants (s : State) : State :=
  emit .reset
    { s with
      prevMask := 0xFF, btn := Vector.replicate 8 false, cfg := false, head := 0, tail := 0, lastSend := 0,
      qram := [], curMask := 0, sampCnt := 0, txShift := 0, txCnt := 0,
      padLatch := false, padClk := false, kbClk := .release, kbData := .release, now := 0 }

/-- RESET asserted at the reset input: the constants, phase RESET_LOAD; NV_LOAD is the next step. The input is a pulse
(R180; log 8). -/
def assertReset (s : State) : State :=
  goto .resetLoad (resetConstants (interruptWrite { s with resetPin := false }))

/-- RESET as one operation: the constants, then NV_LOAD, then the first cycle can begin; `now` is 0 at its end (R180). -/
def resetNow (s : State) : State :=
  let s := nvLoad (resetConstants (interruptWrite s))
  goto .drain { s with now := 0 }

/-- RESET (R180). -/
def execReset (s : State) : Host.Outcome State Fault Refusal := .next (resetNow s)

end Sys2Proof.Machine
end

