-- ==== Sys2Proof/Machine/Formats.lean ====
section
/-! DEFINITION. The input and storage formats as instructions: a mask byte is the script line CYC, a settings byte the
script line RESET (R64); an entry, a frame and a controller stream are the data of the operations that use them (log 13
to 16). -/

namespace Sys2Proof.Machine

/-- The script line `CYC mask=m`: one cycle in which the controller answers m (R64, R50). -/
def runMask (m : Mask) (s : State) : Host.Outcome State Fault Refusal := cycle { s with padIn := maskLevels m }

/-- A script word that is no row's word. A mask byte that does not press the row's button is still a legal sample, FF among
them: "every one of the 256 values is legal" (R50, R61 a), and it is the script line CYC of that mask (R64; log 13). Any
other has no effect in the spec and is refused by name. -/
def runNoRow (e : DecodeError) (s : State) : Host.Outcome State Fault Refusal :=
  match e with
  | .notPressed m => runMask m s
  | .empty | .truncated | .badPause | .neverSent | .trailing | .unknownOperation | .operandRange | .length | .badFrame
  | .badParity => .refused (.badWord e)

/-- MASK.A m (R50, R64). -/
def execMaskA (m : Mask) (s : State) : Host.Outcome State Fault Refusal := runMask m s

/-- MASK.B m (R50, R64). -/
def execMaskB (m : Mask) (s : State) : Host.Outcome State Fault Refusal := runMask m s

/-- MASK.SELECT m (R50, R64). -/
def execMaskSelect (m : Mask) (s : State) : Host.Outcome State Fault Refusal := runMask m s

/-- MASK.START m (R50, R64). -/
def execMaskStart (m : Mask) (s : State) : Host.Outcome State Fault Refusal := runMask m s

/-- MASK.UP m (R50, R64). -/
def execMaskUp (m : Mask) (s : State) : Host.Outcome State Fault Refusal := runMask m s

/-- MASK.DOWN m (R50, R64). -/
def execMaskDown (m : Mask) (s : State) : Host.Outcome State Fault Refusal := runMask m s

/-- MASK.LEFT m (R50, R64). -/
def execMaskLeft (m : Mask) (s : State) : Host.Outcome State Fault Refusal := runMask m s

/-- MASK.RIGHT m (R50, R64). -/
def execMaskRight (m : Mask) (s : State) : Host.Outcome State Fault Refusal := runMask m s

/-- SETTINGS v, the script line `RESET nv=v`: RESET with the store holding v (R64, R52, R151). -/
def execSettings (v : Byte) (s : State) : Host.Outcome State Fault Refusal :=
  .next (resetNow (nvSet v { s with engine := .off }))

/-- ENTRY e: the entry stands where LAYOUT_LOOKUP hands its result (R54; log 15). -/
def execEntry (e : Entry) (s : State) : Host.Outcome State Fault Refusal := .next { s with busEntry := e }

/-- FRAME p d: these eleven bits go out on the keyboard lines (R59, R113; log 16). -/
def execFrame (p : Bool) (d : Byte) (s : State) : Host.Outcome State Fault Refusal := .next (sendFrame p d s)

/-- PADSTREAM r: SAMPLE with the controller answering these eight levels, bit k at the k-th read (R66, R70). -/
def execPadstream (r : Mask) (s : State) : Host.Outcome State Fault Refusal :=
  .next (goto .selectEdge (sample { s with padIn := maskLevels r ++ s.padIn }))

end Sys2Proof.Machine
end

