-- ==== Sys2Proof/Machine/Sequences.lean ====
section
/-! DEFINITION. The wire sequences of the opcode table (R56, R63): each row is the encoder call that gives its bytes, on
the entry the row names. -/

namespace Sys2Proof.Machine

/-- MAKE.M: ENC_PRESS of the key's entry (R95). -/
def execMakeM (s : State) : Host.Outcome State Fault Refusal := .next (encPress (Key.entry .m) s)

/-- BREAK.M: ENC_RELEASE of the key's entry (R96). -/
def execBreakM (s : State) : Host.Outcome State Fault Refusal := .next (encRelease (Key.entry .m) s)

/-- MAKE.Q: ENC_PRESS of the key's entry (R95). -/
def execMakeQ (s : State) : Host.Outcome State Fault Refusal := .next (encPress (Key.entry .q) s)

/-- BREAK.Q: ENC_RELEASE of the key's entry (R96). -/
def execBreakQ (s : State) : Host.Outcome State Fault Refusal := .next (encRelease (Key.entry .q) s)

/-- MAKE.A: ENC_PRESS of the key's entry (R95). -/
def execMakeA (s : State) : Host.Outcome State Fault Refusal := .next (encPress (Key.entry .a) s)

/-- BREAK.A: ENC_RELEASE of the key's entry (R96). -/
def execBreakA (s : State) : Host.Outcome State Fault Refusal := .next (encRelease (Key.entry .a) s)

/-- MAKE.O: ENC_PRESS of the key's entry (R95). -/
def execMakeO (s : State) : Host.Outcome State Fault Refusal := .next (encPress (Key.entry .o) s)

/-- BREAK.O: ENC_RELEASE of the key's entry (R96). -/
def execBreakO (s : State) : Host.Outcome State Fault Refusal := .next (encRelease (Key.entry .o) s)

/-- MAKE.P: ENC_PRESS of the key's entry (R95). -/
def execMakeP (s : State) : Host.Outcome State Fault Refusal := .next (encPress (Key.entry .p) s)

/-- BREAK.P: ENC_RELEASE of the key's entry (R96). -/
def execBreakP (s : State) : Host.Outcome State Fault Refusal := .next (encRelease (Key.entry .p) s)

/-- MAKE.0: ENC_PRESS of the key's entry (R95). -/
def execMake0 (s : State) : Host.Outcome State Fault Refusal := .next (encPress (Key.entry .d0) s)

/-- BREAK.0: ENC_RELEASE of the key's entry (R96). -/
def execBreak0 (s : State) : Host.Outcome State Fault Refusal := .next (encRelease (Key.entry .d0) s)

/-- MAKE.1: ENC_PRESS of the key's entry (R95). -/
def execMake1 (s : State) : Host.Outcome State Fault Refusal := .next (encPress (Key.entry .d1) s)

/-- BREAK.1: ENC_RELEASE of the key's entry (R96). -/
def execBreak1 (s : State) : Host.Outcome State Fault Refusal := .next (encRelease (Key.entry .d1) s)

/-- MAKE.2: ENC_PRESS of the key's entry (R95). -/
def execMake2 (s : State) : Host.Outcome State Fault Refusal := .next (encPress (Key.entry .d2) s)

/-- BREAK.2: ENC_RELEASE of the key's entry (R96). -/
def execBreak2 (s : State) : Host.Outcome State Fault Refusal := .next (encRelease (Key.entry .d2) s)

/-- MAKE.3: ENC_PRESS of the key's entry (R95). -/
def execMake3 (s : State) : Host.Outcome State Fault Refusal := .next (encPress (Key.entry .d3) s)

/-- BREAK.3: ENC_RELEASE of the key's entry (R96). -/
def execBreak3 (s : State) : Host.Outcome State Fault Refusal := .next (encRelease (Key.entry .d3) s)

/-- MAKE.4: ENC_PRESS of the key's entry (R95). -/
def execMake4 (s : State) : Host.Outcome State Fault Refusal := .next (encPress (Key.entry .d4) s)

/-- BREAK.4: ENC_RELEASE of the key's entry (R96). -/
def execBreak4 (s : State) : Host.Outcome State Fault Refusal := .next (encRelease (Key.entry .d4) s)

/-- MAKE.5: ENC_PRESS of the key's entry (R95). -/
def execMake5 (s : State) : Host.Outcome State Fault Refusal := .next (encPress (Key.entry .d5) s)

/-- BREAK.5: ENC_RELEASE of the key's entry (R96). -/
def execBreak5 (s : State) : Host.Outcome State Fault Refusal := .next (encRelease (Key.entry .d5) s)

/-- MAKE.6: ENC_PRESS of the key's entry (R95). -/
def execMake6 (s : State) : Host.Outcome State Fault Refusal := .next (encPress (Key.entry .d6) s)

/-- BREAK.6: ENC_RELEASE of the key's entry (R96). -/
def execBreak6 (s : State) : Host.Outcome State Fault Refusal := .next (encRelease (Key.entry .d6) s)

/-- MAKE.7: ENC_PRESS of the key's entry (R95). -/
def execMake7 (s : State) : Host.Outcome State Fault Refusal := .next (encPress (Key.entry .d7) s)

/-- BREAK.7: ENC_RELEASE of the key's entry (R96). -/
def execBreak7 (s : State) : Host.Outcome State Fault Refusal := .next (encRelease (Key.entry .d7) s)

/-- MAKE.8: ENC_PRESS of the key's entry (R95). -/
def execMake8 (s : State) : Host.Outcome State Fault Refusal := .next (encPress (Key.entry .d8) s)

/-- BREAK.8: ENC_RELEASE of the key's entry (R96). -/
def execBreak8 (s : State) : Host.Outcome State Fault Refusal := .next (encRelease (Key.entry .d8) s)

/-- MAKE.9: ENC_PRESS of the key's entry (R95). -/
def execMake9 (s : State) : Host.Outcome State Fault Refusal := .next (encPress (Key.entry .d9) s)

/-- BREAK.9: ENC_RELEASE of the key's entry (R96). -/
def execBreak9 (s : State) : Host.Outcome State Fault Refusal := .next (encRelease (Key.entry .d9) s)

/-- MAKE.ESC: ENC_PRESS of the key's entry (R95). -/
def execMakeEsc (s : State) : Host.Outcome State Fault Refusal := .next (encPress (Key.entry .esc) s)

/-- BREAK.ESC: ENC_RELEASE of the key's entry (R96). -/
def execBreakEsc (s : State) : Host.Outcome State Fault Refusal := .next (encRelease (Key.entry .esc) s)

/-- MAKE.F1: ENC_PRESS of the key's entry (R95). -/
def execMakeF1 (s : State) : Host.Outcome State Fault Refusal := .next (encPress (Key.entry .f1) s)

/-- BREAK.F1: ENC_RELEASE of the key's entry (R96). -/
def execBreakF1 (s : State) : Host.Outcome State Fault Refusal := .next (encRelease (Key.entry .f1) s)

/-- MAKE.ENTER: ENC_PRESS of the key's entry (R95). -/
def execMakeEnter (s : State) : Host.Outcome State Fault Refusal := .next (encPress (Key.entry .enter) s)

/-- BREAK.ENTER: ENC_RELEASE of the key's entry (R96). -/
def execBreakEnter (s : State) : Host.Outcome State Fault Refusal := .next (encRelease (Key.entry .enter) s)

/-- MAKE.UPARROW: ENC_PRESS of the key's entry (R95). -/
def execMakeUpArrow (s : State) : Host.Outcome State Fault Refusal := .next (encPress (Key.entry .up) s)

/-- BREAK.UPARROW: ENC_RELEASE of the key's entry (R96). -/
def execBreakUpArrow (s : State) : Host.Outcome State Fault Refusal := .next (encRelease (Key.entry .up) s)

/-- MAKE.DOWNARROW: ENC_PRESS of the key's entry (R95). -/
def execMakeDownArrow (s : State) : Host.Outcome State Fault Refusal := .next (encPress (Key.entry .down) s)

/-- BREAK.DOWNARROW: ENC_RELEASE of the key's entry (R96). -/
def execBreakDownArrow (s : State) : Host.Outcome State Fault Refusal := .next (encRelease (Key.entry .down) s)

/-- MAKE.LEFTARROW: ENC_PRESS of the key's entry (R95). -/
def execMakeLeftArrow (s : State) : Host.Outcome State Fault Refusal := .next (encPress (Key.entry .left) s)

/-- BREAK.LEFTARROW: ENC_RELEASE of the key's entry (R96). -/
def execBreakLeftArrow (s : State) : Host.Outcome State Fault Refusal := .next (encRelease (Key.entry .left) s)

/-- MAKE.RIGHTARROW: ENC_PRESS of the key's entry (R95). -/
def execMakeRightArrow (s : State) : Host.Outcome State Fault Refusal := .next (encPress (Key.entry .right) s)

/-- BREAK.RIGHTARROW: ENC_RELEASE of the key's entry (R96). -/
def execBreakRightArrow (s : State) : Host.Outcome State Fault Refusal := .next (encRelease (Key.entry .right) s)

/-- PAUSE.MAKE: ENC_PRESS of a PAUSE entry, all eight bytes or none (R93). -/
def execPauseMake (s : State) : Host.Outcome State Fault Refusal := .next (encPress pauseEntry s)

/-- PAUSE.BREAK: ENC_RELEASE of a PAUSE entry, no byte (R94). -/
def execPauseBreak (s : State) : Host.Outcome State Fault Refusal := .next (encRelease pauseEntry s)

/-- DISABLED.MAKE: ENC_PRESS of a DISABLED entry, no byte (R92). -/
def execDisabledMake (s : State) : Host.Outcome State Fault Refusal := .next (encPress disabledEntry s)

/-- DISABLED.BREAK: ENC_RELEASE of a DISABLED entry, no byte (R92). -/
def execDisabledBreak (s : State) : Host.Outcome State Fault Refusal := .next (encRelease disabledEntry s)

/-- MAKE1.generic c: ENC_PRESS of the entry of code c and ext 0 (R90, R95; a sentinel code has its class's effect, log
23). -/
def execMake1Generic (c : Byte) (s : State) : Host.Outcome State Fault Refusal := .next (encPress ⟨false, c⟩ s)

/-- BREAK2.generic c: ENC_RELEASE of the entry of code c and ext 0 (R91, R96; log 23). -/
def execBreak2Generic (c : Byte) (s : State) : Host.Outcome State Fault Refusal := .next (encRelease ⟨false, c⟩ s)

/-- XMAKE2.generic c: ENC_PRESS of the entry of code c and ext 1 (R90, R95; log 23). -/
def execXmake2Generic (c : Byte) (s : State) : Host.Outcome State Fault Refusal := .next (encPress ⟨true, c⟩ s)

/-- XBREAK3.generic c: ENC_RELEASE of the entry of code c and ext 1 (R91, R96; log 23). -/
def execXbreak3Generic (c : Byte) (s : State) : Host.Outcome State Fault Refusal := .next (encRelease ⟨true, c⟩ s)

end Sys2Proof.Machine
end

