-- ==== Sys2Proof/Machine/Dispatch.lean ====
section
/-! DEFINITION. The meaning of every instruction: one arm per constructor of Instr. -/

namespace Sys2Proof.Machine

def exec (i : Instr) (s : State) : Host.Outcome State Fault Refusal :=
  match i with
  | .makeM => Sys2Proof.Machine.execMakeM s
  | .breakM => Sys2Proof.Machine.execBreakM s
  | .makeQ => Sys2Proof.Machine.execMakeQ s
  | .breakQ => Sys2Proof.Machine.execBreakQ s
  | .makeA => Sys2Proof.Machine.execMakeA s
  | .breakA => Sys2Proof.Machine.execBreakA s
  | .makeO => Sys2Proof.Machine.execMakeO s
  | .breakO => Sys2Proof.Machine.execBreakO s
  | .makeP => Sys2Proof.Machine.execMakeP s
  | .breakP => Sys2Proof.Machine.execBreakP s
  | .make0 => Sys2Proof.Machine.execMake0 s
  | .break0 => Sys2Proof.Machine.execBreak0 s
  | .make1 => Sys2Proof.Machine.execMake1 s
  | .break1 => Sys2Proof.Machine.execBreak1 s
  | .make2 => Sys2Proof.Machine.execMake2 s
  | .break2 => Sys2Proof.Machine.execBreak2 s
  | .make3 => Sys2Proof.Machine.execMake3 s
  | .break3 => Sys2Proof.Machine.execBreak3 s
  | .make4 => Sys2Proof.Machine.execMake4 s
  | .break4 => Sys2Proof.Machine.execBreak4 s
  | .make5 => Sys2Proof.Machine.execMake5 s
  | .break5 => Sys2Proof.Machine.execBreak5 s
  | .make6 => Sys2Proof.Machine.execMake6 s
  | .break6 => Sys2Proof.Machine.execBreak6 s
  | .make7 => Sys2Proof.Machine.execMake7 s
  | .break7 => Sys2Proof.Machine.execBreak7 s
  | .make8 => Sys2Proof.Machine.execMake8 s
  | .break8 => Sys2Proof.Machine.execBreak8 s
  | .make9 => Sys2Proof.Machine.execMake9 s
  | .break9 => Sys2Proof.Machine.execBreak9 s
  | .makeEsc => Sys2Proof.Machine.execMakeEsc s
  | .breakEsc => Sys2Proof.Machine.execBreakEsc s
  | .makeF1 => Sys2Proof.Machine.execMakeF1 s
  | .breakF1 => Sys2Proof.Machine.execBreakF1 s
  | .makeEnter => Sys2Proof.Machine.execMakeEnter s
  | .breakEnter => Sys2Proof.Machine.execBreakEnter s
  | .makeUpArrow => Sys2Proof.Machine.execMakeUpArrow s
  | .breakUpArrow => Sys2Proof.Machine.execBreakUpArrow s
  | .makeDownArrow => Sys2Proof.Machine.execMakeDownArrow s
  | .breakDownArrow => Sys2Proof.Machine.execBreakDownArrow s
  | .makeLeftArrow => Sys2Proof.Machine.execMakeLeftArrow s
  | .breakLeftArrow => Sys2Proof.Machine.execBreakLeftArrow s
  | .makeRightArrow => Sys2Proof.Machine.execMakeRightArrow s
  | .breakRightArrow => Sys2Proof.Machine.execBreakRightArrow s
  | .pauseMake => Sys2Proof.Machine.execPauseMake s
  | .pauseBreak => Sys2Proof.Machine.execPauseBreak s
  | .disabledMake => Sys2Proof.Machine.execDisabledMake s
  | .disabledBreak => Sys2Proof.Machine.execDisabledBreak s
  | .make1Generic c => Sys2Proof.Machine.execMake1Generic c s
  | .break2Generic c => Sys2Proof.Machine.execBreak2Generic c s
  | .xmake2Generic c => Sys2Proof.Machine.execXmake2Generic c s
  | .xbreak3Generic c => Sys2Proof.Machine.execXbreak3Generic c s
  | .sample => Sys2Proof.Machine.execSample s
  | .layoutLookup p b => Sys2Proof.Machine.execLayoutLookup p b s
  | .encPress e => Sys2Proof.Machine.execEncPress e s
  | .encRelease e => Sys2Proof.Machine.execEncRelease e s
  | .releaseAll p => Sys2Proof.Machine.execReleaseAll p s
  | .enqueue b => Sys2Proof.Machine.execEnqueue b s
  | .enqueuePause => Sys2Proof.Machine.execEnqueuePause s
  | .drain => Sys2Proof.Machine.execDrain s
  | .idleWait => Sys2Proof.Machine.execIdleWait s
  | .txByte b => Sys2Proof.Machine.execTxByte b s
  | .cycle => Sys2Proof.Machine.execCycle s
  | .cfgEnter => Sys2Proof.Machine.execCfgEnter s
  | .cfgExit => Sys2Proof.Machine.execCfgExit s
  | .cfgSwapA => Sys2Proof.Machine.execCfgSwapA s
  | .cfgSwapB => Sys2Proof.Machine.execCfgSwapB s
  | .cfgLayout n => Sys2Proof.Machine.execCfgLayout n s
  | .edgeScan m => Sys2Proof.Machine.execEdgeScan m s
  | .storePrev m => Sys2Proof.Machine.execStorePrev m s
  | .debounce => Sys2Proof.Machine.execDebounce s
  | .nvLoad => Sys2Proof.Machine.execNvLoad s
  | .nvSave => Sys2Proof.Machine.execNvSave s
  | .reset => Sys2Proof.Machine.execReset s
  | .maskA m => Sys2Proof.Machine.execMaskA m s
  | .maskB m => Sys2Proof.Machine.execMaskB m s
  | .maskSelect m => Sys2Proof.Machine.execMaskSelect m s
  | .maskStart m => Sys2Proof.Machine.execMaskStart m s
  | .maskUp m => Sys2Proof.Machine.execMaskUp m s
  | .maskDown m => Sys2Proof.Machine.execMaskDown m s
  | .maskLeft m => Sys2Proof.Machine.execMaskLeft m s
  | .maskRight m => Sys2Proof.Machine.execMaskRight m s
  | .settings v => Sys2Proof.Machine.execSettings v s
  | .entry e => Sys2Proof.Machine.execEntry e s
  | .frame p d => Sys2Proof.Machine.execFrame p d s
  | .padstream r => Sys2Proof.Machine.execPadstream r s

end Sys2Proof.Machine
end

