-- ==== Sys2Proof/Machine/Sequencer.lean ====
section
/-! DEFINITION. The sequencer (R20): what one step does in each phase when no reset and no script word comes first. The
two serial engines run one pin change a step and the settings write has a beginning and an end, so that RESET can fall
between any two of them; `engine` is the position inside the phase (log 5). -/

namespace Sys2Proof.Machine

/-- Phase DRAIN: the gate test on the first read of the time input (R20, R110). -/
def stepDrain (s : State) : State :=
  let s := readNow s
  if gateOpen s then goto .idleWait s else goto .sample s

/-- Phase TX: first the byte at `tail` is read and its frame loaded; then for each bit the data line, the clock low, the
clock released; after the eleventh bit the frame ends (R20, R109, R113). -/
def stepTx (s : State) : Host.Outcome State Fault Refusal :=
  match s.engine with
  | .ready => .next { putBit s with engine := .dataOut }
  | .dataOut => .next { lowerKbClk s with engine := .clkLow }
  | .clkLow =>
    let s := endBit s
    .next (if s.txCnt = 11 then goto .settle (endFrame s) else { s with engine := .ready })
  | .off | .latchHigh | .clkHigh | .writing | .saved =>
    match qramRead s s.tail with
    | none => .fault (.qramUnwritten s.tail.toNat)
    | some b => .next { startFrame (parity b) b s with engine := .ready }

/-- Phase SETTLE: the settle delay, then `tail` and `lastSend` (R20, R114, R115, R116). -/
def stepSettle (s : State) : State := goto .sample (stampSend (consumeByte (delay Config.tSettle s)))

/-- Phase SAMPLE: first the latch pulse; then for each bit the read with the clock high, the clock low, the low half-phase
(R20, R70, R71). -/
def stepSample (s : State) : State :=
  match s.engine with
  | .latchHigh => { lowerLatch s with engine := .ready }
  | .ready => { readBit s with engine := .clkHigh }
  | .clkHigh => { lowerPadClk s with engine := .clkLow }
  | .clkLow =>
    let s := endRead s
    if s.sampCnt = 8 then goto .selectEdge s else { s with engine := .ready }
  | .off | .dataOut | .writing | .saved => { raiseLatch s with engine := .latchHigh }

/-- Phase SELECT_EDGE: CFG_ENTER, CFG_EXIT or nothing, then CONFIG or NORMAL by `cfg` (R20, R128, R129). -/
def stepSelectEdge (s : State) : State :=
  let s := selectEdge s
  goto (if s.cfg then .config else .normal) s

/-- Phase CONFIG: the configuration dispatch; an action's register effects, then DEBOUNCE (R20, R130). -/
def stepConfig (s : State) : State :=
  match configAction s.curMask s.prevMask with
  | some a => goto .debounce (applyAction a s)
  | none => goto .normal s

/-- Phase DEBOUNCE: the settings write begins; it completes; the delay passes and the cycle ends (R20, R139, R140; log
22). -/
def stepDebounce (s : State) : State :=
  match s.engine with
  | .writing => { nvSave s with engine := .saved }
  | .saved => endAction (delay Config.tDebounce s)
  | .off | .latchHigh | .ready | .clkHigh | .dataOut | .clkLow => { s with engine := .writing }

/-- One step of the sequencer (R20). -/
def sequencerStep (s : State) : Host.Outcome State Fault Refusal :=
  match s.phase with
  | .resetLoad => execNvLoad s
  | .drain => .next (stepDrain s)
  | .idleWait => execIdleWait s
  | .tx => stepTx s
  | .settle => .next (stepSettle s)
  | .sample => .next (stepSample s)
  | .selectEdge => .next (stepSelectEdge s)
  | .config => .next (stepConfig s)
  | .debounce => .next (stepDebounce s)
  | .normal => execEdgeScan s.curMask s
  | .store => execStorePrev s.curMask s

end Sys2Proof.Machine
end

