-- ==== Sys2Proof/Machine/Step.lean ====
section
/-! DEFINITION. One step of the machine: RESET if its input is asserted, else the next script word if one is placed, else
the sequencer (log 5, 6, 8). -/

namespace Sys2Proof.Machine

/-- The next script word: the instruction it is runs, on the state from which the word is taken. DESIGN CHOICE (log 33): the
word runs in whatever phase the block is in; one placed in phase RESET_LOAD runs before NV_LOAD, and one that leaves that
phase leaves the session without NV_LOAD (only CYCLE and the mask rows load first, log 18). DESIGN CHOICE (log 34): it also
runs where the phase is in the middle of a sample, a frame or a settings write; a word that leaves the phase drops what was
in progress and leaves the pins as they are driven. -/
def runWord (w : CodeWord) (rest : List CodeWord) (s : State) : Host.Outcome State Fault Refusal :=
  match decode w with
  | .ok i => exec i { s with script := rest }
  | .error e => runNoRow e { s with script := rest }

/-- One step. -/
def step (s : State) : Host.Outcome State Fault Refusal :=
  if s.resetPin then .next (assertReset s)
  else
    match s.script with
    | w :: rest => runWord w rest s
    | [] => sequencerStep s

/-- s with the table word w placed as the next script word, the reset input released (log 6). -/
def State.withFetchWord (s : State) (nbits w : Nat) : State :=
  { s with script := tableWord nbits w :: s.script, resetPin := false }

end Sys2Proof.Machine
end

