-- ==== Sys2Proof/Safety.lean ====
section
/-! DEFINITION. The terms claims are stated in: the resident bytes, what an event appends to the queue, the bytes sent,
and the invariants of a safe run. -/

namespace Sys2Proof.Machine

/-! ### The queue -/

/-- The resident slots' bytes, oldest first (R105); none for a slot that nothing has written. -/
def resident (s : State) : List (Option Byte) :=
  (List.range (count s)).map fun k => qramRead s (s.tail + BitVec.ofNat 6 k)

/-- Nothing but the queue's producer side and the trace differs. -/
def QueueOnly (s t : State) : Prop := t = { s with qram := t.qram, head := t.head, trace := t.trace }

/-- From s to t exactly the bytes `bs` were stored, at `head` onwards, and the bytes `lost` were dropped after them, each
with its note; every other slot and every other part of the state is as before. -/
structure Stored (bs lost : List Byte) (s t : State) : Prop where
  head_eq : t.head = s.head + BitVec.ofNat 6 bs.length
  slots : ∀ k (h : k < bs.length), qramRead t (s.head + BitVec.ofNat 6 k) = some bs[k]
  others : ∀ a : Index, bs.length ≤ (a - s.head).toNat → qramRead t a = qramRead s a
  notes : t.trace = (lost.map fun b => Event.note (.queueOverflow b)).reverse ++ s.trace
  frame : QueueOnly s t

/-- The bytes `bs` were enqueued one at a time: as many as there are free slots were stored, the rest dropped (R98,
R106). -/
def EnqueuedInOrder (bs : List Byte) (s t : State) : Prop := Stored (bs.take (free s)) (bs.drop (free s)) s t

/-- The Pause sequence was enqueued: all eight bytes, or none and one note (R107). -/
def PauseEnqueued (s t : State) : Prop :=
  (8 ≤ free s ∧ Stored Config.pauseSeq [] s t) ∨ (free s < 8 ∧ t = noteAnomaly (.pauseDropped (free s)) s)

/-- The bytes ENC_RELEASE attempts for an entry (R56). -/
def releaseBytes (e : Entry) : List Byte :=
  match e.cls with
  | .disabled | .pause => []
  | .extended => [Config.prefixExt, Config.prefixBreak, e.code]
  | .normal => [Config.prefixBreak, e.code]

/-- The bytes ENC_PRESS attempts for an entry (R56). -/
def pressBytes (e : Entry) : List Byte :=
  match e.cls with
  | .disabled => []
  | .pause => Config.pauseSeq
  | .extended => [Config.prefixExt, e.code]
  | .normal => [e.code]

/-- The bytes RELEASE_ALL attempts under profile p: the release of every marked button, ascending (R97). -/
def releaseAllBytes (p : Profile) (s : State) : List Byte :=
  (buttons.filter fun i => s.btn[i.val]).flatMap fun i => releaseBytes (lookupEntry s.params.lrom p i)

/-- The encoder calls EDGE_SCAN makes for mask m, ascending: a press for every logical button newly pressed, a release for
every one newly released (R137). -/
def edgeCalls (m : Mask) (s : State) : List Instr :=
  buttons.flatMap fun i =>
    let e := lookupEntry s.params.lrom s.profile i
    if logical s.swapAB m i && !s.btn[i.val] then [.encPress e]
    else if !logical s.swapAB m i && s.btn[i.val] then [.encRelease e]
    else []

/-- The bytes EDGE_SCAN attempts for mask m (R137). -/
def edgeBytes (m : Mask) (s : State) : List Byte :=
  buttons.flatMap fun i =>
    let e := lookupEntry s.params.lrom s.profile i
    if logical s.swapAB m i && !s.btn[i.val] then pressBytes e
    else if !logical s.swapAB m i && s.btn[i.val] then releaseBytes e
    else []

/-- Run instructions one after the other. -/
def runAll : List Instr → State → Host.Outcome State Fault Refusal
  | [], s => .next s
  | i :: is, s =>
    match exec i s with
    | .next t => runAll is t
    | .fault r => .fault r
    | .refused r => .refused r

/-- The state of the eight logical buttons in mask m (R136). -/
def logicalButtons (swap : Bool) (m : Mask) : Vector Bool 8 := Vector.ofFn fun i => logical swap m i

/-- The profile selected after an action, p before it (R131, R132, R133). -/
def actionProfile (a : Action) (p : Profile) : Profile :=
  match a with
  | .swapA | .swapB => p
  | .layout n => n

/-- The swap flag after an action, v before it (R131, R132, R133). -/
def actionSwap (a : Action) (v : Bool) : Bool :=
  match a with
  | .swapA => false
  | .swapB => true
  | .layout _ => v

/-- The marks after an action, v before it (R131, R132, R133). -/
def actionBtn (a : Action) (v : Vector Bool 8) : Vector Bool 8 :=
  match a with
  | .swapA | .swapB => v
  | .layout _ => Vector.replicate 8 false

/-! ### The wire -/

/-- The byte an event transmits, if it transmits one (R112). -/
def sentByte? : Event → Option Byte
  | .tx b => some b
  | .padLatch _ | .padClk _ | .kbClk _ | .kbData _ | .delay _ | .poll _ _ | .nvRead _ | .nvWrite _ | .note _
  | .reset => none

/-- The bytes transmitted so far, oldest first (R112). -/
def sentBytes (s : State) : List Byte := (s.trace.filterMap sentByte?).reverse

/-- The bytes transmitted and then those still to be transmitted, in order. In phase SETTLE the byte at `tail` has been
transmitted and is still resident (R116). -/
def sentThenQueued (s : State) : List (Option Byte) :=
  (sentBytes s).map some ++ (if s.phase = .settle then (resident s).tail else resident s)

/-- The events of one frame bit, oldest first (R113). -/
def bitEvents (half : Time) (bit : Bool) : List Event :=
  [.kbData (if bit then .release else .low), .delay half, .kbClk .low, .delay half, .kbClk .release]

/-- The events of a whole frame f, oldest first: eleven bits, bit 0 first, then the data line released (R59, R113). -/
def frameEvents (half : Time) (f : BitVec 11) : List Event :=
  ([0, 1, 2, 3, 4, 5, 6, 7, 8, 9, 10].flatMap fun k => bitEvents half (f.getLsbD k)) ++
    [.kbData .release, .tx (f.extractLsb' 1 8)]

/-- The events of one SAMPLE, oldest first (R71). -/
def sampleEvents : List Event :=
  [.padLatch true, .delay Config.tLatch, .padLatch false] ++
    buttons.flatMap fun _ =>
      [.padClk true, .delay Config.tPadHalf, .padClk false, .delay Config.tPadHalf]

/-! ### Cycles -/

/-- The marks after the Select edge of a cycle that samples m (R128, R143 d). -/
def entryBtn (m : Mask) (s : State) : Vector Bool 8 :=
  if selectPressed m && !s.cfg then Vector.replicate 8 false else s.btn

/-- The action a cycle that samples m fires, if it fires one (R130). -/
def cycleAction (m : Mask) (s : State) : Option Action :=
  if selectPressed m then configAction m s.prevMask else none

/-- The encoder calls RELEASE_ALL makes under profile p, ascending (R97). -/
def releaseCalls (p : Profile) (s : State) : List Instr :=
  (buttons.filter fun i => s.btn[i.val]).map fun i => .encRelease (lookupEntry s.params.lrom p i)

/-- The encoder calls of a cycle that samples m, in order: at configuration entry the release of everything marked; then
the releases of a layout action, or the edges where no action fires (R125, R128, R133, R137, R140, R142 a and b). -/
def cycleCalls (m : Mask) (s : State) : List Instr :=
  let e : State := { s with btn := entryBtn m s }
  (if selectPressed m && !s.cfg then releaseCalls s.profile s else []) ++
    match cycleAction m s with
    | none => edgeCalls m e
    | some .swapA | some .swapB => []
    | some (.layout _) => releaseCalls s.profile e

/-- The bytes a cycle that samples m attempts, in order (R142 a and b, R190). -/
def cycleBytes (m : Mask) (s : State) : List Byte :=
  let e : State := { s with btn := entryBtn m s }
  (if selectPressed m && !s.cfg then releaseAllBytes s.profile s else []) ++
    match cycleAction m s with
    | none => edgeBytes m e
    | some .swapA | some .swapB => []
    | some (.layout _) => releaseAllBytes s.profile e

/-- Everything a completed cycle does that samples `t.curMask`: from s, between cycles or held, to t. -/
structure CycleEnds (s t : State) : Prop where
  /-- the cycle has ended (R20, R125) -/
  phase : t.phase = .drain
  /-- R143 (a) -/
  mode : t.cfg = selectPressed t.curMask
  /-- without an action: R137, R138, R143 (b, c) -/
  scanned : cycleAction t.curMask s = none →
    t.btn = logicalButtons s.swapAB t.curMask ∧ t.prevMask = t.curMask ∧ t.profile = s.profile ∧ t.swapAB = s.swapAB ∧
      t.nv = s.nv
  /-- with an action: R131 to R133, R139, R140, R143 (d) -/
  acted : ∀ a, cycleAction t.curMask s = some a →
    t.btn = actionBtn a (entryBtn t.curMask s) ∧ t.profile = actionProfile a s.profile ∧
      t.swapAB = actionSwap a s.swapAB ∧
      t.nv = Memory.write (some nvErased) s.nv s.params.nvAddr (settingsByte t.swapAB t.profile) ∧
      nvByteAt t t.params.nvAddr = settingsByte t.swapAB t.profile ∧
      t.prevMask = if s.params.cfgActionUpdatesPrev then t.curMask else s.prevMask
  /-- the producer side is exactly what the cycle's encoder calls make, after a byte sent has left its slot -/
  calls : ∃ u, runAll (cycleCalls t.curMask s) { s with tail := t.tail } = .next u ∧ t.qram = u.qram ∧ t.head = u.head
  /-- where there is room, exactly the cycle's bytes are enqueued behind what was resident (R142 a and b, R190) -/
  bytes : (cycleBytes t.curMask s).length ≤ free { s with tail := t.tail } →
    resident t = resident { s with tail := t.tail } ++ (cycleBytes t.curMask s).map some
  /-- at most one byte leaves, and it is one that was resident before the cycle (R109, R126) -/
  sent : (t.tail = s.tail ∧ sentBytes t = sentBytes s) ∨
    (s.head ≠ s.tail ∧ t.tail = s.tail + 1 ∧ ∃ b, qramRead s s.tail = some b ∧ sentBytes t = sentBytes s ++ [b])

/-! ### Invariants -/

/-- The invariant every step keeps, whatever words the script holds: canonical memories, every resident slot written, a
byte pending while one is being sent, a time base that is in range and not behind the last timestamp. -/
structure Inv (s : State) : Prop where
  qram_wf : Memory.wf qramDefault s.qram = true
  qram_slots : ∀ c ∈ s.qram, c.1 < 64
  resident_written : ∀ k < count s, (qramRead s (s.tail + BitVec.ofNat 6 k)).isSome = true
  pending : s.phase = .idleWait ∨ s.phase = .tx ∨ s.phase = .settle → s.head ≠ s.tail
  nv_wf : Memory.wf (some nvErased) s.nv = true
  time_order : s.params.timeW = none → s.lastSend ≤ s.now
  time_width : ∀ w, s.params.timeW = some w → s.now < 2 ^ w ∧ s.lastSend < 2 ^ w

/-- The invariant the sequencer's own steps keep: the pins are driven only inside SAMPLE and inside a frame, each in its
place (R71, R113, R183), the frame being sent is the byte at `tail` (R109) and its bit is stable while the clock is low
(R113), the counters are in range (R24, R25), after the Select edge `cfg` is selectPressed (R143 a), an action phase is in
configuration mode, and after EDGE_SCAN `btn` is the logical mask (R143 c). -/
structure SequencerInv (s : State) : Prop where
  latch_high : s.padLatch = true → s.phase = .sample ∧ s.engine = .latchHigh
  pad_clk_high : s.padClk = true → s.phase = .sample ∧ s.engine = .clkHigh
  kb_clk_low : s.kbClk = .low → s.phase = .tx ∧ s.engine = .clkLow
  kb_data_low : s.kbData = .low → s.phase = .tx ∧ s.engine ≠ .off
  bit_out : s.phase = .tx → s.engine = .dataOut ∨ s.engine = .clkLow →
    s.kbData = if s.txShift.getLsbD s.txCnt.toNat then .release else .low
  frame_position : s.phase = .tx → s.engine ≠ .off →
    s.txCnt.toNat ≤ 10 ∧ ∃ b, qramRead s s.tail = some b ∧ s.txShift = frameBits (parity b) b
  sample_position : s.phase = .sample → s.engine ≠ .off → s.engine ≠ .latchHigh → s.sampCnt.toNat ≤ 7
  engine_of_phase : s.engine = .off ∨
    (s.phase = .sample ∧ s.engine ∈ [.latchHigh, .ready, .clkHigh, .clkLow]) ∨
    (s.phase = .tx ∧ s.engine ∈ [.ready, .dataOut, .clkLow]) ∨
    (s.phase = .debounce ∧ s.engine ∈ [.writing, .saved])
  select_mode : s.phase = .config ∨ s.phase = .debounce ∨ s.phase = .normal ∨ s.phase = .store →
    s.cfg = selectPressed s.curMask
  action_mode : s.phase = .config ∨ s.phase = .debounce → s.cfg = true
  scanned : s.phase = .store → s.btn = logicalButtons s.swapAB s.curMask

end Sys2Proof.Machine
end

