-- ==== Sys2Proof/Certificates/Slice0/Obligations.lean ====
section
/-! DEFINITION. The statements for the provers. Each docstring says which rule or section of spec/ it formalises, and
which log entry it rests on where it states the model's own choice. -/

open Sys2Proof Sys2Proof.Machine

/-! ### Words -/

/-- Words written out from the opcode table decode to their rows (R56, R63; FRAME11 and MASK8 from R59, R50; the two-byte
layout of FRAME11 is log 3). -/
def Obligations.SpecWordsDecodeToTheirRows : Prop :=
  decode ⟨.wire, [0x45]⟩ = .ok .make0 ∧
  decode ⟨.wire, [0xF0, 0x45]⟩ = .ok .break0 ∧
  decode ⟨.wire, [0xE0, 0x75]⟩ = .ok .makeUpArrow ∧
  decode ⟨.wire, [0xE0, 0xF0, 0x75]⟩ = .ok .breakUpArrow ∧
  decode ⟨.wire, [0xE1, 0x14, 0x77, 0xE1, 0xF0, 0x14, 0xF0, 0x77]⟩ = .ok .pauseMake ∧
  decode ⟨.wire, [0x75]⟩ = .ok (.make1Generic 0x75) ∧
  decode ⟨.mask8 0, [0xFE]⟩ = .ok (.maskA 0xFE) ∧
  decode ⟨.settings8, [0x06]⟩ = .ok (.settings 0x06) ∧
  decode ⟨.entry9, [0x01, 0x75]⟩ = .ok (.entry ⟨true, 0x75⟩) ∧
  decode ⟨.frame11, [0x04, 0x8A]⟩ = .ok (.frame false 0x45) ∧
  decodeTableWord 16 0xF045 = some .break0 ∧
  decodeTableWord 24 0xE0F075 = some .breakUpArrow ∧
  decodeTableWord 64 0xE11477E1F014F077 = some .pauseMake

/-- Decoding the word of a well-formed instruction gives the instruction back, every operand included (the formats of
R56, R50, R52, R54, R59, R66; operation words are the model's own, log 2). -/
def Obligations.DecodeOfEncodeIsIdentity : Prop :=
  ∀ i : Instr, i.WellFormed = true → decode (encode i) = .ok i

/-- Every word the decoder accepts is the word of a well-formed instruction: no other spelling, no encoding that falls
through to a neighbour (the formats of R50, R52, R54, R56, R59, R60, R66, and R61, R62). The channel beside the bytes is
log 1; operation words, wide operands refused, are the model's own (log 2); entry and frame words are two bytes (log 3);
only frames with odd parity are accepted (log 16); code bytes of the generic rows are log 23. -/
def Obligations.DecodedWordsAreCanonical : Prop :=
  ∀ (w : CodeWord) (i : Instr), decode w = .ok i → i.WellFormed = true ∧ encode i = w

/-- The stream parse of R62: a stream of whole sequences is read back as exactly those sequences, a code byte that is itself a
prefix excepted (R61 c, R62: the parse is given for codes that are none). -/
def Obligations.StreamParseRecoversSequences : Prop :=
  ∀ is : List Instr,
    (∀ i ∈ is, i.WellFormed = true ∧ (encode i).channel = .wire ∧ prefixCodeWord (encode i).bytes = none) →
    parseStream (is.flatMap fun i => (encode i).bytes) = .ok is

/-! ### The step -/

/-- With the reset input released, the next script word runs: the step is exec of the instruction it decodes to, on the
state from which the word is taken, in every phase; a mask byte that is no row's word runs the cycle of that mask (R50, R64,
log 13); any other word that decodes to none is refused by name. Log 5, 6, 33 and 34 (the model's own interface). -/
def Obligations.StepRunsTheDecodedWord : Prop :=
  ∀ (s : State) (w : CodeWord) (rest : List CodeWord), s.resetPin = false → s.script = w :: rest →
    (∀ i, decode w = .ok i → step s = exec i { s with script := rest }) ∧
    (∀ m, decode w = .error (.notPressed m) →
      step s = exec .cycle { s with script := rest, padIn := maskLevels m }) ∧
    (∀ e, decode w = .error e → (∀ m, e ≠ .notPressed m) → step s = .refused (.badWord e))

/-- A table word placed as the next word runs at the very next step, from every state (log 4 and 6). -/
def Obligations.PlacedTableWordRunsNext : Prop :=
  ∀ (s : State) (nbits w : Nat) (i : Instr), decodeTableWord nbits w = some i →
    step (s.withFetchWord nbits w) = exec i { s with resetPin := false }

/-- The only transfers of the sequencer are those of R20's table, with their conditions; inside SAMPLE, TX and DEBOUNCE it
stays while the engine of the phase is not done (log 5). -/
def Obligations.SequencerTransfersArePhaseTable : Prop :=
  ∀ s t : State, s.resetPin = false → s.script = [] → step s = .next t →
    (s.phase = .resetLoad → t.phase = .drain) ∧
    (s.phase = .drain → t.phase = if gateOpen (readNow s) then .idleWait else .sample) ∧
    (s.phase = .idleWait → t.phase = if (pollLines s).1 = (true, true) then .tx else .idleWait) ∧
    (s.phase = .tx → t.phase = .settle ∧ s.engine = .clkLow ∨ t.phase = .tx ∧ t.engine ≠ .off) ∧
    (s.phase = .settle → t.phase = .sample) ∧
    (s.phase = .sample → t.phase = .selectEdge ∧ s.engine = .clkLow ∨ t.phase = .sample ∧ t.engine ≠ .off) ∧
    (s.phase = .selectEdge → t.phase = if t.cfg then .config else .normal) ∧
    (s.phase = .config → t.phase = if (configAction s.curMask s.prevMask).isSome then .debounce else .normal) ∧
    (s.phase = .debounce → t.phase = .drain ∧ s.engine = .saved ∨ t.phase = .debounce ∧ t.engine ≠ .off) ∧
    (s.phase = .normal → t.phase = .store) ∧
    (s.phase = .store → t.phase = .drain)

/-- The sequencer's steps run CYCLE: from phase DRAIN, with no reset and no script word, at most 68 steps lead to exactly
the state, or the stop, that the whole operation answers (R5, R20, R125). The 68 steps are the model's division of a
cycle (log 5), and a cycle that finds a line low is answered held in phase IDLE_WAIT (log 18). -/
def Obligations.SequencerStepsRunCycle : Prop :=
  ∀ s : State, s.phase = .drain → s.resetPin = false → s.script = [] →
    ∃ n ≤ 68, Host.Core.run Sys2Proof.core n s = exec .cycle s

/-- The reset input, whatever else is going on, leads to phase RESET_LOAD with the constants of R181; it leaves the settings
store unchanged, but for the byte at NV_ADDR where a settings write is in progress (R180, U17; log 22). From there the
sequencer's next step loads the settings and begins the first cycle in phase DRAIN (R180, R20; the pulse is log 8, the
places inside a phase where it falls log 5 and 27). -/
def Obligations.ResetInputRestartsTheBlock : Prop :=
  ∀ s : State, s.resetPin = true →
    ∃ t, step s = .next t ∧ t.phase = .resetLoad ∧ t.engine = .off ∧ t.resetPin = false ∧ t.script = s.script ∧
      t.params = s.params ∧
      t.cfg = false ∧ t.btn = Vector.replicate 8 false ∧ t.prevMask = 0xFF ∧ t.head = 0 ∧ t.tail = 0 ∧ t.lastSend = 0 ∧
      t.now = 0 ∧ t.padLatch = false ∧ t.padClk = false ∧ t.kbClk = .release ∧ t.kbData = .release ∧
      (¬(s.phase = .debounce ∧ s.engine = .writing) → t.nv = s.nv) ∧
      (∀ a, a ≠ s.params.nvAddr → nvByteAt t a = nvByteAt s a) ∧
      (s.script = [] → ∃ u, step t = .next u ∧ u.phase = .drain ∧ u.nv = t.nv ∧ u.now = 0 ∧
        u.profile = settingsProfile (nvByteAt t t.params.nvAddr) ∧
        u.swapAB = settingsSwap (nvByteAt t t.params.nvAddr))

/-! ### The queue -/

/-- R106: on a queue that is not full ENQUEUE stores the byte at `head` and then advances `head` by one modulo 64;
on a full one nothing changes but the note. -/
def Obligations.EnqueueStoresOrDrops : Prop :=
  ∀ (b : Byte) (s : State),
    (s.head + 1 ≠ s.tail → ∃ t, exec (.enqueue b) s = .next t ∧
      t = { s with qram := t.qram, head := s.head + 1 } ∧ qramRead t s.head = some b ∧
      (∀ a, a ≠ s.head → qramRead t a = qramRead s a) ∧ count t = count s + 1 ∧
      resident t = resident s ++ [some b]) ∧
    (s.head + 1 = s.tail → exec (.enqueue b) s = .next { s with trace := .note (.queueOverflow b) :: s.trace })

/-- R107: the Pause sequence is accepted exactly when at most 55 bytes are resident, and then all eight bytes are stored and
`head` advances by 8 modulo 64; otherwise nothing changes but the note. -/
def Obligations.EnqueuePauseIsAllOrNothing : Prop :=
  ∀ s : State,
    (count s ≤ 55 → ∃ t, exec .enqueuePause s = .next t ∧ Stored Config.pauseSeq [] s t ∧
      t.head = s.head + 8 ∧ resident t = resident s ++ Config.pauseSeq.map some) ∧
    (56 ≤ count s → exec .enqueuePause s =
      .next { s with trace := .note (.pauseDropped (63 - count s)) :: s.trace })

/-- The bounds of R105: at most 63 bytes are resident, none exactly when the indices are equal, 63 exactly when the next
index of `head` is `tail`. -/
def Obligations.QueueIndicesGiveTheCount : Prop :=
  ∀ s : State, count s ≤ 63 ∧ (count s = 0 ↔ s.head = s.tail) ∧ (count s = 63 ↔ s.head + 1 = s.tail) ∧
    (queueEmpty s = true ↔ count s = 0) ∧ (queueFull s = true ↔ count s = 63)

/-! ### The encoder -/

/-- ENC_PRESS by the class of the entry (R90, R92, R93, R95, R98): an ordinary entry's bytes are enqueued one at a time, as
many as fit; a PAUSE entry enqueues all eight bytes or none; a DISABLED entry does nothing. -/
def Obligations.EncPressEnqueuesByClass : Prop :=
  ∀ (e : Entry) (s : State),
    (e.cls = .normal ∨ e.cls = .extended →
      ∃ t, exec (.encPress e) s = .next t ∧ EnqueuedInOrder (pressBytes e) s t) ∧
    (e.cls = .pause → ∃ t, exec (.encPress e) s = .next t ∧ PauseEnqueued s t) ∧
    (e.cls = .disabled → exec (.encPress e) s = .next s)

/-- ENC_RELEASE by the class of the entry (R91, R92, R94, R96, R98): an ordinary entry's bytes are enqueued one at a time, as
many as fit; a PAUSE or DISABLED entry does nothing. -/
def Obligations.EncReleaseEnqueuesByClass : Prop :=
  ∀ (e : Entry) (s : State),
    (e.cls = .normal ∨ e.cls = .extended →
      ∃ t, exec (.encRelease e) s = .next t ∧ EnqueuedInOrder (releaseBytes e) s t) ∧
    (e.cls = .pause ∨ e.cls = .disabled → exec (.encRelease e) s = .next s)

/-- Every named sequence and every generic sequence of an ordinary code enqueues exactly the bytes of its own word, in
order, as many as fit (R56, R57, R95, R96, R98). -/
def Obligations.SequenceRowsEnqueueTheirBytes : Prop :=
  ∀ s : State,
    (∀ k : Key, (∃ t, exec (makeOf k) s = .next t ∧ EnqueuedInOrder (encode (makeOf k)).bytes s t) ∧
      ∃ t, exec (breakOf k) s = .next t ∧ EnqueuedInOrder (encode (breakOf k)).bytes s t) ∧
    ∀ c : Byte, c ≠ Config.keyNone → c ≠ Config.keyPause →
      ∀ i ∈ [Instr.make1Generic c, .break2Generic c, .xmake2Generic c, .xbreak3Generic c],
        ∃ t, exec i s = .next t ∧ EnqueuedInOrder (encode i).bytes s t

/-- The Pause and disabled rows (R92, R93, R94): PAUSE.MAKE enqueues all eight bytes or none, the empty sequences change
nothing; a generic row on a sentinel code has the effect of that code's class (log 23). -/
def Obligations.SentinelRowsFollowTheirClass : Prop :=
  ∀ s : State,
    (∀ i ∈ [Instr.pauseMake, .make1Generic Config.keyPause, .xmake2Generic Config.keyPause],
      ∃ t, exec i s = .next t ∧ PauseEnqueued s t) ∧
    ∀ i ∈ [Instr.pauseBreak, .disabledMake, .disabledBreak, .break2Generic Config.keyPause,
        .xbreak3Generic Config.keyPause, .make1Generic Config.keyNone, .break2Generic Config.keyNone,
        .xmake2Generic Config.keyNone, .xbreak3Generic Config.keyNone],
      exec i s = .next s

/-- R97: RELEASE_ALL enqueues the release of every marked button under the given profile, ascending, and afterwards no button
is marked, whether or not the bytes fitted (R186). -/
def Obligations.ReleaseAllReleasesEveryMarkedButton : Prop :=
  ∀ (p : Profile) (s : State), ∃ u, EnqueuedInOrder (releaseAllBytes p s) s u ∧
    exec (.releaseAll p) s = .next { u with btn := Vector.replicate 8 false }

/-- R99 (a): what the encoder stores depends on the entry and the queue alone, not on profile, swapAB, cfg, btn or
time. -/
def Obligations.EncoderDependsOnEntryAndQueueOnly : Prop :=
  ∀ (e : Entry) (s s' : State), s.qram = s'.qram → s.head = s'.head → s.tail = s'.tail →
    ∃ t t' u u', exec (.encPress e) s = .next t ∧ exec (.encPress e) s' = .next t' ∧
      t.qram = t'.qram ∧ t.head = t'.head ∧ t.tail = t'.tail ∧
      exec (.encRelease e) s = .next u ∧ exec (.encRelease e) s' = .next u' ∧
      u.qram = u'.qram ∧ u.head = u'.head ∧ u.tail = u'.tail

/-! ### The layout table -/

/-- R32: the entry of button b in profile p is the LROM entry at address p * 8 + b, which LAYOUT_LOOKUP hands its caller
without writing any state of the block (R80; `busEntry` is the model's own, log 15); ENTRY puts its datum in the same
place (log 15). -/
def Obligations.LayoutLookupReadsAddressProfileButton : Prop :=
  ∀ (p : Profile) (b : BitVec 3) (s : State) (a : Fin 32), a.val = p.toNat * 8 + b.toNat →
    exec (.layoutLookup p b) s = .next { s with busEntry := s.params.lrom[a.val] } ∧
    ∀ e, exec (.entry e) s = .next { s with busEntry := e }

/-- The default ROM holds the table of R81 to R84 (numeric codes: R86), and R85: an entry is extended exactly at addresses
28 to 31. -/
def Obligations.LayoutRomHoldsTheFourProfiles : Prop :=
  (State.reset.params.lrom.toList.map fun e => e.code) =
    [0x3A, 0x15, 0x76, 0xE1, 0x15, 0x1C, 0x44, 0x4D, 0x2E, 0x25, 0x76, 0xE1, 0x25, 0x26, 0x16, 0x1E,
     0x45, 0x46, 0x76, 0xE1, 0x46, 0x3E, 0x36, 0x3D, 0x1E, 0x26, 0x05, 0x5A, 0x75, 0x72, 0x6B, 0x74] ∧
  ∀ a : Fin 32, State.reset.params.lrom[a.val].ext = decide (28 ≤ a.val)

/-! ### The controller -/

/-- R137 and R136: EDGE_SCAN makes exactly the encoder calls of the changed logical buttons, ascending, and afterwards `btn`
is the logical mask; where the queue has room, exactly the bytes of those calls are stored. Phase STORE after it is R20's
transfer, from every phase by log 19; `engine` is log 5's. -/
def Obligations.EdgeScanEncodesEveryChange : Prop :=
  ∀ (m : Mask) (s : State), ∃ u, runAll (edgeCalls m s) s = .next u ∧ QueueOnly s u ∧
    exec (.edgeScan m) s =
      .next { u with btn := logicalButtons s.swapAB m, phase := .store, engine := .off } ∧
    ((edgeBytes m s).length ≤ free s → Stored (edgeBytes m s) [] s u)

/-- R137, "Idempotence": a second EDGE_SCAN with an unchanged mask changes nothing at all. -/
def Obligations.EdgeScanTwiceChangesNothing : Prop :=
  ∀ (m : Mask) (s t : State), exec (.edgeScan m) s = .next t → exec (.edgeScan m) t = .next t

/-- R136 and R99 (b): with the swap flag set a mask has exactly the effect that the mask with bits A and B exchanged has with
the flag clear. -/
def Obligations.SwapExchangesPhysicalAAndB : Prop :=
  ∀ (m m' : Mask) (s : State), m'.getLsbD 0 = m.getLsbD 1 → m'.getLsbD 1 = m.getLsbD 0 →
    (∀ i, 2 ≤ i → m'.getLsbD i = m.getLsbD i) →
    ∃ t : State, exec (.edgeScan m) { s with swapAB := true } = .next { t with swapAB := true } ∧
      exec (.edgeScan m') { s with swapAB := false } = .next { t with swapAB := false }

/-- R92: an entry whose code is KEY_NONE makes ENC_PRESS and ENC_RELEASE do nothing, whatever its flag; its button is tracked
but silent: where every logical button that changes has such an entry, EDGE_SCAN updates `btn` and changes nothing else
(the position after it, `phase` and `engine`, is left open here: EdgeScanEncodesEveryChange states it); no entry of the four
profiles is disabled. -/
def Obligations.DisabledButtonsAreTrackedSilently : Prop :=
  (∀ (x : Bool) (s : State),
    exec (.encPress ⟨x, Config.keyNone⟩) s = .next s ∧ exec (.encRelease ⟨x, Config.keyNone⟩) s = .next s) ∧
  (∀ (m : Mask) (s : State),
    (∀ i : Button, logical s.swapAB m i ≠ s.btn[i.val] →
      (lookupEntry s.params.lrom s.profile i).code = Config.keyNone) →
    ∃ t, exec (.edgeScan m) s = .next t ∧
      t = { s with btn := logicalButtons s.swapAB m, phase := t.phase, engine := t.engine }) ∧
  ∀ e ∈ layoutRom.toList, e.code ≠ Config.keyNone

/-- R94: the special key has no release encoding: ENC_RELEASE of a PAUSE entry changes nothing, whatever its flag; on a
release edge in EDGE_SCAN and in RELEASE_ALL a PAUSE entry enqueues nothing and its mark is cleared; and in profile 0 a
press of Start enqueues the eight-byte literal and its release nothing. The position after EDGE_SCAN is R20's and log 19's,
`engine` log 5's; the last clause takes profile 0 from State.reset (log 11). -/
def Obligations.PauseHasNoRelease : Prop :=
  (∀ (x : Bool) (s : State), exec (.encRelease ⟨x, Config.keyPause⟩) s = .next s) ∧
  (∀ (m : Mask) (s : State),
    (∀ i : Button, logical s.swapAB m i ≠ s.btn[i.val] →
      s.btn[i.val] = true ∧ (lookupEntry s.params.lrom s.profile i).code = Config.keyPause) →
    exec (.edgeScan m) s =
      .next { s with btn := logicalButtons s.swapAB m, phase := .store, engine := .off }) ∧
  (∀ (p : Profile) (s : State),
    (∀ i : Button, s.btn[i.val] = true → (lookupEntry s.params.lrom p i).code = Config.keyPause) →
    exec (.releaseAll p) s = .next { s with btn := Vector.replicate 8 false }) ∧
  ∃ t u, exec (.edgeScan 0xF7) State.reset = .next t ∧ exec (.edgeScan 0xFF) t = .next u ∧
    resident t = [0xE1, 0x14, 0x77, 0xE1, 0xF0, 0x14, 0xF0, 0x77].map some ∧ resident u = resident t

/-- R128: CFG_ENTER releases every marked button under the active profile and sets `cfg`; nothing else of the block changes
but the phase (R20, log 19; `engine`: log 5). -/
def Obligations.CfgEnterReleasesAndSetsMode : Prop :=
  ∀ s : State, ∃ u, EnqueuedInOrder (releaseAllBytes s.profile s) s u ∧
    exec .cfgEnter s =
      .next { u with btn := Vector.replicate 8 false, cfg := true, phase := .config, engine := .off }

/-- R129: CFG_EXIT clears `cfg` and does nothing else (the phase is R20's, log 19; `engine`: log 5). -/
def Obligations.CfgExitOnlyClearsMode : Prop :=
  ∀ s : State, exec .cfgExit s = .next { s with cfg := false, phase := .normal, engine := .off }

/-- R131 and R132 with R139, R140 and R153: CFG_SWAP_A forces the swap flag to 0 and CFG_SWAP_B to 1; the settings byte is
written at NV_ADDR, at least 300 ms pass, `prevMask` takes the raw mask only under CFG_ACTION_UPDATES_PREV, and the cycle
ends (the phase is R20's, log 19; `engine`: log 5). That the raw mask of an action run as a script word is what `curMask` holds is the model's choice (log 32). -/
def Obligations.SwapActionsForceAndSave : Prop :=
  ∀ s : State, ∀ v ∈ [false, true],
    exec (if v then .cfgSwapB else .cfgSwapA) s =
      .next { s with
        swapAB := v
        nv := Memory.write (some nvErased) s.nv s.params.nvAddr (settingsByte v s.profile)
        now := timeAdd s.params.timeW (timeAdd s.params.timeW s.now s.params.tNvWrite) 300000
        prevMask := if s.params.cfgActionUpdatesPrev then s.curMask else s.prevMask
        phase := .drain
        engine := .off
        trace := .delay 300000 :: .delay s.params.tNvWrite :: .nvWrite (settingsByte v s.profile) :: s.trace }

/-- R133 with R139, R140 and R153: CFG_LAYOUT n releases every marked button under the old profile, selects n, clears `btn`,
writes the settings byte of the new profile, blocks at least 300 ms and ends the cycle; `prevMask` takes the raw mask only
under CFG_ACTION_UPDATES_PREV, as a script word what `curMask` holds (log 32, the model's choice). The phase is R20's, log
19; `engine`: log 5. -/
def Obligations.CfgLayoutReleasesUnderOldProfile : Prop :=
  ∀ (n : Profile) (s : State), ∃ u, EnqueuedInOrder (releaseAllBytes s.profile s) s u ∧
    exec (.cfgLayout n) s =
      .next { u with
        profile := n
        btn := Vector.replicate 8 false
        nv := Memory.write (some nvErased) s.nv s.params.nvAddr (settingsByte s.swapAB n)
        now := timeAdd s.params.timeW (timeAdd s.params.timeW s.now s.params.tNvWrite) 300000
        prevMask := if s.params.cfgActionUpdatesPrev then s.curMask else s.prevMask
        phase := .drain
        engine := .off
        trace := .delay 300000 :: .delay s.params.tNvWrite :: .nvWrite (settingsByte s.swapAB n) :: u.trace }

/-- R138, R139 and R153: STORE_PREV writes `prevMask` only; NV_SAVE writes the settings byte only; DEBOUNCE is NV_SAVE and a
delay of at least 300 ms (the phases are R20's, log 19; `engine`: log 5). -/
def Obligations.StoreSaveAndDebounceEffects : Prop :=
  ∀ (m : Mask) (s : State),
    let saved : State := { s with
      nv := Memory.write (some nvErased) s.nv s.params.nvAddr (settingsByte s.swapAB s.profile)
      now := timeAdd s.params.timeW s.now s.params.tNvWrite
      trace := .delay s.params.tNvWrite :: .nvWrite (settingsByte s.swapAB s.profile) :: s.trace }
    exec (.storePrev m) s = .next { s with prevMask := m, phase := .drain, engine := .off } ∧
    exec .nvSave s = .next saved ∧
    exec .debounce s = .next { saved with
      now := timeAdd s.params.timeW saved.now 300000
      phase := .drain
      engine := .off
      trace := .delay 300000 :: saved.trace }

/-- Phase DEBOUNCE (R20, R139, R180, R187): its steps are the beginning of the settings write, the stored byte and the end of the
delay, where the cycle ends as in the whole operation; a reset input in the delay finds the byte already stored (the
division into three steps is log 5). -/
def Obligations.DebounceStoresThenWaits : Prop :=
  ∀ s : State, s.resetPin = false → s.script = [] → s.phase = .debounce → s.engine = .off →
    ∃ t u, step s = .next t ∧ t = { s with engine := .writing } ∧
      step t = .next u ∧ exec .nvSave s = .next { u with engine := .off } ∧ u.engine = .saved ∧
      (∃ d, exec .debounce s = .next d ∧ step u = .next
        { d with prevMask := if s.params.cfgActionUpdatesPrev then s.curMask else s.prevMask }) ∧
      ∃ v, step { u with resetPin := true } = .next v ∧ v.nv = u.nv

/-- The dispatch chain of R130 and R134: A before B before Down, Left, Right, Up, each only when fresh, selecting swap off,
swap on, profile 0, 1, 2, 3. -/
def Obligations.ConfigDispatchPriority : Prop :=
  ∀ m p : Mask,
    (configAction m p = some .swapA ↔ fresh m p 0 = true) ∧
    (configAction m p = some .swapB ↔ fresh m p 0 = false ∧ fresh m p 1 = true) ∧
    (∀ n : Profile, configAction m p = some (.layout n) ↔
      fresh m p 0 = false ∧ fresh m p 1 = false ∧
      ((n = 0 ∧ fresh m p 5 = true) ∨
       (n = 1 ∧ fresh m p 5 = false ∧ fresh m p 6 = true) ∨
       (n = 2 ∧ fresh m p 5 = false ∧ fresh m p 6 = false ∧ fresh m p 7 = true) ∨
       (n = 3 ∧ fresh m p 5 = false ∧ fresh m p 6 = false ∧ fresh m p 7 = false ∧ fresh m p 4 = true)))

/-! ### The sampler -/

/-- R70 and R71: SAMPLE sets bit k of the mask to the k-th level of PAD_DATA, for whatever levels the controller answers, with
one latch pulse and eight clock pulses, in the 108 us of R73 at least, and changes nothing else (the phase is R20's,
log 19; `engine`: log 5; the inputs are log 7). -/
def Obligations.SampleReadsTheEightLevels : Prop :=
  ∀ (s : State) (m : Mask),
    (∀ k : Button, m.getLsbD k.val = (s.padIn[k.val]?).getD (Config.freePadLevel (s.draws + (k.val - s.padIn.length)))) →
    exec .sample s =
      .next { s with
        curMask := m
        sampCnt := 8
        padIn := s.padIn.drop 8
        draws := s.draws + (8 - s.padIn.length)
        padLatch := false
        padClk := false
        now := timeAdd s.params.timeW s.now 108
        phase := .selectEdge
        engine := .off
        trace := sampleEvents.reverse ++ s.trace }

/-- R66: PADSTREAM is SAMPLE with the given eight levels, bit k of the datum at the k-th read (log 16; the phase as for
SAMPLE, log 19, `engine`: log 5). -/
def Obligations.PadstreamIsSampledBitByBit : Prop :=
  ∀ (s : State) (r : Mask),
    exec (.padstream r) s =
      .next { s with
        curMask := r
        sampCnt := 8
        padLatch := false
        padClk := false
        now := timeAdd s.params.timeW s.now 108
        phase := .selectEdge
        engine := .off
        trace := sampleEvents.reverse ++ s.trace }

/-! ### The transmitter -/

/-- R60: the parity bit is the complement of the exclusive-or of the data bits, so that the data and parity bits together
hold an odd number of ones. -/
def Obligations.FrameParityIsOdd : Prop :=
  (∀ b : Byte, parity b = (true ^^ b.getLsbD 0 ^^ b.getLsbD 1 ^^ b.getLsbD 2 ^^ b.getLsbD 3 ^^ b.getLsbD 4 ^^
      b.getLsbD 5 ^^ b.getLsbD 6 ^^ b.getLsbD 7)) ∧
  (∀ b : Byte, (((List.range 8).map fun k => (b.getLsbD k).toNat).sum + (parity b).toNat) % 2 = 1) ∧
  parity 0x45 = false ∧ parity 0xF0 = true ∧ parity 0xE0 = false ∧ parity 0xE1 = true ∧ parity 0x14 = true ∧
  parity 0x77 = true

/-- R59: a frame is start bit 0, the data bits least significant first, the parity bit, stop bit 1; as eleven bits
`{1, P, b, 0}`, bit 0 first. -/
def Obligations.FrameHasElevenBits : Prop :=
  ∀ (p : Bool) (b : Byte),
    (frameBits p b).getLsbD 0 = false ∧ (∀ k : Button, (frameBits p b).getLsbD (k.val + 1) = b.getLsbD k.val) ∧
    (frameBits p b).getLsbD 9 = p ∧ (frameBits p b).getLsbD 10 = true ∧ (frameBits p b).extractLsb' 1 8 = b

/-- R112, R113 and R114: TX_BYTE sends the eleven bits of the byte's frame, each with one low clock pulse, releases both lines,
counts the byte as sent, waits at least the settle delay, and changes nothing else; FRAME sends its bits in the same way
without the settle delay (log 16). That the event tx(b) of R112 stands after the eleventh bit and before the settle delay is
the model's choice (log 24). -/
def Obligations.TxByteSendsOneFrame : Prop :=
  ∀ (s : State) (p : Bool) (b : Byte),
    let sent (p : Bool) : State := { s with
      txShift := frameBits p b
      txCnt := 11
      kbClk := .release
      kbData := .release
      now := timeAdd s.params.timeW s.now (22 * s.params.tKbHalf)
      trace := (frameEvents s.params.tKbHalf (frameBits p b)).reverse ++ s.trace }
    exec (.frame p b) s = .next (sent p) ∧
    exec (.txByte b) s = .next { sent (parity b) with
      now := timeAdd s.params.timeW (sent (parity b)).now 150
      trace := .delay 150 :: (sent (parity b)).trace }

/-- R109 and R110: with the queue empty or less than T_INTERBYTE elapsed, DRAIN reads the time and does nothing else; no line is
looked at (the phase is R20's, log 19; `engine`: log 5). -/
def Obligations.DrainWithClosedGateDoesNothing : Prop :=
  ∀ s : State,
    (s.head = s.tail ∨ timeSub s.params.timeW (readNow s).now s.lastSend < 2500) →
    exec .drain s = .next { readNow s with phase := .sample, engine := .off }

/-- R109, R111, R115 and R116: with the gate open and both lines high DRAIN transmits the byte at `tail`, then advances `tail`
and takes the timestamp from a second read of the time; the rest of the block is unchanged but the phase, SAMPLE (R20; log
19). That the event tx(b) stands before the settle delay is the model's choice (log 24). Without a byte in the slot the
model stops (log 9). -/
def Obligations.DrainSendsTheOldestByte : Prop :=
  ∀ s : State, s.head ≠ s.tail → 2500 ≤ timeSub s.params.timeW (readNow s).now s.lastSend →
    let p := pollLines (readNow s)
    p.1 = (true, true) →
    (∀ b, qramRead s s.tail = some b →
      let u := readNow { p.2 with
        txShift := frameBits (parity b) b
        txCnt := 11
        kbClk := .release
        kbData := .release
        now := timeAdd s.params.timeW p.2.now (22 * s.params.tKbHalf + 150)
        trace := .delay 150 :: (frameEvents s.params.tKbHalf (frameBits (parity b) b)).reverse ++ p.2.trace
        tail := s.tail + 1 }
      exec .drain s = .next { u with lastSend := u.now, phase := .sample, engine := .off }) ∧
    (qramRead s s.tail = none → exec .drain s = .fault (.qramUnwritten s.tail.toNat))

/-- R111 and R164: with the gate open and a line low DRAIN, and with it the whole cycle, is held in phase IDLE_WAIT: the queue,
`tail`, `lastSend` and every other register are as before, no pin is driven, nothing is sampled. That the held operation
answers a next state in phase IDLE_WAIT, the script as it was, is the model's choice (log 18; a held word is done, log
17). -/
def Obligations.BusyPeerHoldsTheCycle : Prop :=
  ∀ s : State, s.head ≠ s.tail → 2500 ≤ timeSub s.params.timeW (readNow s).now s.lastSend →
    (pollLines (readNow s)).1 ≠ (true, true) → s.phase = .drain →
    let t : State := { (pollLines (readNow s)).2 with phase := .idleWait, engine := .off }
    exec .drain s = .next t ∧ exec .cycle s = .next t ∧
      t = { s with timeIn := t.timeIn, kbIn := t.kbIn, draws := t.draws, now := t.now, trace := t.trace,
                   phase := .idleWait, engine := .off }

/-- R111: in phase IDLE_WAIT one poll with both lines high leads to phase TX, any other leaves the block where it is; as a
script word outside that phase IDLE_WAIT returns at the first such poll and otherwise stays the next word (log 17). -/
def Obligations.IdleWaitPollsBothLines : Prop :=
  ∀ s : State,
    ((pollLines s).1 = (true, true) → exec .idleWait s =
      .next (if s.phase = .idleWait then { (pollLines s).2 with phase := .tx, engine := .off } else (pollLines s).2)) ∧
    ((pollLines s).1 ≠ (true, true) → exec .idleWait s =
      .next (if s.phase = .idleWait then (pollLines s).2
        else { (pollLines s).2 with script := encode .idleWait :: s.script }))

/-- R117: with an unbounded time base a DRAIN that transmits takes a timestamp at least T_INTERBYTE plus a frame plus the settle
delay after the previous one, and transmits exactly the byte at `tail`. -/
def Obligations.TimestampsAreSpaced : Prop :=
  ∀ s t : State, s.params.timeW = none → exec .drain s = .next t → t.tail ≠ s.tail →
    s.lastSend + 2500 + 22 * s.params.tKbHalf + 150 ≤ t.lastSend ∧ t.tail = s.tail + 1 ∧
    ∃ b, qramRead s s.tail = some b ∧ sentBytes t = sentBytes s ++ [b]

/-- R192: with a finite time base the elapsed time the gate sees is the true elapsed time modulo 2^TIME_W, never more than
the true one. -/
def Obligations.WrappedElapsedTimeNeverExceedsTheTrueOne : Prop :=
  ∀ w last elapsed : Nat,
    timeSub (some w) ((last + elapsed) % 2 ^ w) (last % 2 ^ w) = elapsed % 2 ^ w ∧
    timeSub (some w) ((last + elapsed) % 2 ^ w) (last % 2 ^ w) ≤ elapsed

/-! ### Whole cycles -/

/-- R125, R126, R140, R142 (a, b), R143 and R190: from every state of the invariant between cycles, if the gate is closed or
the lines are high, CYCLE completes with everything `CycleEnds` says of the mask sampled: mode, marks, `prevMask` and
settings with and without an action, exactly the encoder calls and bytes of the cycle behind what was resident. A byte
leaves exactly when the gate is open, and it is the oldest resident one. -/
def Obligations.CycleCompletesAndFollowsTheMask : Prop :=
  ∀ s : State, Inv s → s.phase = .drain →
    (gateOpen (readNow s) = false ∨ (pollLines (readNow s)).1 = (true, true)) →
    ∃ t, exec .cycle s = .next t ∧ CycleEnds s t ∧
      t.tail = if gateOpen (readNow s) then s.tail + 1 else s.tail

/-- R164: a cycle held in IDLE_WAIT goes on from the wait: with both lines high it completes like any other
(`CycleEnds`), from every state of the invariant, and the byte that was waiting is sent; and before the first cycle of a
session NV_LOAD runs (R180, log 18). -/
def Obligations.HeldCycleResumes : Prop :=
  (∀ s : State, Inv s → s.phase = .idleWait → (pollLines s).1 = (true, true) →
    ∃ t, exec .cycle s = .next t ∧ CycleEnds s t ∧ t.tail = s.tail + 1) ∧
  ∀ s t : State, s.phase = .resetLoad → exec .nvLoad s = .next t → exec .cycle s = exec .cycle t

/-- R50 and R64: a mask byte runs one cycle in which the sampled mask is that byte, whichever of its buttons' rows it is read
as (log 13). -/
def Obligations.MaskRowsRunOneCycle : Prop :=
  ∀ (s : State) (k : Button) (m : Mask), Inv s → s.phase = .drain →
    (gateOpen (readNow s) = false ∨ (pollLines (readNow s)).1 = (true, true)) →
    ∃ t, exec (maskRow k m) s = .next t ∧ exec .cycle { s with padIn := maskLevels m } = .next t ∧
      t.phase = .drain ∧ t.curMask = m ∧ t.cfg = selectPressed m

/-- R140 and R191: under the default CFG_ACTION_UPDATES_PREV = false, a cycle that fired an action leaves `prevMask`, so the same
mask in the next cycle fires the same action again: it writes the settings byte and blocks 300 ms once more, and changes
neither the settings nor `btn` any more, and enqueues nothing. -/
def Obligations.HeldConfigButtonFiresAgain : Prop :=
  ∀ (s t u : State) (k : Button) (m : Mask) (a : Action), s.phase = .drain →
    s.params.cfgActionUpdatesPrev = false → selectPressed m = true → configAction m s.prevMask = some a →
    exec (maskRow k m) s = .next t → t.phase = .drain →
    exec (maskRow k m) t = .next u → u.phase = .drain →
    t.prevMask = s.prevMask ∧ t.cfg = true ∧ configAction m t.prevMask = some a ∧
      (∃ rest, u.trace = .delay 300000 :: .delay t.params.tNvWrite ::
        .nvWrite (settingsByte t.swapAB t.profile) :: rest ∧ t.trace <:+ rest) ∧
      u.prevMask = s.prevMask ∧ u.profile = t.profile ∧ u.swapAB = t.swapAB ∧
      u.btn = t.btn ∧ u.cfg = t.cfg ∧ u.head = t.head ∧ nvByteAt u u.params.nvAddr = settingsByte t.swapAB t.profile

/-! ### Settings and reset -/

/-- R53: bits 7:3 of a settings byte have no influence; the two fields decode by masking; the byte encoded has the reserved
bits 0; decode after encode returns the same pair. -/
def Obligations.SettingsByteFields : Prop :=
  (∀ v v' : Byte, v.extractLsb' 0 3 = v'.extractLsb' 0 3 →
    settingsProfile v = settingsProfile v' ∧ settingsSwap v = settingsSwap v') ∧
  (∀ v : Byte, settingsProfile v = v.extractLsb' 0 2 ∧ settingsSwap v = v.getLsbD 2 ∧ (settingsProfile v).toNat < 4) ∧
  (∀ (swap : Bool) (p : Profile), (settingsByte swap p).toNat = 4 * swap.toNat + p.toNat ∧
    settingsProfile (settingsByte swap p) = p ∧ settingsSwap (settingsByte swap p) = swap)

/-- R151: NV_LOAD loads the two fields of the stored byte, whatever it is, and neither repairs nor writes (C1); the phase is
R20's, log 19 (`engine`: log 5). -/
def Obligations.NvLoadDecodesAnyByte : Prop :=
  ∀ s : State, exec .nvLoad s =
    .next { s with
      profile := settingsProfile (nvByteAt s s.params.nvAddr)
      swapAB := settingsSwap (nvByteAt s s.params.nvAddr)
      phase := .drain
      engine := .off
      trace := .nvRead (nvByteAt s s.params.nvAddr) :: s.trace }

/-- R180 and R181: RESET sets every register to its reset value and loads the settings from the store, which it leaves
unchanged. Unspecified registers are 0 and unspecified slots unwritten (log 12, 28); the model's own fields but `engine` stay
(log 30); a settings write in progress leaves some byte in the store (U17, log 22). -/
def Obligations.ResetLeavesTheResetValues : Prop :=
  ∀ s : State, Memory.wf (some nvErased) s.nv = true →
    let after (v : Byte) (u : State) : State := { u with
      prevMask := 0xFF, btn := Vector.replicate 8 false, cfg := false, head := 0, tail := 0, lastSend := 0, qram := [],
      curMask := 0, sampCnt := 0, txShift := 0, txCnt := 0, padLatch := false, padClk := false,
      kbClk := .release, kbData := .release, now := 0, phase := .drain, engine := .off,
      profile := settingsProfile v, swapAB := settingsSwap v, trace := .nvRead v :: .reset :: s.trace }
    (¬(s.phase = .debounce ∧ s.engine = .writing) → exec .reset s = .next (after (nvByteAt s s.params.nvAddr) s)) ∧
    (s.phase = .debounce ∧ s.engine = .writing → ∃ v, exec .reset s =
      .next (after v { s with nv := Memory.write (some nvErased) s.nv s.params.nvAddr v, draws := s.draws + 1 })) ∧
    ∀ v, exec (.settings v) s =
      .next (after v { s with nv := Memory.write (some nvErased) s.nv s.params.nvAddr v })

/-- R155: NV_SAVE followed by RESET restores `profile` and `swapAB`, for all eight combinations. -/
def Obligations.SettingsSurviveReset : Prop :=
  ∀ s : State, ¬(s.phase = .debounce ∧ s.engine = .writing) →
    ∃ t u, exec .nvSave s = .next t ∧ exec .reset t = .next u ∧ u.profile = s.profile ∧ u.swapAB = s.swapAB ∧
      nvByteAt u u.params.nvAddr = settingsByte s.swapAB s.profile

/-- R195: after RESET with an unbounded time base, no byte leaves before `now` is 2500, however early it was enqueued: a DRAIN
that reads an earlier time transmits nothing. -/
def Obligations.NothingIsSentInTheFirstInterval : Prop :=
  ∀ s t u : State, s.params.timeW = none → exec .reset s = .next t →
    ∀ v : State, v.lastSend = t.lastSend → v.params = t.params → exec .drain v = .next u → (readNow v).now < 2500 →
      sentBytes u = sentBytes v ∧ u.tail = v.tail ∧ u.kbIn = v.kbIn

/-! ### Invariants and whole-machine rules -/

/-- The state after reset meets both invariants. -/
def Obligations.ResetStateMeetsTheInvariants : Prop := Inv State.reset ∧ SequencerInv State.reset

/-- Every step, with any inputs and any script words, keeps the invariant: canonical memories, indices inside the memory,
every resident slot written, the time base in range (R21, R105, R181). -/
def Obligations.EveryStepKeepsTheInvariant : Prop :=
  ∀ s t : State, Inv s → step s = .next t → Inv t

/-- R160: from a state of the invariant no step faults; a step is refused only for a script word that is neither an instruction nor a mask byte. -/
def Obligations.NoStepFaultsUnderTheInvariant : Prop :=
  ∀ s : State, Inv s →
    (∃ t, step s = .next t) ∨
    (s.resetPin = false ∧ ∃ w rest e, s.script = w :: rest ∧ decode w = .error e ∧ (∀ m, e ≠ .notPressed m) ∧
      step s = .refused (.badWord e))

/-- The sequencer's own steps keep its invariant: each pin is driven only in its place inside SAMPLE or inside a frame, and
KB_DATA is stable while the clock is low (R71, R113, R183), the frame being sent is that of the byte at `tail` (R109),
after the Select edge `cfg` is selectPressed (R143 a), after EDGE_SCAN `btn` is the logical mask (R143 c). -/
def Obligations.SequencerKeepsItsInvariant : Prop :=
  ∀ s t : State, SequencerInv s → s.script = [] → step s = .next t → SequencerInv t ∧ t.script = []

/-- R143 (b): without a reset the sequencer changes `profile` and `swapAB` only in a configuration action, with `cfg` 1, or in
RESET_LOAD. -/
def Obligations.SettingsChangeOnlyInConfigMode : Prop :=
  ∀ s t : State, SequencerInv s → s.script = [] → s.resetPin = false → step s = .next t →
    t.profile ≠ s.profile ∨ t.swapAB ≠ s.swapAB →
    s.phase = .resetLoad ∨ (s.phase = .config ∧ s.cfg = true)

/-- R34 and R41: without a reset the bytes transmitted, followed by the bytes still queued, only ever grow at the end: bytes
leave on the wire exactly once and exactly in the order they were enqueued (a byte counts as transmitted at the end of its
frame, log 24). -/
def Obligations.BytesLeaveInTheOrderEnqueued : Prop :=
  ∀ s t : State, Inv s → SequencerInv s → s.script = [] → s.resetPin = false → step s = .next t →
    sentThenQueued s <+: sentThenQueued t

/-- R41 and R105: without a reset the sequencer advances `tail` in phase SETTLE only, by one, and `head` only in the phases that
run the encoder. -/
def Obligations.IndicesMoveOnlyInTheirPhases : Prop :=
  ∀ s t : State, s.script = [] → s.resetPin = false → step s = .next t →
    (t.tail ≠ s.tail → s.phase = .settle ∧ t.tail = s.tail + 1) ∧
    (t.head ≠ s.head → s.phase = .selectEdge ∨ s.phase = .config ∨ s.phase = .normal)

/-- R33 and R22: no step, whatever it runs, changes a byte of the settings store outside NV_ADDR, the layout ROM or a
parameter; and the trace only grows (R160). -/
def Obligations.NoStepWritesOutsideItsSpaces : Prop :=
  ∀ s t : State, step s = .next t →
    t.params = s.params ∧ (∀ a, a ≠ s.params.nvAddr → nvByteAt t a = nvByteAt s a) ∧ s.trace <:+ t.trace
end

