-- ==== Sys2Proof/Laws/Memory.lean ====
section
/-! SUPPORT. The laws of memory: a read after a write, everywhere, and the canonical form kept by every operation. -/

namespace Sys2Proof.Machine

/-- A write leaves every other address alone. -/
theorem Memory.read_write_other (d : Option Byte) (m : Memory) {x y : Nat} (v : Byte) (h : y ≠ x) :
    Memory.read d (Memory.write d m x v) y = Memory.read d m y := by
  induction m with
  | nil => simp only [Memory.write]; split <;> simp [Memory.read, h]
  | cons c rest ih =>
    obtain ⟨a, b⟩ := c
    simp only [Memory.write]
    split
    · split <;> simp [Memory.read, h]
    · split
      · rename_i hxa
        subst hxa
        split <;> simp [Memory.read, h]
      · simp only [Memory.read, ih]

/-- An address below every listed one is unlisted. -/
theorem Memory.read_unlisted (d : Option Byte) (m : Memory) (x : Nat) (h : ∀ c ∈ m, x < c.1) :
    Memory.read d m x = d := by
  induction m with
  | nil => rfl
  | cons c rest ih =>
    obtain ⟨a, b⟩ := c
    have hx : x ≠ a := Nat.ne_of_lt (h (a, b) (by simp))
    simp only [Memory.read, if_neg hx]
    exact ih fun c hc => h c (by simp [hc])

/-- A write is read back, in a canonical memory or wherever the value written is not what an unlisted address reads as. -/
theorem Memory.read_write_same (d : Option Byte) (m : Memory) (x : Nat) (v : Byte)
    (h : some v ≠ d ∨ Memory.wf d m = true) : Memory.read d (Memory.write d m x v) x = some v := by
  induction m with
  | nil => simp only [Memory.write]; split <;> simp_all [Memory.read]
  | cons c rest ih =>
    obtain ⟨a, b⟩ := c
    have hw : some v ≠ d ∨ Memory.wf d rest = true := h.imp_right fun h => by
      simp only [Memory.wf, Bool.and_eq_true] at h; exact h.2
    have hlow : some v = d → ∀ c ∈ rest, a < c.1 := fun hv c hc => by
      have h := h.resolve_left (not_not.2 hv)
      simp only [Memory.wf, Bool.and_eq_true, List.all_eq_true, decide_eq_true_eq] at h
      exact h.1.2 c hc
    simp only [Memory.write]
    split
    · rename_i hxa
      split
      · rename_i hv
        rw [Memory.read, if_neg (Nat.ne_of_lt hxa), Memory.read_unlisted, hv]
        exact fun c hc => Nat.lt_trans hxa (hlow hv c hc)
      · simp [Memory.read]
    · split
      · rename_i hxa
        subst hxa
        split
        · rename_i hv
          rw [Memory.read_unlisted _ _ _ (hlow hv), hv]
        · simp [Memory.read]
      · rename_i hxa
        rw [Memory.read, if_neg hxa]
        exact ih hw

/-- The addresses listed after a write were listed before, or it is the address written. -/
theorem Memory.mem_write (d : Option Byte) (m : Memory) (x : Nat) (v : Byte) {c : Host.Cell}
    (h : c ∈ Memory.write d m x v) : c ∈ m ∨ (c = (x, v) ∧ some v ≠ d) := by
  induction m with
  | nil => simp only [Memory.write] at h; split at h <;> simp_all
  | cons c' rest ih =>
    obtain ⟨a, b⟩ := c'
    simp only [Memory.write] at h
    split at h
    · split at h <;> simp_all [or_comm]
    · split at h
      · split at h
        · exact .inl (by simp [h])
        · simp only [List.mem_cons] at h
          exact h.elim (fun h => .inr ⟨h, by assumption⟩) fun h => .inl (by simp [h])
      · simp only [List.mem_cons] at h ⊢
        rcases h with h | h
        · exact .inl (.inl h)
        · exact (ih h).imp_left .inr

/-- A write keeps the canonical form. -/
theorem Memory.wf_write (d : Option Byte) (m : Memory) (x : Nat) (v : Byte) (h : Memory.wf d m = true) :
    Memory.wf d (Memory.write d m x v) = true := by
  induction m with
  | nil => simp only [Memory.write]; split <;> simp_all [Memory.wf]
  | cons c rest ih =>
    obtain ⟨a, b⟩ := c
    have h' := h
    simp only [Memory.wf, Bool.and_eq_true, List.all_eq_true, decide_eq_true_eq, bne_iff_ne] at h
    obtain ⟨⟨hb, hlow⟩, hrest⟩ := h
    simp only [Memory.write]
    split
    · rename_i hxa
      split
      · exact h'
      · rename_i hv
        simp only [Memory.wf, Bool.and_eq_true, List.all_eq_true, decide_eq_true_eq, bne_iff_ne, List.mem_cons]
        exact ⟨⟨hv, fun c hc => hc.elim (fun e => by simp [e, hxa]) fun hc => Nat.lt_trans hxa (hlow c hc)⟩,
          ⟨hb, hlow⟩, hrest⟩
    · rename_i hxa
      split
      · rename_i he
        subst he
        split
        · exact hrest
        · rename_i hv
          simp only [Memory.wf, Bool.and_eq_true, List.all_eq_true, decide_eq_true_eq, bne_iff_ne]
          exact ⟨⟨hv, hlow⟩, hrest⟩
      · rename_i he
        simp only [Memory.wf, Bool.and_eq_true, List.all_eq_true, decide_eq_true_eq, bne_iff_ne]
        refine ⟨⟨hb, fun c hc => ?_⟩, ih hrest⟩
        rcases Memory.mem_write d rest x v hc with hc | ⟨hc, -⟩
        · exact hlow c hc
        · rw [hc]; simp only; omega

/-- Memory with nothing listed is canonical. -/
@[simp] theorem Memory.wf_nil (d : Option Byte) : Memory.wf d [] = true := rfl

end Sys2Proof.Machine
end

