-- ==== Sys2Proof/Laws/State.lean ====
section
/-! SUPPORT. One lemma per field per named update of State, true by rfl. -/

namespace Sys2Proof.Machine

/-! ### emit -/

@[simp] theorem emit_prevMask (e : Event) (s : State) : (emit e s).prevMask = s.prevMask := rfl
@[simp] theorem emit_btn (e : Event) (s : State) : (emit e s).btn = s.btn := rfl
@[simp] theorem emit_profile (e : Event) (s : State) : (emit e s).profile = s.profile := rfl
@[simp] theorem emit_swapAB (e : Event) (s : State) : (emit e s).swapAB = s.swapAB := rfl
@[simp] theorem emit_cfg (e : Event) (s : State) : (emit e s).cfg = s.cfg := rfl
@[simp] theorem emit_head (e : Event) (s : State) : (emit e s).head = s.head := rfl
@[simp] theorem emit_tail (e : Event) (s : State) : (emit e s).tail = s.tail := rfl
@[simp] theorem emit_lastSend (e : Event) (s : State) : (emit e s).lastSend = s.lastSend := rfl
@[simp] theorem emit_phase (e : Event) (s : State) : (emit e s).phase = s.phase := rfl
@[simp] theorem emit_qram (e : Event) (s : State) : (emit e s).qram = s.qram := rfl
@[simp] theorem emit_curMask (e : Event) (s : State) : (emit e s).curMask = s.curMask := rfl
@[simp] theorem emit_sampCnt (e : Event) (s : State) : (emit e s).sampCnt = s.sampCnt := rfl
@[simp] theorem emit_txShift (e : Event) (s : State) : (emit e s).txShift = s.txShift := rfl
@[simp] theorem emit_txCnt (e : Event) (s : State) : (emit e s).txCnt = s.txCnt := rfl
@[simp] theorem emit_padLatch (e : Event) (s : State) : (emit e s).padLatch = s.padLatch := rfl
@[simp] theorem emit_padClk (e : Event) (s : State) : (emit e s).padClk = s.padClk := rfl
@[simp] theorem emit_kbClk (e : Event) (s : State) : (emit e s).kbClk = s.kbClk := rfl
@[simp] theorem emit_kbData (e : Event) (s : State) : (emit e s).kbData = s.kbData := rfl
@[simp] theorem emit_now (e : Event) (s : State) : (emit e s).now = s.now := rfl
@[simp] theorem emit_nv (e : Event) (s : State) : (emit e s).nv = s.nv := rfl
@[simp] theorem emit_resetPin (e : Event) (s : State) : (emit e s).resetPin = s.resetPin := rfl
@[simp] theorem emit_timeIn (e : Event) (s : State) : (emit e s).timeIn = s.timeIn := rfl
@[simp] theorem emit_padIn (e : Event) (s : State) : (emit e s).padIn = s.padIn := rfl
@[simp] theorem emit_kbIn (e : Event) (s : State) : (emit e s).kbIn = s.kbIn := rfl
@[simp] theorem emit_draws (e : Event) (s : State) : (emit e s).draws = s.draws := rfl
@[simp] theorem emit_params (e : Event) (s : State) : (emit e s).params = s.params := rfl
@[simp] theorem emit_engine (e : Event) (s : State) : (emit e s).engine = s.engine := rfl
@[simp] theorem emit_busEntry (e : Event) (s : State) : (emit e s).busEntry = s.busEntry := rfl
@[simp] theorem emit_script (e : Event) (s : State) : (emit e s).script = s.script := rfl
@[simp] theorem emit_trace (e : Event) (s : State) : (emit e s).trace = e :: s.trace := rfl

/-! ### noteAnomaly -/

@[simp] theorem noteAnomaly_prevMask (a : Anomaly) (s : State) : (noteAnomaly a s).prevMask = s.prevMask := rfl
@[simp] theorem noteAnomaly_btn (a : Anomaly) (s : State) : (noteAnomaly a s).btn = s.btn := rfl
@[simp] theorem noteAnomaly_profile (a : Anomaly) (s : State) : (noteAnomaly a s).profile = s.profile := rfl
@[simp] theorem noteAnomaly_swapAB (a : Anomaly) (s : State) : (noteAnomaly a s).swapAB = s.swapAB := rfl
@[simp] theorem noteAnomaly_cfg (a : Anomaly) (s : State) : (noteAnomaly a s).cfg = s.cfg := rfl
@[simp] theorem noteAnomaly_head (a : Anomaly) (s : State) : (noteAnomaly a s).head = s.head := rfl
@[simp] theorem noteAnomaly_tail (a : Anomaly) (s : State) : (noteAnomaly a s).tail = s.tail := rfl
@[simp] theorem noteAnomaly_lastSend (a : Anomaly) (s : State) : (noteAnomaly a s).lastSend = s.lastSend := rfl
@[simp] theorem noteAnomaly_phase (a : Anomaly) (s : State) : (noteAnomaly a s).phase = s.phase := rfl
@[simp] theorem noteAnomaly_qram (a : Anomaly) (s : State) : (noteAnomaly a s).qram = s.qram := rfl
@[simp] theorem noteAnomaly_curMask (a : Anomaly) (s : State) : (noteAnomaly a s).curMask = s.curMask := rfl
@[simp] theorem noteAnomaly_sampCnt (a : Anomaly) (s : State) : (noteAnomaly a s).sampCnt = s.sampCnt := rfl
@[simp] theorem noteAnomaly_txShift (a : Anomaly) (s : State) : (noteAnomaly a s).txShift = s.txShift := rfl
@[simp] theorem noteAnomaly_txCnt (a : Anomaly) (s : State) : (noteAnomaly a s).txCnt = s.txCnt := rfl
@[simp] theorem noteAnomaly_padLatch (a : Anomaly) (s : State) : (noteAnomaly a s).padLatch = s.padLatch := rfl
@[simp] theorem noteAnomaly_padClk (a : Anomaly) (s : State) : (noteAnomaly a s).padClk = s.padClk := rfl
@[simp] theorem noteAnomaly_kbClk (a : Anomaly) (s : State) : (noteAnomaly a s).kbClk = s.kbClk := rfl
@[simp] theorem noteAnomaly_kbData (a : Anomaly) (s : State) : (noteAnomaly a s).kbData = s.kbData := rfl
@[simp] theorem noteAnomaly_now (a : Anomaly) (s : State) : (noteAnomaly a s).now = s.now := rfl
@[simp] theorem noteAnomaly_nv (a : Anomaly) (s : State) : (noteAnomaly a s).nv = s.nv := rfl
@[simp] theorem noteAnomaly_resetPin (a : Anomaly) (s : State) : (noteAnomaly a s).resetPin = s.resetPin := rfl
@[simp] theorem noteAnomaly_timeIn (a : Anomaly) (s : State) : (noteAnomaly a s).timeIn = s.timeIn := rfl
@[simp] theorem noteAnomaly_padIn (a : Anomaly) (s : State) : (noteAnomaly a s).padIn = s.padIn := rfl
@[simp] theorem noteAnomaly_kbIn (a : Anomaly) (s : State) : (noteAnomaly a s).kbIn = s.kbIn := rfl
@[simp] theorem noteAnomaly_draws (a : Anomaly) (s : State) : (noteAnomaly a s).draws = s.draws := rfl
@[simp] theorem noteAnomaly_params (a : Anomaly) (s : State) : (noteAnomaly a s).params = s.params := rfl
@[simp] theorem noteAnomaly_engine (a : Anomaly) (s : State) : (noteAnomaly a s).engine = s.engine := rfl
@[simp] theorem noteAnomaly_busEntry (a : Anomaly) (s : State) : (noteAnomaly a s).busEntry = s.busEntry := rfl
@[simp] theorem noteAnomaly_script (a : Anomaly) (s : State) : (noteAnomaly a s).script = s.script := rfl
@[simp] theorem noteAnomaly_trace (a : Anomaly) (s : State) : (noteAnomaly a s).trace = .note a :: s.trace := rfl

/-! ### advance -/

@[simp] theorem advance_prevMask (d : Time) (s : State) : (advance d s).prevMask = s.prevMask := rfl
@[simp] theorem advance_btn (d : Time) (s : State) : (advance d s).btn = s.btn := rfl
@[simp] theorem advance_profile (d : Time) (s : State) : (advance d s).profile = s.profile := rfl
@[simp] theorem advance_swapAB (d : Time) (s : State) : (advance d s).swapAB = s.swapAB := rfl
@[simp] theorem advance_cfg (d : Time) (s : State) : (advance d s).cfg = s.cfg := rfl
@[simp] theorem advance_head (d : Time) (s : State) : (advance d s).head = s.head := rfl
@[simp] theorem advance_tail (d : Time) (s : State) : (advance d s).tail = s.tail := rfl
@[simp] theorem advance_lastSend (d : Time) (s : State) : (advance d s).lastSend = s.lastSend := rfl
@[simp] theorem advance_phase (d : Time) (s : State) : (advance d s).phase = s.phase := rfl
@[simp] theorem advance_qram (d : Time) (s : State) : (advance d s).qram = s.qram := rfl
@[simp] theorem advance_curMask (d : Time) (s : State) : (advance d s).curMask = s.curMask := rfl
@[simp] theorem advance_sampCnt (d : Time) (s : State) : (advance d s).sampCnt = s.sampCnt := rfl
@[simp] theorem advance_txShift (d : Time) (s : State) : (advance d s).txShift = s.txShift := rfl
@[simp] theorem advance_txCnt (d : Time) (s : State) : (advance d s).txCnt = s.txCnt := rfl
@[simp] theorem advance_padLatch (d : Time) (s : State) : (advance d s).padLatch = s.padLatch := rfl
@[simp] theorem advance_padClk (d : Time) (s : State) : (advance d s).padClk = s.padClk := rfl
@[simp] theorem advance_kbClk (d : Time) (s : State) : (advance d s).kbClk = s.kbClk := rfl
@[simp] theorem advance_kbData (d : Time) (s : State) : (advance d s).kbData = s.kbData := rfl
@[simp] theorem advance_now (d : Time) (s : State) : (advance d s).now = timeAdd s.params.timeW s.now d := rfl
@[simp] theorem advance_nv (d : Time) (s : State) : (advance d s).nv = s.nv := rfl
@[simp] theorem advance_resetPin (d : Time) (s : State) : (advance d s).resetPin = s.resetPin := rfl
@[simp] theorem advance_timeIn (d : Time) (s : State) : (advance d s).timeIn = s.timeIn := rfl
@[simp] theorem advance_padIn (d : Time) (s : State) : (advance d s).padIn = s.padIn := rfl
@[simp] theorem advance_kbIn (d : Time) (s : State) : (advance d s).kbIn = s.kbIn := rfl
@[simp] theorem advance_draws (d : Time) (s : State) : (advance d s).draws = s.draws := rfl
@[simp] theorem advance_params (d : Time) (s : State) : (advance d s).params = s.params := rfl
@[simp] theorem advance_engine (d : Time) (s : State) : (advance d s).engine = s.engine := rfl
@[simp] theorem advance_busEntry (d : Time) (s : State) : (advance d s).busEntry = s.busEntry := rfl
@[simp] theorem advance_script (d : Time) (s : State) : (advance d s).script = s.script := rfl
@[simp] theorem advance_trace (d : Time) (s : State) : (advance d s).trace = s.trace := rfl

/-! ### delay -/

@[simp] theorem delay_prevMask (d : Time) (s : State) : (delay d s).prevMask = s.prevMask := rfl
@[simp] theorem delay_btn (d : Time) (s : State) : (delay d s).btn = s.btn := rfl
@[simp] theorem delay_profile (d : Time) (s : State) : (delay d s).profile = s.profile := rfl
@[simp] theorem delay_swapAB (d : Time) (s : State) : (delay d s).swapAB = s.swapAB := rfl
@[simp] theorem delay_cfg (d : Time) (s : State) : (delay d s).cfg = s.cfg := rfl
@[simp] theorem delay_head (d : Time) (s : State) : (delay d s).head = s.head := rfl
@[simp] theorem delay_tail (d : Time) (s : State) : (delay d s).tail = s.tail := rfl
@[simp] theorem delay_lastSend (d : Time) (s : State) : (delay d s).lastSend = s.lastSend := rfl
@[simp] theorem delay_phase (d : Time) (s : State) : (delay d s).phase = s.phase := rfl
@[simp] theorem delay_qram (d : Time) (s : State) : (delay d s).qram = s.qram := rfl
@[simp] theorem delay_curMask (d : Time) (s : State) : (delay d s).curMask = s.curMask := rfl
@[simp] theorem delay_sampCnt (d : Time) (s : State) : (delay d s).sampCnt = s.sampCnt := rfl
@[simp] theorem delay_txShift (d : Time) (s : State) : (delay d s).txShift = s.txShift := rfl
@[simp] theorem delay_txCnt (d : Time) (s : State) : (delay d s).txCnt = s.txCnt := rfl
@[simp] theorem delay_padLatch (d : Time) (s : State) : (delay d s).padLatch = s.padLatch := rfl
@[simp] theorem delay_padClk (d : Time) (s : State) : (delay d s).padClk = s.padClk := rfl
@[simp] theorem delay_kbClk (d : Time) (s : State) : (delay d s).kbClk = s.kbClk := rfl
@[simp] theorem delay_kbData (d : Time) (s : State) : (delay d s).kbData = s.kbData := rfl
@[simp] theorem delay_now (d : Time) (s : State) : (delay d s).now = timeAdd s.params.timeW s.now d := rfl
@[simp] theorem delay_nv (d : Time) (s : State) : (delay d s).nv = s.nv := rfl
@[simp] theorem delay_resetPin (d : Time) (s : State) : (delay d s).resetPin = s.resetPin := rfl
@[simp] theorem delay_timeIn (d : Time) (s : State) : (delay d s).timeIn = s.timeIn := rfl
@[simp] theorem delay_padIn (d : Time) (s : State) : (delay d s).padIn = s.padIn := rfl
@[simp] theorem delay_kbIn (d : Time) (s : State) : (delay d s).kbIn = s.kbIn := rfl
@[simp] theorem delay_draws (d : Time) (s : State) : (delay d s).draws = s.draws := rfl
@[simp] theorem delay_params (d : Time) (s : State) : (delay d s).params = s.params := rfl
@[simp] theorem delay_engine (d : Time) (s : State) : (delay d s).engine = s.engine := rfl
@[simp] theorem delay_busEntry (d : Time) (s : State) : (delay d s).busEntry = s.busEntry := rfl
@[simp] theorem delay_script (d : Time) (s : State) : (delay d s).script = s.script := rfl
@[simp] theorem delay_trace (d : Time) (s : State) : (delay d s).trace = .delay d :: s.trace := rfl

/-! ### goto -/

@[simp] theorem goto_prevMask (p : Phase) (s : State) : (goto p s).prevMask = s.prevMask := rfl
@[simp] theorem goto_btn (p : Phase) (s : State) : (goto p s).btn = s.btn := rfl
@[simp] theorem goto_profile (p : Phase) (s : State) : (goto p s).profile = s.profile := rfl
@[simp] theorem goto_swapAB (p : Phase) (s : State) : (goto p s).swapAB = s.swapAB := rfl
@[simp] theorem goto_cfg (p : Phase) (s : State) : (goto p s).cfg = s.cfg := rfl
@[simp] theorem goto_head (p : Phase) (s : State) : (goto p s).head = s.head := rfl
@[simp] theorem goto_tail (p : Phase) (s : State) : (goto p s).tail = s.tail := rfl
@[simp] theorem goto_lastSend (p : Phase) (s : State) : (goto p s).lastSend = s.lastSend := rfl
@[simp] theorem goto_phase (p : Phase) (s : State) : (goto p s).phase = p := rfl
@[simp] theorem goto_qram (p : Phase) (s : State) : (goto p s).qram = s.qram := rfl
@[simp] theorem goto_curMask (p : Phase) (s : State) : (goto p s).curMask = s.curMask := rfl
@[simp] theorem goto_sampCnt (p : Phase) (s : State) : (goto p s).sampCnt = s.sampCnt := rfl
@[simp] theorem goto_txShift (p : Phase) (s : State) : (goto p s).txShift = s.txShift := rfl
@[simp] theorem goto_txCnt (p : Phase) (s : State) : (goto p s).txCnt = s.txCnt := rfl
@[simp] theorem goto_padLatch (p : Phase) (s : State) : (goto p s).padLatch = s.padLatch := rfl
@[simp] theorem goto_padClk (p : Phase) (s : State) : (goto p s).padClk = s.padClk := rfl
@[simp] theorem goto_kbClk (p : Phase) (s : State) : (goto p s).kbClk = s.kbClk := rfl
@[simp] theorem goto_kbData (p : Phase) (s : State) : (goto p s).kbData = s.kbData := rfl
@[simp] theorem goto_now (p : Phase) (s : State) : (goto p s).now = s.now := rfl
@[simp] theorem goto_nv (p : Phase) (s : State) : (goto p s).nv = s.nv := rfl
@[simp] theorem goto_resetPin (p : Phase) (s : State) : (goto p s).resetPin = s.resetPin := rfl
@[simp] theorem goto_timeIn (p : Phase) (s : State) : (goto p s).timeIn = s.timeIn := rfl
@[simp] theorem goto_padIn (p : Phase) (s : State) : (goto p s).padIn = s.padIn := rfl
@[simp] theorem goto_kbIn (p : Phase) (s : State) : (goto p s).kbIn = s.kbIn := rfl
@[simp] theorem goto_draws (p : Phase) (s : State) : (goto p s).draws = s.draws := rfl
@[simp] theorem goto_params (p : Phase) (s : State) : (goto p s).params = s.params := rfl
@[simp] theorem goto_engine (p : Phase) (s : State) : (goto p s).engine = .off := rfl
@[simp] theorem goto_busEntry (p : Phase) (s : State) : (goto p s).busEntry = s.busEntry := rfl
@[simp] theorem goto_script (p : Phase) (s : State) : (goto p s).script = s.script := rfl
@[simp] theorem goto_trace (p : Phase) (s : State) : (goto p s).trace = s.trace := rfl

/-! ### qramWrite -/

@[simp] theorem qramWrite_prevMask (a : Index) (v : Byte) (s : State) : (qramWrite a v s).prevMask = s.prevMask := rfl
@[simp] theorem qramWrite_btn (a : Index) (v : Byte) (s : State) : (qramWrite a v s).btn = s.btn := rfl
@[simp] theorem qramWrite_profile (a : Index) (v : Byte) (s : State) : (qramWrite a v s).profile = s.profile := rfl
@[simp] theorem qramWrite_swapAB (a : Index) (v : Byte) (s : State) : (qramWrite a v s).swapAB = s.swapAB := rfl
@[simp] theorem qramWrite_cfg (a : Index) (v : Byte) (s : State) : (qramWrite a v s).cfg = s.cfg := rfl
@[simp] theorem qramWrite_head (a : Index) (v : Byte) (s : State) : (qramWrite a v s).head = s.head := rfl
@[simp] theorem qramWrite_tail (a : Index) (v : Byte) (s : State) : (qramWrite a v s).tail = s.tail := rfl
@[simp] theorem qramWrite_lastSend (a : Index) (v : Byte) (s : State) : (qramWrite a v s).lastSend = s.lastSend := rfl
@[simp] theorem qramWrite_phase (a : Index) (v : Byte) (s : State) : (qramWrite a v s).phase = s.phase := rfl
@[simp] theorem qramWrite_qram (a : Index) (v : Byte) (s : State) : (qramWrite a v s).qram = Memory.write qramDefault s.qram a.toNat v := rfl
@[simp] theorem qramWrite_curMask (a : Index) (v : Byte) (s : State) : (qramWrite a v s).curMask = s.curMask := rfl
@[simp] theorem qramWrite_sampCnt (a : Index) (v : Byte) (s : State) : (qramWrite a v s).sampCnt = s.sampCnt := rfl
@[simp] theorem qramWrite_txShift (a : Index) (v : Byte) (s : State) : (qramWrite a v s).txShift = s.txShift := rfl
@[simp] theorem qramWrite_txCnt (a : Index) (v : Byte) (s : State) : (qramWrite a v s).txCnt = s.txCnt := rfl
@[simp] theorem qramWrite_padLatch (a : Index) (v : Byte) (s : State) : (qramWrite a v s).padLatch = s.padLatch := rfl
@[simp] theorem qramWrite_padClk (a : Index) (v : Byte) (s : State) : (qramWrite a v s).padClk = s.padClk := rfl
@[simp] theorem qramWrite_kbClk (a : Index) (v : Byte) (s : State) : (qramWrite a v s).kbClk = s.kbClk := rfl
@[simp] theorem qramWrite_kbData (a : Index) (v : Byte) (s : State) : (qramWrite a v s).kbData = s.kbData := rfl
@[simp] theorem qramWrite_now (a : Index) (v : Byte) (s : State) : (qramWrite a v s).now = s.now := rfl
@[simp] theorem qramWrite_nv (a : Index) (v : Byte) (s : State) : (qramWrite a v s).nv = s.nv := rfl
@[simp] theorem qramWrite_resetPin (a : Index) (v : Byte) (s : State) : (qramWrite a v s).resetPin = s.resetPin := rfl
@[simp] theorem qramWrite_timeIn (a : Index) (v : Byte) (s : State) : (qramWrite a v s).timeIn = s.timeIn := rfl
@[simp] theorem qramWrite_padIn (a : Index) (v : Byte) (s : State) : (qramWrite a v s).padIn = s.padIn := rfl
@[simp] theorem qramWrite_kbIn (a : Index) (v : Byte) (s : State) : (qramWrite a v s).kbIn = s.kbIn := rfl
@[simp] theorem qramWrite_draws (a : Index) (v : Byte) (s : State) : (qramWrite a v s).draws = s.draws := rfl
@[simp] theorem qramWrite_params (a : Index) (v : Byte) (s : State) : (qramWrite a v s).params = s.params := rfl
@[simp] theorem qramWrite_engine (a : Index) (v : Byte) (s : State) : (qramWrite a v s).engine = s.engine := rfl
@[simp] theorem qramWrite_busEntry (a : Index) (v : Byte) (s : State) : (qramWrite a v s).busEntry = s.busEntry := rfl
@[simp] theorem qramWrite_script (a : Index) (v : Byte) (s : State) : (qramWrite a v s).script = s.script := rfl
@[simp] theorem qramWrite_trace (a : Index) (v : Byte) (s : State) : (qramWrite a v s).trace = s.trace := rfl

/-! ### nvSet -/

@[simp] theorem nvSet_prevMask (v : Byte) (s : State) : (nvSet v s).prevMask = s.prevMask := rfl
@[simp] theorem nvSet_btn (v : Byte) (s : State) : (nvSet v s).btn = s.btn := rfl
@[simp] theorem nvSet_profile (v : Byte) (s : State) : (nvSet v s).profile = s.profile := rfl
@[simp] theorem nvSet_swapAB (v : Byte) (s : State) : (nvSet v s).swapAB = s.swapAB := rfl
@[simp] theorem nvSet_cfg (v : Byte) (s : State) : (nvSet v s).cfg = s.cfg := rfl
@[simp] theorem nvSet_head (v : Byte) (s : State) : (nvSet v s).head = s.head := rfl
@[simp] theorem nvSet_tail (v : Byte) (s : State) : (nvSet v s).tail = s.tail := rfl
@[simp] theorem nvSet_lastSend (v : Byte) (s : State) : (nvSet v s).lastSend = s.lastSend := rfl
@[simp] theorem nvSet_phase (v : Byte) (s : State) : (nvSet v s).phase = s.phase := rfl
@[simp] theorem nvSet_qram (v : Byte) (s : State) : (nvSet v s).qram = s.qram := rfl
@[simp] theorem nvSet_curMask (v : Byte) (s : State) : (nvSet v s).curMask = s.curMask := rfl
@[simp] theorem nvSet_sampCnt (v : Byte) (s : State) : (nvSet v s).sampCnt = s.sampCnt := rfl
@[simp] theorem nvSet_txShift (v : Byte) (s : State) : (nvSet v s).txShift = s.txShift := rfl
@[simp] theorem nvSet_txCnt (v : Byte) (s : State) : (nvSet v s).txCnt = s.txCnt := rfl
@[simp] theorem nvSet_padLatch (v : Byte) (s : State) : (nvSet v s).padLatch = s.padLatch := rfl
@[simp] theorem nvSet_padClk (v : Byte) (s : State) : (nvSet v s).padClk = s.padClk := rfl
@[simp] theorem nvSet_kbClk (v : Byte) (s : State) : (nvSet v s).kbClk = s.kbClk := rfl
@[simp] theorem nvSet_kbData (v : Byte) (s : State) : (nvSet v s).kbData = s.kbData := rfl
@[simp] theorem nvSet_now (v : Byte) (s : State) : (nvSet v s).now = s.now := rfl
@[simp] theorem nvSet_nv (v : Byte) (s : State) : (nvSet v s).nv = Memory.write (some nvErased) s.nv s.params.nvAddr v := rfl
@[simp] theorem nvSet_resetPin (v : Byte) (s : State) : (nvSet v s).resetPin = s.resetPin := rfl
@[simp] theorem nvSet_timeIn (v : Byte) (s : State) : (nvSet v s).timeIn = s.timeIn := rfl
@[simp] theorem nvSet_padIn (v : Byte) (s : State) : (nvSet v s).padIn = s.padIn := rfl
@[simp] theorem nvSet_kbIn (v : Byte) (s : State) : (nvSet v s).kbIn = s.kbIn := rfl
@[simp] theorem nvSet_draws (v : Byte) (s : State) : (nvSet v s).draws = s.draws := rfl
@[simp] theorem nvSet_params (v : Byte) (s : State) : (nvSet v s).params = s.params := rfl
@[simp] theorem nvSet_engine (v : Byte) (s : State) : (nvSet v s).engine = s.engine := rfl
@[simp] theorem nvSet_busEntry (v : Byte) (s : State) : (nvSet v s).busEntry = s.busEntry := rfl
@[simp] theorem nvSet_script (v : Byte) (s : State) : (nvSet v s).script = s.script := rfl
@[simp] theorem nvSet_trace (v : Byte) (s : State) : (nvSet v s).trace = s.trace := rfl

/-! ### nvWrite -/

@[simp] theorem nvWrite_prevMask (v : Byte) (s : State) : (nvWrite v s).prevMask = s.prevMask := rfl
@[simp] theorem nvWrite_btn (v : Byte) (s : State) : (nvWrite v s).btn = s.btn := rfl
@[simp] theorem nvWrite_profile (v : Byte) (s : State) : (nvWrite v s).profile = s.profile := rfl
@[simp] theorem nvWrite_swapAB (v : Byte) (s : State) : (nvWrite v s).swapAB = s.swapAB := rfl
@[simp] theorem nvWrite_cfg (v : Byte) (s : State) : (nvWrite v s).cfg = s.cfg := rfl
@[simp] theorem nvWrite_head (v : Byte) (s : State) : (nvWrite v s).head = s.head := rfl
@[simp] theorem nvWrite_tail (v : Byte) (s : State) : (nvWrite v s).tail = s.tail := rfl
@[simp] theorem nvWrite_lastSend (v : Byte) (s : State) : (nvWrite v s).lastSend = s.lastSend := rfl
@[simp] theorem nvWrite_phase (v : Byte) (s : State) : (nvWrite v s).phase = s.phase := rfl
@[simp] theorem nvWrite_qram (v : Byte) (s : State) : (nvWrite v s).qram = s.qram := rfl
@[simp] theorem nvWrite_curMask (v : Byte) (s : State) : (nvWrite v s).curMask = s.curMask := rfl
@[simp] theorem nvWrite_sampCnt (v : Byte) (s : State) : (nvWrite v s).sampCnt = s.sampCnt := rfl
@[simp] theorem nvWrite_txShift (v : Byte) (s : State) : (nvWrite v s).txShift = s.txShift := rfl
@[simp] theorem nvWrite_txCnt (v : Byte) (s : State) : (nvWrite v s).txCnt = s.txCnt := rfl
@[simp] theorem nvWrite_padLatch (v : Byte) (s : State) : (nvWrite v s).padLatch = s.padLatch := rfl
@[simp] theorem nvWrite_padClk (v : Byte) (s : State) : (nvWrite v s).padClk = s.padClk := rfl
@[simp] theorem nvWrite_kbClk (v : Byte) (s : State) : (nvWrite v s).kbClk = s.kbClk := rfl
@[simp] theorem nvWrite_kbData (v : Byte) (s : State) : (nvWrite v s).kbData = s.kbData := rfl
@[simp] theorem nvWrite_now (v : Byte) (s : State) : (nvWrite v s).now = s.now := rfl
@[simp] theorem nvWrite_nv (v : Byte) (s : State) : (nvWrite v s).nv = Memory.write (some nvErased) s.nv s.params.nvAddr v := rfl
@[simp] theorem nvWrite_resetPin (v : Byte) (s : State) : (nvWrite v s).resetPin = s.resetPin := rfl
@[simp] theorem nvWrite_timeIn (v : Byte) (s : State) : (nvWrite v s).timeIn = s.timeIn := rfl
@[simp] theorem nvWrite_padIn (v : Byte) (s : State) : (nvWrite v s).padIn = s.padIn := rfl
@[simp] theorem nvWrite_kbIn (v : Byte) (s : State) : (nvWrite v s).kbIn = s.kbIn := rfl
@[simp] theorem nvWrite_draws (v : Byte) (s : State) : (nvWrite v s).draws = s.draws := rfl
@[simp] theorem nvWrite_params (v : Byte) (s : State) : (nvWrite v s).params = s.params := rfl
@[simp] theorem nvWrite_engine (v : Byte) (s : State) : (nvWrite v s).engine = s.engine := rfl
@[simp] theorem nvWrite_busEntry (v : Byte) (s : State) : (nvWrite v s).busEntry = s.busEntry := rfl
@[simp] theorem nvWrite_script (v : Byte) (s : State) : (nvWrite v s).script = s.script := rfl
@[simp] theorem nvWrite_trace (v : Byte) (s : State) : (nvWrite v s).trace = .nvWrite v :: s.trace := rfl

/-! ### setBtn -/

@[simp] theorem setBtn_prevMask (i : Button) (v : Bool) (s : State) : (setBtn i v s).prevMask = s.prevMask := rfl
@[simp] theorem setBtn_btn (i : Button) (v : Bool) (s : State) : (setBtn i v s).btn = s.btn.set i.val v := rfl
@[simp] theorem setBtn_profile (i : Button) (v : Bool) (s : State) : (setBtn i v s).profile = s.profile := rfl
@[simp] theorem setBtn_swapAB (i : Button) (v : Bool) (s : State) : (setBtn i v s).swapAB = s.swapAB := rfl
@[simp] theorem setBtn_cfg (i : Button) (v : Bool) (s : State) : (setBtn i v s).cfg = s.cfg := rfl
@[simp] theorem setBtn_head (i : Button) (v : Bool) (s : State) : (setBtn i v s).head = s.head := rfl
@[simp] theorem setBtn_tail (i : Button) (v : Bool) (s : State) : (setBtn i v s).tail = s.tail := rfl
@[simp] theorem setBtn_lastSend (i : Button) (v : Bool) (s : State) : (setBtn i v s).lastSend = s.lastSend := rfl
@[simp] theorem setBtn_phase (i : Button) (v : Bool) (s : State) : (setBtn i v s).phase = s.phase := rfl
@[simp] theorem setBtn_qram (i : Button) (v : Bool) (s : State) : (setBtn i v s).qram = s.qram := rfl
@[simp] theorem setBtn_curMask (i : Button) (v : Bool) (s : State) : (setBtn i v s).curMask = s.curMask := rfl
@[simp] theorem setBtn_sampCnt (i : Button) (v : Bool) (s : State) : (setBtn i v s).sampCnt = s.sampCnt := rfl
@[simp] theorem setBtn_txShift (i : Button) (v : Bool) (s : State) : (setBtn i v s).txShift = s.txShift := rfl
@[simp] theorem setBtn_txCnt (i : Button) (v : Bool) (s : State) : (setBtn i v s).txCnt = s.txCnt := rfl
@[simp] theorem setBtn_padLatch (i : Button) (v : Bool) (s : State) : (setBtn i v s).padLatch = s.padLatch := rfl
@[simp] theorem setBtn_padClk (i : Button) (v : Bool) (s : State) : (setBtn i v s).padClk = s.padClk := rfl
@[simp] theorem setBtn_kbClk (i : Button) (v : Bool) (s : State) : (setBtn i v s).kbClk = s.kbClk := rfl
@[simp] theorem setBtn_kbData (i : Button) (v : Bool) (s : State) : (setBtn i v s).kbData = s.kbData := rfl
@[simp] theorem setBtn_now (i : Button) (v : Bool) (s : State) : (setBtn i v s).now = s.now := rfl
@[simp] theorem setBtn_nv (i : Button) (v : Bool) (s : State) : (setBtn i v s).nv = s.nv := rfl
@[simp] theorem setBtn_resetPin (i : Button) (v : Bool) (s : State) : (setBtn i v s).resetPin = s.resetPin := rfl
@[simp] theorem setBtn_timeIn (i : Button) (v : Bool) (s : State) : (setBtn i v s).timeIn = s.timeIn := rfl
@[simp] theorem setBtn_padIn (i : Button) (v : Bool) (s : State) : (setBtn i v s).padIn = s.padIn := rfl
@[simp] theorem setBtn_kbIn (i : Button) (v : Bool) (s : State) : (setBtn i v s).kbIn = s.kbIn := rfl
@[simp] theorem setBtn_draws (i : Button) (v : Bool) (s : State) : (setBtn i v s).draws = s.draws := rfl
@[simp] theorem setBtn_params (i : Button) (v : Bool) (s : State) : (setBtn i v s).params = s.params := rfl
@[simp] theorem setBtn_engine (i : Button) (v : Bool) (s : State) : (setBtn i v s).engine = s.engine := rfl
@[simp] theorem setBtn_busEntry (i : Button) (v : Bool) (s : State) : (setBtn i v s).busEntry = s.busEntry := rfl
@[simp] theorem setBtn_script (i : Button) (v : Bool) (s : State) : (setBtn i v s).script = s.script := rfl
@[simp] theorem setBtn_trace (i : Button) (v : Bool) (s : State) : (setBtn i v s).trace = s.trace := rfl

/-! ### drivePadLatch -/

@[simp] theorem drivePadLatch_prevMask (v : Bool) (s : State) : (drivePadLatch v s).prevMask = s.prevMask := rfl
@[simp] theorem drivePadLatch_btn (v : Bool) (s : State) : (drivePadLatch v s).btn = s.btn := rfl
@[simp] theorem drivePadLatch_profile (v : Bool) (s : State) : (drivePadLatch v s).profile = s.profile := rfl
@[simp] theorem drivePadLatch_swapAB (v : Bool) (s : State) : (drivePadLatch v s).swapAB = s.swapAB := rfl
@[simp] theorem drivePadLatch_cfg (v : Bool) (s : State) : (drivePadLatch v s).cfg = s.cfg := rfl
@[simp] theorem drivePadLatch_head (v : Bool) (s : State) : (drivePadLatch v s).head = s.head := rfl
@[simp] theorem drivePadLatch_tail (v : Bool) (s : State) : (drivePadLatch v s).tail = s.tail := rfl
@[simp] theorem drivePadLatch_lastSend (v : Bool) (s : State) : (drivePadLatch v s).lastSend = s.lastSend := rfl
@[simp] theorem drivePadLatch_phase (v : Bool) (s : State) : (drivePadLatch v s).phase = s.phase := rfl
@[simp] theorem drivePadLatch_qram (v : Bool) (s : State) : (drivePadLatch v s).qram = s.qram := rfl
@[simp] theorem drivePadLatch_curMask (v : Bool) (s : State) : (drivePadLatch v s).curMask = s.curMask := rfl
@[simp] theorem drivePadLatch_sampCnt (v : Bool) (s : State) : (drivePadLatch v s).sampCnt = s.sampCnt := rfl
@[simp] theorem drivePadLatch_txShift (v : Bool) (s : State) : (drivePadLatch v s).txShift = s.txShift := rfl
@[simp] theorem drivePadLatch_txCnt (v : Bool) (s : State) : (drivePadLatch v s).txCnt = s.txCnt := rfl
@[simp] theorem drivePadLatch_padLatch (v : Bool) (s : State) : (drivePadLatch v s).padLatch = v := rfl
@[simp] theorem drivePadLatch_padClk (v : Bool) (s : State) : (drivePadLatch v s).padClk = s.padClk := rfl
@[simp] theorem drivePadLatch_kbClk (v : Bool) (s : State) : (drivePadLatch v s).kbClk = s.kbClk := rfl
@[simp] theorem drivePadLatch_kbData (v : Bool) (s : State) : (drivePadLatch v s).kbData = s.kbData := rfl
@[simp] theorem drivePadLatch_now (v : Bool) (s : State) : (drivePadLatch v s).now = s.now := rfl
@[simp] theorem drivePadLatch_nv (v : Bool) (s : State) : (drivePadLatch v s).nv = s.nv := rfl
@[simp] theorem drivePadLatch_resetPin (v : Bool) (s : State) : (drivePadLatch v s).resetPin = s.resetPin := rfl
@[simp] theorem drivePadLatch_timeIn (v : Bool) (s : State) : (drivePadLatch v s).timeIn = s.timeIn := rfl
@[simp] theorem drivePadLatch_padIn (v : Bool) (s : State) : (drivePadLatch v s).padIn = s.padIn := rfl
@[simp] theorem drivePadLatch_kbIn (v : Bool) (s : State) : (drivePadLatch v s).kbIn = s.kbIn := rfl
@[simp] theorem drivePadLatch_draws (v : Bool) (s : State) : (drivePadLatch v s).draws = s.draws := rfl
@[simp] theorem drivePadLatch_params (v : Bool) (s : State) : (drivePadLatch v s).params = s.params := rfl
@[simp] theorem drivePadLatch_engine (v : Bool) (s : State) : (drivePadLatch v s).engine = s.engine := rfl
@[simp] theorem drivePadLatch_busEntry (v : Bool) (s : State) : (drivePadLatch v s).busEntry = s.busEntry := rfl
@[simp] theorem drivePadLatch_script (v : Bool) (s : State) : (drivePadLatch v s).script = s.script := rfl
@[simp] theorem drivePadLatch_trace (v : Bool) (s : State) : (drivePadLatch v s).trace = .padLatch v :: s.trace := rfl

/-! ### drivePadClk -/

@[simp] theorem drivePadClk_prevMask (v : Bool) (s : State) : (drivePadClk v s).prevMask = s.prevMask := rfl
@[simp] theorem drivePadClk_btn (v : Bool) (s : State) : (drivePadClk v s).btn = s.btn := rfl
@[simp] theorem drivePadClk_profile (v : Bool) (s : State) : (drivePadClk v s).profile = s.profile := rfl
@[simp] theorem drivePadClk_swapAB (v : Bool) (s : State) : (drivePadClk v s).swapAB = s.swapAB := rfl
@[simp] theorem drivePadClk_cfg (v : Bool) (s : State) : (drivePadClk v s).cfg = s.cfg := rfl
@[simp] theorem drivePadClk_head (v : Bool) (s : State) : (drivePadClk v s).head = s.head := rfl
@[simp] theorem drivePadClk_tail (v : Bool) (s : State) : (drivePadClk v s).tail = s.tail := rfl
@[simp] theorem drivePadClk_lastSend (v : Bool) (s : State) : (drivePadClk v s).lastSend = s.lastSend := rfl
@[simp] theorem drivePadClk_phase (v : Bool) (s : State) : (drivePadClk v s).phase = s.phase := rfl
@[simp] theorem drivePadClk_qram (v : Bool) (s : State) : (drivePadClk v s).qram = s.qram := rfl
@[simp] theorem drivePadClk_curMask (v : Bool) (s : State) : (drivePadClk v s).curMask = s.curMask := rfl
@[simp] theorem drivePadClk_sampCnt (v : Bool) (s : State) : (drivePadClk v s).sampCnt = s.sampCnt := rfl
@[simp] theorem drivePadClk_txShift (v : Bool) (s : State) : (drivePadClk v s).txShift = s.txShift := rfl
@[simp] theorem drivePadClk_txCnt (v : Bool) (s : State) : (drivePadClk v s).txCnt = s.txCnt := rfl
@[simp] theorem drivePadClk_padLatch (v : Bool) (s : State) : (drivePadClk v s).padLatch = s.padLatch := rfl
@[simp] theorem drivePadClk_padClk (v : Bool) (s : State) : (drivePadClk v s).padClk = v := rfl
@[simp] theorem drivePadClk_kbClk (v : Bool) (s : State) : (drivePadClk v s).kbClk = s.kbClk := rfl
@[simp] theorem drivePadClk_kbData (v : Bool) (s : State) : (drivePadClk v s).kbData = s.kbData := rfl
@[simp] theorem drivePadClk_now (v : Bool) (s : State) : (drivePadClk v s).now = s.now := rfl
@[simp] theorem drivePadClk_nv (v : Bool) (s : State) : (drivePadClk v s).nv = s.nv := rfl
@[simp] theorem drivePadClk_resetPin (v : Bool) (s : State) : (drivePadClk v s).resetPin = s.resetPin := rfl
@[simp] theorem drivePadClk_timeIn (v : Bool) (s : State) : (drivePadClk v s).timeIn = s.timeIn := rfl
@[simp] theorem drivePadClk_padIn (v : Bool) (s : State) : (drivePadClk v s).padIn = s.padIn := rfl
@[simp] theorem drivePadClk_kbIn (v : Bool) (s : State) : (drivePadClk v s).kbIn = s.kbIn := rfl
@[simp] theorem drivePadClk_draws (v : Bool) (s : State) : (drivePadClk v s).draws = s.draws := rfl
@[simp] theorem drivePadClk_params (v : Bool) (s : State) : (drivePadClk v s).params = s.params := rfl
@[simp] theorem drivePadClk_engine (v : Bool) (s : State) : (drivePadClk v s).engine = s.engine := rfl
@[simp] theorem drivePadClk_busEntry (v : Bool) (s : State) : (drivePadClk v s).busEntry = s.busEntry := rfl
@[simp] theorem drivePadClk_script (v : Bool) (s : State) : (drivePadClk v s).script = s.script := rfl
@[simp] theorem drivePadClk_trace (v : Bool) (s : State) : (drivePadClk v s).trace = .padClk v :: s.trace := rfl

/-! ### driveKbClk -/

@[simp] theorem driveKbClk_prevMask (d : Drive) (s : State) : (driveKbClk d s).prevMask = s.prevMask := rfl
@[simp] theorem driveKbClk_btn (d : Drive) (s : State) : (driveKbClk d s).btn = s.btn := rfl
@[simp] theorem driveKbClk_profile (d : Drive) (s : State) : (driveKbClk d s).profile = s.profile := rfl
@[simp] theorem driveKbClk_swapAB (d : Drive) (s : State) : (driveKbClk d s).swapAB = s.swapAB := rfl
@[simp] theorem driveKbClk_cfg (d : Drive) (s : State) : (driveKbClk d s).cfg = s.cfg := rfl
@[simp] theorem driveKbClk_head (d : Drive) (s : State) : (driveKbClk d s).head = s.head := rfl
@[simp] theorem driveKbClk_tail (d : Drive) (s : State) : (driveKbClk d s).tail = s.tail := rfl
@[simp] theorem driveKbClk_lastSend (d : Drive) (s : State) : (driveKbClk d s).lastSend = s.lastSend := rfl
@[simp] theorem driveKbClk_phase (d : Drive) (s : State) : (driveKbClk d s).phase = s.phase := rfl
@[simp] theorem driveKbClk_qram (d : Drive) (s : State) : (driveKbClk d s).qram = s.qram := rfl
@[simp] theorem driveKbClk_curMask (d : Drive) (s : State) : (driveKbClk d s).curMask = s.curMask := rfl
@[simp] theorem driveKbClk_sampCnt (d : Drive) (s : State) : (driveKbClk d s).sampCnt = s.sampCnt := rfl
@[simp] theorem driveKbClk_txShift (d : Drive) (s : State) : (driveKbClk d s).txShift = s.txShift := rfl
@[simp] theorem driveKbClk_txCnt (d : Drive) (s : State) : (driveKbClk d s).txCnt = s.txCnt := rfl
@[simp] theorem driveKbClk_padLatch (d : Drive) (s : State) : (driveKbClk d s).padLatch = s.padLatch := rfl
@[simp] theorem driveKbClk_padClk (d : Drive) (s : State) : (driveKbClk d s).padClk = s.padClk := rfl
@[simp] theorem driveKbClk_kbClk (d : Drive) (s : State) : (driveKbClk d s).kbClk = d := rfl
@[simp] theorem driveKbClk_kbData (d : Drive) (s : State) : (driveKbClk d s).kbData = s.kbData := rfl
@[simp] theorem driveKbClk_now (d : Drive) (s : State) : (driveKbClk d s).now = s.now := rfl
@[simp] theorem driveKbClk_nv (d : Drive) (s : State) : (driveKbClk d s).nv = s.nv := rfl
@[simp] theorem driveKbClk_resetPin (d : Drive) (s : State) : (driveKbClk d s).resetPin = s.resetPin := rfl
@[simp] theorem driveKbClk_timeIn (d : Drive) (s : State) : (driveKbClk d s).timeIn = s.timeIn := rfl
@[simp] theorem driveKbClk_padIn (d : Drive) (s : State) : (driveKbClk d s).padIn = s.padIn := rfl
@[simp] theorem driveKbClk_kbIn (d : Drive) (s : State) : (driveKbClk d s).kbIn = s.kbIn := rfl
@[simp] theorem driveKbClk_draws (d : Drive) (s : State) : (driveKbClk d s).draws = s.draws := rfl
@[simp] theorem driveKbClk_params (d : Drive) (s : State) : (driveKbClk d s).params = s.params := rfl
@[simp] theorem driveKbClk_engine (d : Drive) (s : State) : (driveKbClk d s).engine = s.engine := rfl
@[simp] theorem driveKbClk_busEntry (d : Drive) (s : State) : (driveKbClk d s).busEntry = s.busEntry := rfl
@[simp] theorem driveKbClk_script (d : Drive) (s : State) : (driveKbClk d s).script = s.script := rfl
@[simp] theorem driveKbClk_trace (d : Drive) (s : State) : (driveKbClk d s).trace = .kbClk d :: s.trace := rfl

/-! ### driveKbData -/

@[simp] theorem driveKbData_prevMask (d : Drive) (s : State) : (driveKbData d s).prevMask = s.prevMask := rfl
@[simp] theorem driveKbData_btn (d : Drive) (s : State) : (driveKbData d s).btn = s.btn := rfl
@[simp] theorem driveKbData_profile (d : Drive) (s : State) : (driveKbData d s).profile = s.profile := rfl
@[simp] theorem driveKbData_swapAB (d : Drive) (s : State) : (driveKbData d s).swapAB = s.swapAB := rfl
@[simp] theorem driveKbData_cfg (d : Drive) (s : State) : (driveKbData d s).cfg = s.cfg := rfl
@[simp] theorem driveKbData_head (d : Drive) (s : State) : (driveKbData d s).head = s.head := rfl
@[simp] theorem driveKbData_tail (d : Drive) (s : State) : (driveKbData d s).tail = s.tail := rfl
@[simp] theorem driveKbData_lastSend (d : Drive) (s : State) : (driveKbData d s).lastSend = s.lastSend := rfl
@[simp] theorem driveKbData_phase (d : Drive) (s : State) : (driveKbData d s).phase = s.phase := rfl
@[simp] theorem driveKbData_qram (d : Drive) (s : State) : (driveKbData d s).qram = s.qram := rfl
@[simp] theorem driveKbData_curMask (d : Drive) (s : State) : (driveKbData d s).curMask = s.curMask := rfl
@[simp] theorem driveKbData_sampCnt (d : Drive) (s : State) : (driveKbData d s).sampCnt = s.sampCnt := rfl
@[simp] theorem driveKbData_txShift (d : Drive) (s : State) : (driveKbData d s).txShift = s.txShift := rfl
@[simp] theorem driveKbData_txCnt (d : Drive) (s : State) : (driveKbData d s).txCnt = s.txCnt := rfl
@[simp] theorem driveKbData_padLatch (d : Drive) (s : State) : (driveKbData d s).padLatch = s.padLatch := rfl
@[simp] theorem driveKbData_padClk (d : Drive) (s : State) : (driveKbData d s).padClk = s.padClk := rfl
@[simp] theorem driveKbData_kbClk (d : Drive) (s : State) : (driveKbData d s).kbClk = s.kbClk := rfl
@[simp] theorem driveKbData_kbData (d : Drive) (s : State) : (driveKbData d s).kbData = d := rfl
@[simp] theorem driveKbData_now (d : Drive) (s : State) : (driveKbData d s).now = s.now := rfl
@[simp] theorem driveKbData_nv (d : Drive) (s : State) : (driveKbData d s).nv = s.nv := rfl
@[simp] theorem driveKbData_resetPin (d : Drive) (s : State) : (driveKbData d s).resetPin = s.resetPin := rfl
@[simp] theorem driveKbData_timeIn (d : Drive) (s : State) : (driveKbData d s).timeIn = s.timeIn := rfl
@[simp] theorem driveKbData_padIn (d : Drive) (s : State) : (driveKbData d s).padIn = s.padIn := rfl
@[simp] theorem driveKbData_kbIn (d : Drive) (s : State) : (driveKbData d s).kbIn = s.kbIn := rfl
@[simp] theorem driveKbData_draws (d : Drive) (s : State) : (driveKbData d s).draws = s.draws := rfl
@[simp] theorem driveKbData_params (d : Drive) (s : State) : (driveKbData d s).params = s.params := rfl
@[simp] theorem driveKbData_engine (d : Drive) (s : State) : (driveKbData d s).engine = s.engine := rfl
@[simp] theorem driveKbData_busEntry (d : Drive) (s : State) : (driveKbData d s).busEntry = s.busEntry := rfl
@[simp] theorem driveKbData_script (d : Drive) (s : State) : (driveKbData d s).script = s.script := rfl
@[simp] theorem driveKbData_trace (d : Drive) (s : State) : (driveKbData d s).trace = .kbData d :: s.trace := rfl

/-! ### What differs in the queue only is equal elsewhere -/

theorem QueueOnly.prevMask_eq {s t : State} (h : QueueOnly s t) : t.prevMask = s.prevMask := by rw [h]
theorem QueueOnly.btn_eq {s t : State} (h : QueueOnly s t) : t.btn = s.btn := by rw [h]
theorem QueueOnly.profile_eq {s t : State} (h : QueueOnly s t) : t.profile = s.profile := by rw [h]
theorem QueueOnly.swapAB_eq {s t : State} (h : QueueOnly s t) : t.swapAB = s.swapAB := by rw [h]
theorem QueueOnly.cfg_eq {s t : State} (h : QueueOnly s t) : t.cfg = s.cfg := by rw [h]
theorem QueueOnly.tail_eq {s t : State} (h : QueueOnly s t) : t.tail = s.tail := by rw [h]
theorem QueueOnly.lastSend_eq {s t : State} (h : QueueOnly s t) : t.lastSend = s.lastSend := by rw [h]
theorem QueueOnly.phase_eq {s t : State} (h : QueueOnly s t) : t.phase = s.phase := by rw [h]
theorem QueueOnly.curMask_eq {s t : State} (h : QueueOnly s t) : t.curMask = s.curMask := by rw [h]
theorem QueueOnly.sampCnt_eq {s t : State} (h : QueueOnly s t) : t.sampCnt = s.sampCnt := by rw [h]
theorem QueueOnly.txShift_eq {s t : State} (h : QueueOnly s t) : t.txShift = s.txShift := by rw [h]
theorem QueueOnly.txCnt_eq {s t : State} (h : QueueOnly s t) : t.txCnt = s.txCnt := by rw [h]
theorem QueueOnly.padLatch_eq {s t : State} (h : QueueOnly s t) : t.padLatch = s.padLatch := by rw [h]
theorem QueueOnly.padClk_eq {s t : State} (h : QueueOnly s t) : t.padClk = s.padClk := by rw [h]
theorem QueueOnly.kbClk_eq {s t : State} (h : QueueOnly s t) : t.kbClk = s.kbClk := by rw [h]
theorem QueueOnly.kbData_eq {s t : State} (h : QueueOnly s t) : t.kbData = s.kbData := by rw [h]
theorem QueueOnly.now_eq {s t : State} (h : QueueOnly s t) : t.now = s.now := by rw [h]
theorem QueueOnly.nv_eq {s t : State} (h : QueueOnly s t) : t.nv = s.nv := by rw [h]
theorem QueueOnly.resetPin_eq {s t : State} (h : QueueOnly s t) : t.resetPin = s.resetPin := by rw [h]
theorem QueueOnly.timeIn_eq {s t : State} (h : QueueOnly s t) : t.timeIn = s.timeIn := by rw [h]
theorem QueueOnly.padIn_eq {s t : State} (h : QueueOnly s t) : t.padIn = s.padIn := by rw [h]
theorem QueueOnly.kbIn_eq {s t : State} (h : QueueOnly s t) : t.kbIn = s.kbIn := by rw [h]
theorem QueueOnly.draws_eq {s t : State} (h : QueueOnly s t) : t.draws = s.draws := by rw [h]
theorem QueueOnly.params_eq {s t : State} (h : QueueOnly s t) : t.params = s.params := by rw [h]
theorem QueueOnly.engine_eq {s t : State} (h : QueueOnly s t) : t.engine = s.engine := by rw [h]
theorem QueueOnly.busEntry_eq {s t : State} (h : QueueOnly s t) : t.busEntry = s.busEntry := by rw [h]
theorem QueueOnly.script_eq {s t : State} (h : QueueOnly s t) : t.script = s.script := by rw [h]

/-- Nothing differs. -/
theorem QueueOnly.refl (s : State) : QueueOnly s s := rfl

/-- Differences in the queue only add up to differences in the queue only. -/
theorem QueueOnly.trans {s t u : State} (h : QueueOnly s t) (k : QueueOnly t u) : QueueOnly s u := by
  unfold QueueOnly at *
  rw [k, h]

end Sys2Proof.Machine
end

