-- ==== Sys2Proof/Laws/Queue.lean ====
section
/-! SUPPORT. What ENQUEUE and ENQUEUE_PAUSE do to the queue, once: which slots are written, what is dropped, what the count
becomes, and how appends compose. -/

namespace Sys2Proof.Machine

/-! ### Slots -/

/-- A queue read depends on the queue memory alone. -/
theorem qramRead_congr {s t : State} (h : t.qram = s.qram) (a : Index) : qramRead t a = qramRead s a := by
  unfold qramRead
  rw [h]

/-- A slot written is read back. -/
@[simp] theorem qramRead_qramWrite_same (a : Index) (v : Byte) (s : State) :
    qramRead (qramWrite a v s) a = some v :=
  Memory.read_write_same _ _ _ _ (.inl (by simp [qramDefault]))

/-- Writing a slot leaves the others alone. -/
theorem qramRead_qramWrite_other {a b : Index} (v : Byte) (s : State) (h : b ≠ a) :
    qramRead (qramWrite a v s) b = qramRead s b :=
  Memory.read_write_other _ _ _ fun e => h (BitVec.eq_of_toNat_eq e)

/-! ### Counts -/

/-- At most 63 bytes are resident (R105). -/
theorem count_le (s : State) : count s ≤ 63 := by
  have := (s.head - s.tail).isLt
  unfold count
  omega

/-- The queue is full exactly at 63 resident bytes (R105). -/
theorem queueFull_iff (s : State) : queueFull s = true ↔ count s = 63 := by
  unfold queueFull count
  rw [beq_iff_eq]
  constructor <;> intro h <;> bv_omega

/-- The queue is empty exactly at 0 resident bytes (R105). -/
theorem queueEmpty_iff (s : State) : queueEmpty s = true ↔ count s = 0 := by
  unfold queueEmpty count
  rw [beq_iff_eq]
  constructor <;> intro h <;> bv_omega

/-- The queue is full exactly when no slot is free. -/
theorem queueFull_iff_free (s : State) : queueFull s = true ↔ free s = 0 := by
  have := count_le s
  rw [queueFull_iff]
  unfold free
  omega

/-- Storing bytes that fit adds their number to the count. -/
theorem count_of_stored {bs lost : List Byte} {s t : State} (h : Stored bs lost s t) (hf : bs.length ≤ free s) :
    count t = count s + bs.length := by
  have ht := h.frame.tail_eq
  have hh := h.head_eq
  have := count_le s
  unfold free at hf
  unfold count at *
  rw [ht, hh]
  have : (s.head + BitVec.ofNat 6 bs.length - s.tail) = (s.head - s.tail) + BitVec.ofNat 6 bs.length := by
    rw [BitVec.sub_eq_add_neg, BitVec.sub_eq_add_neg, BitVec.add_assoc, BitVec.add_assoc,
      BitVec.add_comm (BitVec.ofNat 6 bs.length)]
  rw [this, BitVec.toNat_add, BitVec.toNat_ofNat, Nat.mod_eq_of_lt (a := bs.length) (by omega),
    Nat.mod_eq_of_lt (by omega)]

/-- Storing bytes that fit takes their number from the free slots. -/
theorem free_of_stored {bs lost : List Byte} {s t : State} (h : Stored bs lost s t) (hf : bs.length ≤ free s) :
    free t = free s - bs.length := by
  unfold free
  rw [count_of_stored h hf]
  omega

/-! ### One byte -/

/-- ENQUEUE on a full queue (R106). -/
theorem enqueue_of_full {s : State} (b : Byte) (h : queueFull s = true) :
    enqueue b s = noteAnomaly (.queueOverflow b) s := if_pos h

/-- ENQUEUE on a queue that is not full (R106). -/
theorem enqueue_of_not_full {s : State} (b : Byte) (h : queueFull s = false) :
    enqueue b s = { qramWrite s.head b s with head := s.head + 1 } := by
  unfold enqueue
  rw [if_neg (by simp [h])]
  rfl

/-- Nothing stored, nothing lost. -/
theorem Stored.nil (s : State) : Stored [] [] s s where
  head_eq := by simp
  slots := fun k h => absurd h (Nat.not_lt_zero k)
  others := fun _ _ => rfl
  notes := by simp
  frame := rfl

/-- ENQUEUE as a list of one byte (R106). -/
theorem enqueue_enqueuedInOrder (b : Byte) (s : State) : EnqueuedInOrder [b] s (enqueue b s) := by
  unfold EnqueuedInOrder
  cases hf : queueFull s with
  | true =>
    rw [(queueFull_iff_free s).1 hf, enqueue_of_full b hf]
    exact ⟨by simp, fun k h => absurd h (Nat.not_lt_zero k), fun _ _ => rfl, by simp, rfl⟩
  | false =>
    have h0 : free s ≠ 0 := fun h => by simp [(queueFull_iff_free s).2 h] at hf
    obtain ⟨n, hn⟩ := Nat.exists_eq_succ_of_ne_zero h0
    rw [hn, enqueue_of_not_full b hf]
    simp only [List.take_succ_cons, List.take_nil, List.drop_succ_cons, List.drop_nil]
    refine ⟨by simp, fun k h => ?_, fun a ha => ?_, by simp, rfl⟩
    · obtain rfl : k = 0 := by simpa using h
      rw [BitVec.ofNat_eq_ofNat, BitVec.add_zero]
      exact qramRead_qramWrite_same s.head b s
    · refine qramRead_qramWrite_other b s fun e => ?_
      subst e
      simp at ha

/-! ### Appends compose -/

/-- Two consecutive appends that fit in the memory are one append. -/
theorem Stored.append {as la bs lb : List Byte} {s t u : State} (h : Stored as la s t) (k : Stored bs lb t u)
    (hl : as.length + bs.length ≤ 64) : Stored (as ++ bs) (la ++ lb) s u where
  head_eq := by
    rw [k.head_eq, h.head_eq, BitVec.add_assoc, ← BitVec.ofNat_add, List.length_append]
  slots := by
    intro i hi
    rw [List.length_append] at hi
    by_cases hia : i < as.length
    · rw [List.getElem_append_left hia, ← h.slots i hia]
      refine k.others _ ?_
      rw [h.head_eq]
      have e : (s.head + BitVec.ofNat 6 i - (s.head + BitVec.ofNat 6 as.length)).toNat = 64 + i - as.length := by
        have := s.head.isLt
        simp only [BitVec.toNat_sub, BitVec.toNat_add, BitVec.toNat_ofNat]
        omega
      omega
    · have hib : i - as.length < bs.length := by omega
      rw [List.getElem_append_right (by omega), ← k.slots (i - as.length) hib, h.head_eq, BitVec.add_assoc,
        ← BitVec.ofNat_add, Nat.add_sub_cancel' (by omega)]
  others := by
    intro a ha
    rw [List.length_append] at ha
    have e : (a - t.head).toNat = (a - s.head).toNat - as.length := by
      rw [h.head_eq]
      have := s.head.isLt
      have := a.isLt
      simp only [BitVec.toNat_sub, BitVec.toNat_add, BitVec.toNat_ofNat] at ha ⊢
      omega
    rw [k.others a (by omega), h.others a (by omega)]
  notes := by rw [k.notes, h.notes]; simp
  frame := h.frame.trans k.frame

/-- The free slots after an append in order. -/
theorem EnqueuedInOrder.free_eq {bs : List Byte} {s t : State} (h : EnqueuedInOrder bs s t) :
    free t = free s - bs.length := by
  have hl : (bs.take (free s)).length ≤ free s := by simp
  rw [free_of_stored h hl, List.length_take]
  omega

/-- Enqueuing two lists one after the other is enqueuing them joined (R98, R168 (5)). -/
theorem EnqueuedInOrder.append {as bs : List Byte} {s t u : State} (h : EnqueuedInOrder as s t)
    (k : EnqueuedInOrder bs t u) : EnqueuedInOrder (as ++ bs) s u := by
  have hk : Stored (bs.take (free t)) (bs.drop (free t)) t u := k
  rw [h.free_eq] at hk
  have := Stored.append h hk (by
    have : free s ≤ 63 := by unfold free; omega
    simp only [List.length_take]; omega)
  unfold EnqueuedInOrder
  rw [List.take_append, List.drop_append]
  exact this

/-- Enqueuing nothing. -/
theorem EnqueuedInOrder.nil (s : State) : EnqueuedInOrder [] s s := by
  unfold EnqueuedInOrder
  simpa using Stored.nil s

/-- Enqueuing a list byte by byte (R95, R96, R98). -/
theorem enqueueAll_enqueuedInOrder (bs : List Byte) (s : State) : EnqueuedInOrder bs s (enqueueAll bs s) := by
  induction bs generalizing s with
  | nil => exact .nil s
  | cons b bs ih => exact (enqueue_enqueuedInOrder b s).append (ih (enqueue b s))

/-- Where the bytes fit, all are stored and none is lost. -/
theorem EnqueuedInOrder.stored {bs : List Byte} {s t : State} (h : EnqueuedInOrder bs s t) (hf : bs.length ≤ free s) :
    Stored bs [] s t := by
  unfold EnqueuedInOrder at h
  rwa [List.take_of_length_le hf, List.drop_of_length_le hf] at h

/-! ### The Pause sequence -/

/-- Stores into the queue change nothing but the queue memory. -/
theorem foldl_qramWrite (ks : List Nat) (f : Nat → Index) (g : Nat → Byte) (s : State) :
    ks.foldl (fun t k => qramWrite (f k) (g k) t) s =
      { s with qram := (ks.foldl (fun t k => qramWrite (f k) (g k) t) s).qram } := by
  induction ks generalizing s with
  | nil => rfl
  | cons k ks ih => rw [List.foldl_cons, ih]; rfl

/-- Stores into the queue leave every other slot alone. -/
theorem read_foldl_other (ks : List Nat) (f : Nat → Index) (g : Nat → Byte) (s : State) (a : Index)
    (h : ∀ k ∈ ks, a ≠ f k) : qramRead (ks.foldl (fun t k => qramWrite (f k) (g k) t) s) a = qramRead s a := by
  induction ks generalizing s with
  | nil => rfl
  | cons k ks ih =>
    rw [List.foldl_cons, ih _ fun j hj => h j (by simp [hj]), qramRead_qramWrite_other _ _ (h k (by simp))]

/-- Stores into distinct slots are read back. -/
theorem read_foldl_same (ks : List Nat) (f : Nat → Index) (g : Nat → Byte) (s : State) (k : Nat) (hk : k ∈ ks)
    (h : ks.Pairwise fun i j => f i ≠ f j) :
    qramRead (ks.foldl (fun t k => qramWrite (f k) (g k) t) s) (f k) = some (g k) := by
  induction ks generalizing s with
  | nil => cases hk
  | cons j ks ih =>
    rw [List.pairwise_cons] at h
    rcases List.mem_cons.1 hk with rfl | hk
    · rw [List.foldl_cons, read_foldl_other _ _ _ _ _ h.1, qramRead_qramWrite_same]
    · exact ih _ hk h.2

/-- The eight stores change nothing but the queue memory (R107). -/
theorem storePause_eq (s : State) : storePause s = { s with qram := (storePause s).qram } :=
  foldl_qramWrite _ (fun k => s.head + BitVec.ofNat 6 k) pauseByte s

/-- ENQUEUE_PAUSE with room (R107). -/
theorem enqueuePause_of_room {s : State} (h : 8 ≤ free s) :
    enqueuePause s = { s with qram := (storePause s).qram, head := s.head + 8 } := by
  unfold enqueuePause
  rw [if_neg (by omega), storePause_eq]

/-- ENQUEUE_PAUSE without room (R107, R162). -/
theorem enqueuePause_of_no_room {s : State} (h : free s < 8) :
    enqueuePause s = noteAnomaly (.pauseDropped (free s)) s := if_pos h

/-- The slots of the Pause sequence are distinct. -/
theorem pause_slots_distinct (h : Index) :
    [0, 1, 2, 3, 4, 5, 6, 7].Pairwise fun i j => h + BitVec.ofNat 6 i ≠ h + BitVec.ofNat 6 j := by
  have hne : ∀ i j : Nat, BitVec.ofNat 6 i ≠ BitVec.ofNat 6 j → h + BitVec.ofNat 6 i ≠ h + BitVec.ofNat 6 j :=
    fun i j hij e => hij (by simpa using e)
  exact List.Pairwise.imp (fun {i j} => hne i j) (by decide)

/-- The eight stores of the Pause sequence (R107). -/
theorem storePause_stored (s : State) :
    Stored Config.pauseSeq [] s { s with qram := (storePause s).qram, head := s.head + 8 } where
  head_eq := rfl
  slots := by
    intro k h
    have hk : k < 8 := h
    rw [qramRead_congr (s := storePause s) (by simp only)]
    refine (read_foldl_same _ (fun k => s.head + BitVec.ofNat 6 k) pauseByte s k (by simp; omega)
      (pause_slots_distinct s.head)).trans ?_
    rw [pauseByte, List.getD_eq_getElem _ _ h]
  others := by
    intro a ha
    have h8 : 8 ≤ (a - s.head).toNat := ha
    rw [qramRead_congr (s := storePause s) (by simp only)]
    refine read_foldl_other _ (fun k => s.head + BitVec.ofNat 6 k) pauseByte s a fun k hk e => ?_
    have hk : k < 8 := by simp at hk; omega
    rw [e] at h8
    have := s.head.isLt
    simp only [BitVec.toNat_sub, BitVec.toNat_add, BitVec.toNat_ofNat] at h8
    omega
  notes := rfl
  frame := rfl

/-- ENQUEUE_PAUSE: all eight bytes or none (R107). -/
theorem enqueuePause_pauseEnqueued (s : State) : PauseEnqueued s (enqueuePause s) := by
  by_cases h : 8 ≤ free s
  · exact .inl ⟨h, by rw [enqueuePause_of_room h]; exact storePause_stored s⟩
  · exact .inr ⟨by omega, enqueuePause_of_no_room (by omega)⟩

/-! ### The resident bytes -/

/-- What is stored where there is room stands behind the bytes already resident (R34, R105). -/
theorem resident_of_stored {bs lost : List Byte} {s t : State} (h : Stored bs lost s t) (hf : bs.length ≤ free s) :
    resident t = resident s ++ bs.map some := by
  have hc := count_of_stored h hf
  have hle := count_le s
  have hfree : free s = 63 - count s := rfl
  refine List.ext_getElem (by simp [resident, hc]) fun i h1 h2 => ?_
  have hi : i < count s + bs.length := by simpa [resident, hc] using h1
  have hcnt : (s.head - s.tail).toNat = count s := rfl
  have ht := s.tail.isLt
  have hh := s.head.isLt
  by_cases hic : i < count s
  · rw [List.getElem_append_left (by simpa [resident] using hic)]
    simp only [resident, List.getElem_map, List.getElem_range, h.frame.tail_eq]
    refine h.others _ ?_
    simp only [BitVec.toNat_sub, BitVec.toNat_add, BitVec.toNat_ofNat] at hcnt ⊢
    omega
  · rw [List.getElem_append_right (by simpa [resident] using hic)]
    simp only [resident, List.getElem_map, List.getElem_range, h.frame.tail_eq, List.length_map, List.length_range]
    rw [← h.slots (i - count s) (by omega)]
    congr 1
    refine BitVec.eq_of_toNat_eq ?_
    simp only [BitVec.toNat_sub, BitVec.toNat_add, BitVec.toNat_ofNat] at hcnt ⊢
    omega

end Sys2Proof.Machine
end

