-- ==== Sys2Proof/Laws/Encoder.lean ====
section
/-! SUPPORT. What ENC_PRESS, ENC_RELEASE, RELEASE_ALL and EDGE_SCAN do, once: the bytes they enqueue, the marks they leave, and
that they look at nothing but the queue. -/

namespace Sys2Proof.Machine

/-! ### Entry classes -/

/-- DISABLED is the code KEY_NONE (R55). -/
theorem cls_disabled_iff (e : Entry) : e.cls = .disabled ↔ e.code = Config.keyNone := by
  unfold Entry.cls
  split
  · simp [*]
  · split
    · simp_all
    · split <;> simp_all

/-- PAUSE is the code KEY_PAUSE (R55). -/
theorem cls_pause_iff (e : Entry) : e.cls = .pause ↔ e.code = Config.keyPause := by
  unfold Entry.cls
  split
  · rename_i h
    simp [h, Config.keyNone, Config.keyPause]
  · split
    · simp_all
    · split <;> simp_all

/-- EXTENDED is any other code with `ext` 1 (R55). -/
theorem cls_extended_iff (e : Entry) :
    e.cls = .extended ↔ e.code ≠ Config.keyNone ∧ e.code ≠ Config.keyPause ∧ e.ext = true := by
  unfold Entry.cls
  split
  · simp_all
  · split
    · simp_all
    · split <;> simp_all

/-- NORMAL is any other code with `ext` 0 (R55). -/
theorem cls_normal_iff (e : Entry) :
    e.cls = .normal ↔ e.code ≠ Config.keyNone ∧ e.code ≠ Config.keyPause ∧ e.ext = false := by
  unfold Entry.cls
  split
  · simp_all
  · split
    · simp_all
    · split <;> simp_all

/-! ### One press, one release -/

/-- ENC_PRESS of a DISABLED entry (R92). -/
theorem encPress_disabled {e : Entry} (s : State) (h : e.cls = .disabled) : encPress e s = s :=
  if_pos ((cls_disabled_iff e).1 h)

/-- ENC_PRESS of a PAUSE entry (R93). -/
theorem encPress_pause {e : Entry} (s : State) (h : e.cls = .pause) : encPress e s = enqueuePause s := by
  have h := (cls_pause_iff e).1 h
  unfold encPress
  rw [if_neg (by rw [h]; decide), if_pos h]

/-- ENC_PRESS of an ordinary entry (R95). -/
theorem encPress_ordinary {e : Entry} (s : State) (h : e.cls = .normal ∨ e.cls = .extended) :
    encPress e s = enqueueAll (pressBytes e) s := by
  unfold encPress pressBytes
  rcases h with h | h
  · obtain ⟨h1, h2, h3⟩ := (cls_normal_iff e).1 h
    simp [h, h1, h2, h3]
  · obtain ⟨h1, h2, h3⟩ := (cls_extended_iff e).1 h
    simp [h, h1, h2, h3]

/-- ENC_RELEASE of any entry enqueues its release bytes one at a time; a PAUSE or DISABLED entry has none (R91). -/
theorem encRelease_eq (e : Entry) (s : State) : encRelease e s = enqueueAll (releaseBytes e) s := by
  unfold encRelease releaseBytes
  cases h : e.cls with
  | disabled => rw [if_pos ((cls_disabled_iff e).1 h)]; rfl
  | pause =>
    have h := (cls_pause_iff e).1 h
    rw [if_neg (by rw [h]; decide), if_pos h]
    rfl
  | extended =>
    obtain ⟨h1, h2, h3⟩ := (cls_extended_iff e).1 h
    simp [h1, h2, h3]
  | normal =>
    obtain ⟨h1, h2, h3⟩ := (cls_normal_iff e).1 h
    simp [h1, h2, h3]

/-- ENC_RELEASE enqueues its bytes in order (R91, R98). -/
theorem encRelease_enqueuedInOrder (e : Entry) (s : State) : EnqueuedInOrder (releaseBytes e) s (encRelease e s) := by
  rw [encRelease_eq]
  exact enqueueAll_enqueuedInOrder _ s

/-- ENC_PRESS with room stores exactly its bytes, whatever the class (R90). -/
theorem encPress_stored (e : Entry) (s : State) (h : (pressBytes e).length ≤ free s) :
    Stored (pressBytes e) [] s (encPress e s) := by
  cases hc : e.cls with
  | disabled => rw [encPress_disabled s hc]; simpa [pressBytes, hc] using Stored.nil s
  | pause =>
    rw [encPress_pause s hc]
    have hb : pressBytes e = Config.pauseSeq := by simp [pressBytes, hc]
    rw [hb] at h ⊢
    rw [enqueuePause_of_room h]
    exact storePause_stored s
  | extended =>
    rw [encPress_ordinary s (.inr hc)]
    exact (enqueueAll_enqueuedInOrder _ s).stored h
  | normal =>
    rw [encPress_ordinary s (.inl hc)]
    exact (enqueueAll_enqueuedInOrder _ s).stored h

/-- ENC_PRESS writes the queue only (R90). -/
theorem encPress_queueOnly (e : Entry) (s : State) : QueueOnly s (encPress e s) := by
  cases hc : e.cls with
  | disabled => rw [encPress_disabled s hc]; exact .refl s
  | pause =>
    rw [encPress_pause s hc]
    rcases enqueuePause_pauseEnqueued s with ⟨-, h⟩ | ⟨-, h⟩
    · exact h.frame
    · rw [h]; rfl
  | extended => rw [encPress_ordinary s (.inr hc)]; exact (enqueueAll_enqueuedInOrder _ s).frame
  | normal => rw [encPress_ordinary s (.inl hc)]; exact (enqueueAll_enqueuedInOrder _ s).frame

/-- ENC_RELEASE writes the queue only (R91). -/
theorem encRelease_queueOnly (e : Entry) (s : State) : QueueOnly s (encRelease e s) :=
  (encRelease_enqueuedInOrder e s).frame

/-! ### The encoder does not look at `btn` or `swapAB` -/

/-- An update of the state that the encoder does not notice. -/
structure Unnoticed (f : State → State) : Prop where
  head : ∀ s, (f s).head = s.head
  tail : ∀ s, (f s).tail = s.tail
  qram : ∀ s, (f s).qram = s.qram
  note : ∀ a s, noteAnomaly a (f s) = f (noteAnomaly a s)
  store : ∀ m h s, { f s with qram := m, head := h } = f { s with qram := m, head := h }

/-- Setting `btn` is not noticed. -/
theorem unnoticed_btn (v : Vector Bool 8) : Unnoticed fun s => { s with btn := v } :=
  ⟨fun _ => rfl, fun _ => rfl, fun _ => rfl, fun _ _ => rfl, fun _ _ _ => rfl⟩

/-- Setting `swapAB` is not noticed. -/
theorem unnoticed_swap (v : Bool) : Unnoticed fun s => { s with swapAB := v } :=
  ⟨fun _ => rfl, fun _ => rfl, fun _ => rfl, fun _ _ => rfl, fun _ _ _ => rfl⟩

/-- The queue memory after the Pause stores depends on the queue alone. -/
theorem storePause_qram_congr {s t : State} (hq : t.qram = s.qram) (hh : t.head = s.head) :
    (storePause t).qram = (storePause s).qram := by
  have aux : ∀ (ks : List Nat) (f : Nat → Index) (g : Nat → Byte) (s t : State), t.qram = s.qram →
      (ks.foldl (fun t k => qramWrite (f k) (g k) t) t).qram =
        (ks.foldl (fun t k => qramWrite (f k) (g k) t) s).qram := by
    intro ks f g
    induction ks with
    | nil => exact fun _ _ h => h
    | cons k ks ih =>
      intro s t h
      rw [List.foldl_cons, List.foldl_cons]
      exact ih _ _ (by simp [h])
  unfold storePause
  rw [hh]
  exact aux _ _ _ _ _ hq

variable {f : State → State}

/-- ENQUEUE commutes with an update it does not notice. -/
theorem Unnoticed.enqueue (hf : Unnoticed f) (b : Byte) (s : State) :
    Machine.enqueue b (f s) = f (Machine.enqueue b s) := by
  have hq : queueFull (f s) = queueFull s := by unfold queueFull; rw [hf.head, hf.tail]
  cases h : queueFull s with
  | true => rw [enqueue_of_full b h, enqueue_of_full b (hq.trans h), hf.note]
  | false =>
    rw [enqueue_of_not_full b h, enqueue_of_not_full b (hq.trans h)]
    have := hf.store (Memory.write qramDefault s.qram s.head.toNat b) (s.head + 1) s
    simpa only [qramWrite, hf.head, hf.qram] using this

/-- Enqueuing a list commutes with an update it does not notice. -/
theorem Unnoticed.enqueueAll (hf : Unnoticed f) (bs : List Byte) (s : State) :
    Machine.enqueueAll bs (f s) = f (Machine.enqueueAll bs s) := by
  induction bs generalizing s with
  | nil => rfl
  | cons b bs ih =>
    change Machine.enqueueAll bs (Machine.enqueue b (f s)) = f (Machine.enqueueAll bs (Machine.enqueue b s))
    rw [hf.enqueue, ih]

/-- ENQUEUE_PAUSE commutes with an update it does not notice. -/
theorem Unnoticed.enqueuePause (hf : Unnoticed f) (s : State) :
    Machine.enqueuePause (f s) = f (Machine.enqueuePause s) := by
  have hq : free (f s) = free s := by unfold free count; rw [hf.head, hf.tail]
  by_cases h : 8 ≤ free s
  · rw [enqueuePause_of_room h, enqueuePause_of_room (hq ▸ h), storePause_qram_congr (hf.qram s) (hf.head s), hf.head]
    exact hf.store _ _ _
  · rw [enqueuePause_of_no_room (by omega), enqueuePause_of_no_room (by omega), hf.note, hq]

/-- ENC_PRESS commutes with an update it does not notice (R99 a). -/
theorem Unnoticed.encPress (hf : Unnoticed f) (e : Entry) (s : State) :
    Machine.encPress e (f s) = f (Machine.encPress e s) := by
  unfold Machine.encPress
  split
  · rfl
  · split
    · exact hf.enqueuePause s
    · exact hf.enqueueAll _ s

/-- ENC_RELEASE commutes with an update it does not notice (R99 a). -/
theorem Unnoticed.encRelease (hf : Unnoticed f) (e : Entry) (s : State) :
    Machine.encRelease e (f s) = f (Machine.encRelease e s) := by
  rw [encRelease_eq, encRelease_eq]
  exact hf.enqueueAll _ s

/-- What was stored does not depend on `btn`. -/
theorem Stored.withBtn {bs lost : List Byte} {s t : State} (v : Vector Bool 8)
    (h : Stored bs lost { s with btn := v } t) : Stored bs lost s { t with btn := s.btn } where
  head_eq := h.head_eq
  slots := fun k hk => (qramRead_congr (by simp only) _).trans (h.slots k hk)
  others := fun a ha => ((qramRead_congr (by simp only) a).trans (h.others a ha)).trans
    (qramRead_congr (by simp only) a)
  notes := h.notes
  frame := by
    have := h.frame
    unfold QueueOnly at this ⊢
    rw [this]

/-- What was enqueued in order does not depend on `btn`. -/
theorem EnqueuedInOrder.withBtn {bs : List Byte} {s t : State} (v : Vector Bool 8)
    (h : EnqueuedInOrder bs { s with btn := v } t) : EnqueuedInOrder bs s { t with btn := s.btn } :=
  Stored.withBtn v h

/-! ### RELEASE_ALL -/

/-- A fold of RELEASE_ALL's turns over distinct buttons (R97). -/
theorem foldl_releaseButton (p : Profile) (l : List Button) (hl : l.Nodup) (s : State) :
    ∃ u, EnqueuedInOrder ((l.filter fun i => s.btn[i.val]).flatMap fun i =>
        releaseBytes (lookupEntry s.params.lrom p i)) s u ∧
      l.foldl (releaseButton p) s = { u with btn := (l.foldl (releaseButton p) s).btn } ∧
      ∀ j : Button, (l.foldl (releaseButton p) s).btn[j.val] = (s.btn[j.val] && !decide (j ∈ l)) := by
  induction l generalizing s with
  | nil => exact ⟨s, .nil s, rfl, by simp⟩
  | cons i l ih =>
    rw [List.nodup_cons] at hl
    rw [List.foldl_cons]
    cases hb : s.btn[i.val] with
    | false =>
      have h1 : releaseButton p s i = s := by unfold releaseButton; rw [if_neg (by simp [hb])]
      rw [h1]
      obtain ⟨u, hu, he, hj⟩ := ih hl.2 s
      refine ⟨u, by simpa [hb] using hu, he, fun j => ?_⟩
      rw [hj j]
      by_cases hji : j = i
      · subst hji; simp [hb]
      · simp [hji]
    | true =>
      let v := encRelease (lookupEntry s.params.lrom p i) s
      have hv : EnqueuedInOrder (releaseBytes (lookupEntry s.params.lrom p i)) s v := encRelease_enqueuedInOrder _ s
      have h1 : releaseButton p s i = { v with btn := v.btn.set i.val false } := by
        unfold releaseButton; rw [if_pos hb]; rfl
      have hvb : v.btn = s.btn := hv.frame.btn_eq
      have hvp : v.params = s.params := hv.frame.params_eq
      rw [h1]
      obtain ⟨u, hu, he, hj⟩ := ih hl.2 { v with btn := v.btn.set i.val false }
      refine ⟨{ u with btn := v.btn }, ?_, ?_, fun j => ?_⟩
      · have hu' := hv.append (hu.withBtn _)
        refine Eq.subst (motive := fun bs => EnqueuedInOrder bs s _) ?_ hu'
        rw [List.filter_cons_of_pos (by simpa using hb), List.flatMap_cons]
        congr 1
        simp only [hvp]
        congr 1
        refine List.filter_congr fun j hj => ?_
        have hji : i ≠ j := fun e => hl.1 (e ▸ hj)
        have hji' : i.val ≠ j.val := fun e => hji (Fin.ext e)
        simp only [hvb, Vector.getElem_set_ne _ _ hji']
      · rw [he]
      · rw [hj j]
        simp only [hvb]
        by_cases hji : j = i
        · subst hji; simp
        · have hji' : i.val ≠ j.val := fun e => hji (Fin.ext e).symm
          simp [Vector.getElem_set_ne _ _ hji', hji]

/-- The eight buttons are distinct and complete. -/
theorem buttons_nodup : buttons.Nodup := by decide

/-- Every button is listed. -/
theorem mem_buttons (j : Button) : j ∈ buttons := by revert j; decide

/-- Vectors of eight marks are equal when they agree at every button. -/
theorem btn_ext {v w : Vector Bool 8} (h : ∀ j : Button, v[j.val] = w[j.val]) : v = w :=
  Vector.ext fun i hi => h ⟨i, hi⟩

/-- RELEASE_ALL: the release of every marked button in ascending order is enqueued, and no button stays marked (R97). -/
theorem releaseAll_spec (p : Profile) (s : State) : ∃ u, EnqueuedInOrder (releaseAllBytes p s) s u ∧
    releaseAll p s = { u with btn := Vector.replicate 8 false } := by
  obtain ⟨u, hu, he, hj⟩ := foldl_releaseButton p buttons buttons_nodup s
  refine ⟨u, hu, ?_⟩
  have hb : (buttons.foldl (releaseButton p) s).btn = Vector.replicate 8 false :=
    btn_ext fun j => by rw [hj j]; simp [mem_buttons j]
  rw [hb] at he
  exact he

/-! ### EDGE_SCAN -/

/-- The encoder call of one turn of EDGE_SCAN, if there is one (R137). -/
def turnCall (m : Mask) (s : State) (i : Button) : List Instr :=
  let e := lookupEntry s.params.lrom s.profile i
  if logical s.swapAB m i && !s.btn[i.val] then [.encPress e]
  else if !logical s.swapAB m i && s.btn[i.val] then [.encRelease e]
  else []

/-- The bytes of one turn of EDGE_SCAN (R137). -/
def turnBytes (m : Mask) (s : State) (i : Button) : List Byte :=
  let e := lookupEntry s.params.lrom s.profile i
  if logical s.swapAB m i && !s.btn[i.val] then pressBytes e
  else if !logical s.swapAB m i && s.btn[i.val] then releaseBytes e
  else []

/-- Running a list and then another is running them joined. -/
theorem runAll_append (is js : List Instr) {s t : State} (h : runAll is s = .next t) :
    runAll (is ++ js) s = runAll js t := by
  induction is generalizing s with
  | nil => cases h; rfl
  | cons i is ih =>
    simp only [List.cons_append, runAll] at h ⊢
    cases he : exec i s with
    | next v => rw [he] at h; exact ih h
    | fault r => rw [he] at h; cases h
    | refused r => rw [he] at h; cases h

/-- Encoder calls commute with an update they do not notice. -/
theorem Unnoticed.runAll (hf : Unnoticed f) (is : List Instr)
    (hi : ∀ i ∈ is, ∃ e, i = .encPress e ∨ i = .encRelease e) (s : State) :
    ∃ t, Machine.runAll is s = .next t ∧ Machine.runAll is (f s) = .next (f t) := by
  induction is generalizing s with
  | nil => exact ⟨s, rfl, rfl⟩
  | cons i is ih =>
    have ih := ih fun j hj => hi j (List.mem_cons_of_mem _ hj)
    obtain ⟨e, rfl | rfl⟩ := hi i (List.mem_cons_self ..)
    · obtain ⟨t, h1, h2⟩ := ih (Machine.encPress e s)
      refine ⟨t, h1, ?_⟩
      change Machine.runAll is (Machine.encPress e (f s)) = _
      rw [hf.encPress, h2]
    · obtain ⟨t, h1, h2⟩ := ih (Machine.encRelease e s)
      refine ⟨t, h1, ?_⟩
      change Machine.runAll is (Machine.encRelease e (f s)) = _
      rw [hf.encRelease, h2]

/-- A turn's call is an encoder call. -/
theorem turnCall_encoder (m : Mask) (s : State) (j : Button) :
    ∀ i ∈ turnCall m s j, ∃ e, i = .encPress e ∨ i = .encRelease e := by
  intro i hi
  unfold turnCall at hi
  simp only at hi
  split at hi
  · exact ⟨_, .inl (List.mem_singleton.1 hi)⟩
  · split at hi
    · exact ⟨_, .inr (List.mem_singleton.1 hi)⟩
    · cases hi

/-- One turn of EDGE_SCAN: its call runs, the queue only is written, the mark becomes the logical button, and where the bytes
fit they are all stored (R137). -/
theorem scanButton_spec (m : Mask) (s : State) (i : Button) :
    ∃ v, runAll (turnCall m s i) s = .next v ∧ QueueOnly s v ∧
      scanButton m s i = { v with btn := v.btn.set i.val (logical s.swapAB m i) } ∧
      ((turnBytes m s i).length ≤ free s → Stored (turnBytes m s i) [] s v) := by
  unfold turnCall turnBytes scanButton
  simp only
  cases hl : logical s.swapAB m i <;> cases hb : s.btn[i.val] <;> simp only [Bool.not_true, Bool.not_false,
    Bool.and_true, Bool.and_false, if_true, if_false, Bool.false_eq_true]
  · refine ⟨s, rfl, .refl s, ?_, fun _ => .nil s⟩
    have : s.btn.set i.val false = s.btn := btn_ext fun j => by
      rw [Vector.getElem_set]; split
      · rename_i h; simp [← h, hb]
      · rfl
    rw [this]
  · exact ⟨_, rfl, encRelease_queueOnly _ s, rfl, fun h => (encRelease_enqueuedInOrder _ s).stored h⟩
  · exact ⟨_, rfl, encPress_queueOnly _ s, rfl, fun h => encPress_stored _ s h⟩
  · refine ⟨s, rfl, .refl s, ?_, fun _ => .nil s⟩
    have : s.btn.set i.val true = s.btn := btn_ext fun j => by
      rw [Vector.getElem_set]; split
      · rename_i h; simp [← h, hb]
      · rfl
    rw [this]

/-- A fold of EDGE_SCAN's turns over distinct buttons (R137). -/
theorem foldl_scanButton (m : Mask) (l : List Button) (hl : l.Nodup) (s : State) :
    ∃ u, runAll (l.flatMap (turnCall m s)) s = .next u ∧ QueueOnly s u ∧
      l.foldl (scanButton m) s = { u with btn := (l.foldl (scanButton m) s).btn } ∧
      (∀ j : Button, (l.foldl (scanButton m) s).btn[j.val] =
        if j ∈ l then logical s.swapAB m j else s.btn[j.val]) ∧
      ((l.flatMap (turnBytes m s)).length ≤ free s → Stored (l.flatMap (turnBytes m s)) [] s u) := by
  induction l generalizing s with
  | nil => exact ⟨s, rfl, .refl s, rfl, by simp, fun _ => .nil s⟩
  | cons i l ih =>
    rw [List.nodup_cons] at hl
    obtain ⟨v, hrun, hq, hs, hst⟩ := scanButton_spec m s i
    rw [List.foldl_cons, hs]
    obtain ⟨u, hru, hqu, heu, hju, hstu⟩ := ih hl.2 { v with btn := v.btn.set i.val (logical s.swapAB m i) }
    have hvb := hq.btn_eq
    have hvp := hq.params_eq
    have hvs := hq.swapAB_eq
    have hvf := hq.profile_eq
    have hne : ∀ j ∈ l, (v.btn.set i.val (logical s.swapAB m i))[j.val] = s.btn[j.val] := fun j hj => by
      have : i.val ≠ j.val := fun e => hl.1 (Fin.ext e ▸ hj)
      rw [Vector.getElem_set_ne _ _ this, hvb]
    have hcall : l.flatMap (turnCall m { v with btn := v.btn.set i.val (logical s.swapAB m i) }) =
        l.flatMap (turnCall m s) := by
      refine List.flatMap_congr fun j hj => ?_
      simp only [turnCall, hvp, hvs, hvf, hne j hj]
    have hbytes : l.flatMap (turnBytes m { v with btn := v.btn.set i.val (logical s.swapAB m i) }) =
        l.flatMap (turnBytes m s) := by
      refine List.flatMap_congr fun j hj => ?_
      simp only [turnBytes, hvp, hvs, hvf, hne j hj]
    rw [hcall] at hru
    rw [hbytes] at hstu
    obtain ⟨w, hw1, hw2⟩ := (unnoticed_btn (v.btn.set i.val (logical s.swapAB m i))).runAll
      (l.flatMap (turnCall m s)) (fun k hk => by
        obtain ⟨j, -, hk⟩ := List.mem_flatMap.1 hk
        exact turnCall_encoder m s j k hk) v
    have hwu : u = { w with btn := v.btn.set i.val (logical s.swapAB m i) } := by
      rw [hw2] at hru
      exact (Host.Outcome.next.inj hru).symm
    have hqw : QueueOnly v { u with btn := v.btn } := by
      unfold QueueOnly at hqu ⊢
      rw [hqu]
    have hwv : w = { u with btn := v.btn } := by
      have hwb : w.btn = v.btn := by
        obtain ⟨w', h1', h2'⟩ := (unnoticed_btn v.btn).runAll (l.flatMap (turnCall m s)) (fun k hk => by
          obtain ⟨j, -, hk⟩ := List.mem_flatMap.1 hk
          exact turnCall_encoder m s j k hk) v
        have : ({ v with btn := v.btn } : State) = v := rfl
        rw [this] at h2'
        rw [hw1] at h1' h2'
        have e1 := Host.Outcome.next.inj h1'
        have e2 := Host.Outcome.next.inj h2'
        rw [e2]
      rw [hwu, ← hwb]
    refine ⟨w, ?_, ?_, ?_, fun j => ?_, fun hlen => ?_⟩
    · rw [List.flatMap_cons, runAll_append _ _ hrun, hw1]
    · rw [hwv]; exact hq.trans hqw
    · rw [heu, hwv]
    · rw [hju j]
      simp only [hvs]
      by_cases hjl : j ∈ l
      · simp [hjl]
      · by_cases hji : j = i
        · subst hji; simp [hjl]
        · have : i.val ≠ j.val := fun e => hji (Fin.ext e).symm
          simp [hjl, hji, Vector.getElem_set_ne _ _ this, hvb]
    · rw [List.flatMap_cons, List.length_append] at hlen
      have h1 := hst (by omega)
      have hfv := free_of_stored h1 (by omega)
      have h2 := (hstu (by
        have : free { v with btn := v.btn.set i.val (logical s.swapAB m i) } = free v := rfl
        omega)).withBtn
      have hfs : free s ≤ 63 := by unfold free; omega
      rw [List.flatMap_cons, hwv]
      exact Stored.append h1 h2 (by omega)

/-- EDGE_SCAN: the calls of every change run in ascending order, the marks become the logical mask (R136, R137). -/
theorem edgeScan_spec (m : Mask) (s : State) :
    ∃ u, runAll (edgeCalls m s) s = .next u ∧ QueueOnly s u ∧
      edgeScan m s = { u with btn := logicalButtons s.swapAB m } ∧
      ((edgeBytes m s).length ≤ free s → Stored (edgeBytes m s) [] s u) := by
  obtain ⟨u, hr, hq, he, hj, hst⟩ := foldl_scanButton m buttons buttons_nodup s
  refine ⟨u, hr, hq, ?_, hst⟩
  have hb : (buttons.foldl (scanButton m) s).btn = logicalButtons s.swapAB m :=
    btn_ext fun j => by rw [hj j]; simp [mem_buttons j, logicalButtons]
  rw [hb] at he
  exact he

/-- EDGE_SCAN changes nothing where `btn` is the logical mask already (R137). -/
theorem edgeScan_of_scanned (m : Mask) (s : State) (h : s.btn = logicalButtons s.swapAB m) : edgeScan m s = s := by
  have aux : ∀ l : List Button, l.foldl (scanButton m) s = s := by
    intro l
    induction l with
    | nil => rfl
    | cons i l ih =>
      have hi : s.btn[i.val] = logical s.swapAB m i := by rw [h]; simp [logicalButtons]
      have : scanButton m s i = s := by
        unfold scanButton
        cases hl : logical s.swapAB m i <;> simp [hi, hl]
      rw [List.foldl_cons, this, ih]
  exact aux buttons

end Sys2Proof.Machine
end

