-- ==== Sys2Proof/Laws/Transmitter.lean ====
section
/-! SUPPORT. What the time, the inputs, the frame loop and DRAIN do, once. -/

namespace Sys2Proof.Machine

/-! ### Time -/

/-- Two advances are one (R15, R194). -/
@[simp] theorem timeAdd_timeAdd (w : Option Nat) (t a b : Time) : timeAdd w (timeAdd w t a) b = timeAdd w t (a + b) := by
  cases w with
  | none => exact Nat.add_assoc t a b
  | some w => simp only [timeAdd, Nat.mod_add_mod, Nat.add_assoc]

/-- A bounded time stays in range (R15). -/
theorem timeAdd_lt (w : Nat) (t a : Time) : timeAdd (some w) t a < 2 ^ w := Nat.mod_lt _ (Nat.two_pow_pos w)

/-! ### Inputs -/

/-- A read of the time input changes the time and the inputs only (R15). -/
theorem readNow_frame (s : State) : readNow s =
    { s with timeIn := (readNow s).timeIn, draws := (readNow s).draws, now := (readNow s).now } := by
  unfold readNow; split <;> rfl

/-- A read of the time input advances the time (R15). -/
theorem readNow_now (s : State) : ∃ d, (readNow s).now = timeAdd s.params.timeW s.now d := by
  unfold readNow; split <;> exact ⟨_, rfl⟩

/-- A poll changes the inputs and the trace only (R111). -/
theorem pollLines_frame (s : State) : (pollLines s).2 =
    { s with kbIn := (pollLines s).2.kbIn, draws := (pollLines s).2.draws, trace := (pollLines s).2.trace } := by
  unfold pollLines readPeer; split <;> rfl

/-- A poll is recorded with the levels it answers. -/
theorem pollLines_trace (s : State) :
    (pollLines s).2.trace = .poll (pollLines s).1.1 (pollLines s).1.2 :: s.trace := by
  unfold pollLines readPeer; split <;> rfl

/-! ### The frame loop -/

/-- One turn of the frame loop (R113). -/
theorem txBit_eq (s : State) : txBit s =
    { s with
      kbClk := .release
      kbData := if s.txShift.getLsbD s.txCnt.toNat then .release else .low
      now := timeAdd s.params.timeW s.now (2 * s.params.tKbHalf)
      txCnt := s.txCnt + 1
      trace := (bitEvents s.params.tKbHalf (s.txShift.getLsbD s.txCnt.toNat)).reverse ++ s.trace } := by
  have h : timeAdd s.params.timeW s.now (s.params.tKbHalf + s.params.tKbHalf) =
      timeAdd s.params.timeW s.now (2 * s.params.tKbHalf) := by rw [Nat.two_mul]
  simp only [txBit, endBit, lowerKbClk, putBit, driveKbData, driveKbClk, delay, advance, emit, timeAdd_timeAdd, h, bitEvents, List.reverse_cons,
    List.reverse_nil, List.nil_append, List.cons_append]

/-- The first n turns of a frame, n at most 11 (R113). -/
theorem repeat_txBit (n : Nat) (k : Nat) (s : State) (hk : k + n ≤ 11) (hs : s.txCnt = BitVec.ofNat 4 k) :
    ∃ d, repeatOp txBit n s =
      { s with
        kbClk := if n = 0 then s.kbClk else .release
        kbData := d
        now := if n = 0 then s.now else timeAdd s.params.timeW s.now (n * (2 * s.params.tKbHalf))
        txCnt := BitVec.ofNat 4 (k + n)
        trace := ((List.range' k n).flatMap fun j => bitEvents s.params.tKbHalf (s.txShift.getLsbD j)).reverse ++
          s.trace } := by
  induction n generalizing k s with
  | zero => exact ⟨s.kbData, by simp [repeatOp, ← hs]⟩
  | succ n ih =>
    have h1 : (txBit s).txCnt = BitVec.ofNat 4 (k + 1) := by
      rw [txBit_eq, BitVec.ofNat_add]
      simp only [hs]
      rfl
    obtain ⟨d, hd⟩ := ih (k + 1) (txBit s) (by omega) h1
    refine ⟨d, ?_⟩
    have hk' : s.txCnt.toNat = k := by rw [hs, BitVec.toNat_ofNat, Nat.mod_eq_of_lt (by omega)]
    rw [repeatOp, hd, txBit_eq, hk']
    have e1 : BitVec.ofNat 4 (k + 1 + n) = BitVec.ofNat 4 (k + (n + 1)) := by congr 1; omega
    have e2 : (if n = 0 then timeAdd s.params.timeW s.now (2 * s.params.tKbHalf)
        else timeAdd s.params.timeW (timeAdd s.params.timeW s.now (2 * s.params.tKbHalf))
          (n * (2 * s.params.tKbHalf))) = timeAdd s.params.timeW s.now ((n + 1) * (2 * s.params.tKbHalf)) := by
      rw [timeAdd_timeAdd]
      split
      · rename_i h; subst h; rw [Nat.zero_add, Nat.one_mul]
      · rw [Nat.succ_mul n, Nat.add_comm]
    simp only [e1, e2, ite_self, List.range'_succ, List.flatMap_cons, List.reverse_append, List.append_assoc,
      Nat.add_one_ne_zero, if_false]

/-- One whole frame (R59, R113). -/
theorem sendFrame_eq (p : Bool) (d : Byte) (s : State) :
    sendFrame p d s =
      { s with
        txShift := frameBits p d
        txCnt := 11
        kbClk := .release
        kbData := .release
        now := timeAdd s.params.timeW s.now (22 * s.params.tKbHalf)
        trace := (frameEvents s.params.tKbHalf (frameBits p d)).reverse ++ s.trace } := by
  obtain ⟨x, hx⟩ := repeat_txBit 11 0 (startFrame p d s) (by omega) rfl
  have hn : 11 * (2 * s.params.tKbHalf) = 22 * s.params.tKbHalf := (Nat.mul_assoc 11 2 _).symm
  unfold sendFrame
  rw [hx]
  have hl : List.range' 0 11 = [0, 1, 2, 3, 4, 5, 6, 7, 8, 9, 10] := by decide
  simp only [endFrame, emit, driveKbData, startFrame, hl, hn, frameEvents, List.reverse_append,
    List.reverse_cons, List.reverse_nil, List.nil_append, List.cons_append, Nat.reduceAdd, if_false,
    OfNat.ofNat_ne_zero]
  rfl

/-- TX_BYTE: one frame, then the settle delay (R112, R113, R114). -/
theorem txByte_eq (b : Byte) (s : State) :
    txByte b s =
      { s with
        txShift := frameBits (parity b) b
        txCnt := 11
        kbClk := .release
        kbData := .release
        now := timeAdd s.params.timeW s.now (22 * s.params.tKbHalf + 150)
        trace := .delay 150 :: (frameEvents s.params.tKbHalf (frameBits (parity b) b)).reverse ++ s.trace } := by
  unfold txByte
  rw [sendFrame_eq]
  simp only [delay, advance, emit, timeAdd_timeAdd, Config.tSettle, List.cons_append]

/-! ### DRAIN -/

/-- A poll that finds both lines high lets DRAIN send (R111). -/
theorem waitThenSend_of_idle {s : State} (h : (pollLines s).1 = (true, true)) :
    waitThenSend s = sendOldest (pollLines s).2 := by
  unfold waitThenSend
  simp [h]

/-- Any other poll holds DRAIN (R111, R164). -/
theorem waitThenSend_of_busy {s : State} (h : (pollLines s).1 ≠ (true, true)) :
    waitThenSend s = .next (goto .idleWait (pollLines s).2) := by
  unfold waitThenSend
  rw [if_neg]
  intro e
  rw [Bool.and_eq_true] at e
  exact h (Prod.ext e.1 e.2)

/-- DRAIN behind a closed gate (R110). -/
theorem drain_of_closed {s : State} (h : gateOpen (readNow s) = false) : drain s = .next (goto .sample (readNow s)) := by
  unfold drain
  simp [h]

/-- DRAIN behind an open gate (R109). -/
theorem drain_of_open {s : State} (h : gateOpen (readNow s) = true) : drain s = waitThenSend (readNow s) := by
  unfold drain
  simp [h]

/-- The gate (R110). -/
theorem gateOpen_iff (s : State) :
    gateOpen s = true ↔ s.head ≠ s.tail ∧ 2500 ≤ timeSub s.params.timeW s.now s.lastSend := by
  simp only [gateOpen, queueEmpty, Config.tInterbyte, Bool.and_eq_true, Bool.not_eq_true', beq_eq_false_iff_ne, ne_eq]
  exact and_congr_right fun _ => decide_eq_true_iff

/-- Sending the byte at `tail` (R109, R115, R116). -/
theorem sendOldest_of_some {s : State} {b : Byte} (h : qramRead s s.tail = some b) :
    sendOldest s = .next (goto .sample (stampSend (consumeByte (txByte b s)))) := by
  unfold sendOldest
  simp [h]

/-- Without a byte at `tail` DRAIN stops (log 9). -/
theorem sendOldest_of_none {s : State} (h : qramRead s s.tail = none) :
    sendOldest s = .fault (.qramUnwritten s.tail.toNat) := by
  unfold sendOldest
  simp [h]

end Sys2Proof.Machine
end

