-- ==== Sys2Proof/Laws/Controller.lean ====
section
/-! SUPPORT. What SAMPLE, the settings operations, the configuration actions and RESET do, once. -/

namespace Sys2Proof.Machine

/-! ### SAMPLE -/

/-- The level the k-th read of PAD_DATA from s answers: the k-th input, or the free value drawn then (R72; log 7). -/
def levelAt (s : State) (k : Nat) : Bool :=
  (s.padIn[k]?).getD (Config.freePadLevel (s.draws + (k - s.padIn.length)))

/-- A read of PAD_DATA (R72). -/
theorem readPadData_eq (s : State) :
    readPadData s = (levelAt s 0, { s with padIn := s.padIn.drop 1, draws := s.draws + (1 - s.padIn.length) }) := by
  unfold readPadData levelAt
  cases h : s.padIn with
  | nil => simp
  | cons v rest => simp

/-- The mask with one bit set to a level. -/
theorem setMaskBit_getLsbD (m : Mask) (k : Nat) (v : Bool) (i : Nat) (hi : i < 8) :
    (setMaskBit m k v).getLsbD i = if i = k then v else m.getLsbD i := by
  unfold setMaskBit
  cases v with
  | true =>
    simp only [if_true, BitVec.getLsbD_or, BitVec.getLsbD_shiftLeft, hi, decide_true, Bool.true_and]
    by_cases h : i = k
    · simp [h]
    · rw [if_neg h]
      rcases Nat.lt_or_gt_of_ne h with h | h
      · simp [h]
      · have : i - k ≠ 0 := by omega
        simp [this, BitVec.getLsbD_one]
  | false =>
    simp only [Bool.false_eq_true, if_false, BitVec.getLsbD_and, BitVec.getLsbD_not, BitVec.getLsbD_shiftLeft, hi,
      decide_true, Bool.true_and]
    by_cases h : i = k
    · simp [h]
    · rw [if_neg h]
      rcases Nat.lt_or_gt_of_ne h with h | h
      · simp [h]
      · have : i - k ≠ 0 := by omega
        simp [this, BitVec.getLsbD_one]

/-- The events of one read of SAMPLE, oldest first (R71). -/
def readEvents : List Event := [.padClk true, .delay Config.tPadHalf, .padClk false, .delay Config.tPadHalf]

/-- The read of a turn (R70, R71). -/
theorem readBit_eq (s : State) : readBit s =
    { s with
      curMask := setMaskBit s.curMask s.sampCnt.toNat (levelAt s 0)
      padIn := s.padIn.drop 1
      draws := s.draws + (1 - s.padIn.length)
      padClk := true
      trace := .padClk true :: s.trace } := by
  unfold readBit
  rw [readPadData_eq]
  rfl

/-- One turn of the read loop (R70, R71). -/
theorem sampleBit_eq (s : State) : sampleBit s =
    { s with
      curMask := setMaskBit s.curMask s.sampCnt.toNat (levelAt s 0)
      sampCnt := s.sampCnt + 1
      padIn := s.padIn.drop 1
      draws := s.draws + (1 - s.padIn.length)
      padClk := false
      now := timeAdd s.params.timeW s.now 12
      trace := readEvents.reverse ++ s.trace } := by
  unfold sampleBit readBit
  rw [readPadData_eq]
  simp only [endRead, lowerPadClk, drivePadClk, delay, advance, emit, timeAdd_timeAdd, Config.tPadHalf, Nat.reduceAdd, readEvents,
    List.reverse_cons, List.reverse_nil, List.nil_append, List.cons_append]

/-- The levels still to come after a read. -/
theorem levelAt_sampleBit (s : State) (k : Nat) : levelAt (sampleBit s) k = levelAt s (k + 1) := by
  rw [sampleBit_eq]
  simp only [levelAt, List.getElem?_drop, List.length_drop]
  rw [Nat.add_comm 1 k]
  by_cases h : k + 1 < s.padIn.length
  · simp [h]
  · rw [List.getElem?_eq_none (by omega), Option.getD_none, Option.getD_none]
    congr 1
    omega

/-- The first n turns of the read loop, n at most 8 (R70). -/
theorem repeat_sampleBit (n k : Nat) (s : State) (hk : k + n ≤ 8) (hs : s.sampCnt = BitVec.ofNat 4 k) :
    ∃ m : Mask, (∀ i < 8, m.getLsbD i = if k ≤ i ∧ i < k + n then levelAt s (i - k) else s.curMask.getLsbD i) ∧
      repeatOp sampleBit n s =
        { s with
          curMask := m
          sampCnt := BitVec.ofNat 4 (k + n)
          padIn := s.padIn.drop n
          draws := s.draws + (n - s.padIn.length)
          padClk := if n = 0 then s.padClk else false
          now := if n = 0 then s.now else timeAdd s.params.timeW s.now (n * 12)
          trace := ((List.range n).flatMap fun _ => readEvents).reverse ++ s.trace } := by
  induction n generalizing k s with
  | zero =>
    refine ⟨s.curMask, fun i _ => ?_, ?_⟩
    · rw [if_neg (by omega)]
    · simp [repeatOp, ← hs]
  | succ n ih =>
    have h1 : (sampleBit s).sampCnt = BitVec.ofNat 4 (k + 1) := by
      rw [sampleBit_eq, BitVec.ofNat_add]
      simp only [hs]
      rfl
    have hk' : s.sampCnt.toNat = k := by rw [hs, BitVec.toNat_ofNat, Nat.mod_eq_of_lt (by omega)]
    obtain ⟨m, hm, hd⟩ := ih (k + 1) (sampleBit s) (by omega) h1
    refine ⟨m, fun i hi => ?_, ?_⟩
    · rw [hm i hi, levelAt_sampleBit]
      by_cases h2 : k + 1 ≤ i ∧ i < k + 1 + n
      · rw [if_pos h2, if_pos (by omega)]
        congr 1
        omega
      · rw [if_neg h2, sampleBit_eq]
        simp only [hk']
        rw [setMaskBit_getLsbD _ _ _ _ hi]
        by_cases h3 : i = k
        · rw [if_pos h3, if_pos (by omega), h3, Nat.sub_self]
        · rw [if_neg h3, if_neg (by omega)]
    · rw [repeatOp, hd, sampleBit_eq]
      have e1 : BitVec.ofNat 4 (k + 1 + n) = BitVec.ofNat 4 (k + (n + 1)) := by congr 1; omega
      have e2 : (if n = 0 then timeAdd s.params.timeW s.now 12
          else timeAdd s.params.timeW (timeAdd s.params.timeW s.now 12) (n * 12)) =
            timeAdd s.params.timeW s.now ((n + 1) * 12) := by
        rw [timeAdd_timeAdd]
        split
        · rename_i h; subst h; rfl
        · rw [Nat.succ_mul n, Nat.add_comm]
      have e3 : s.draws + (1 - s.padIn.length) + (n - (s.padIn.length - 1)) = s.draws + (n + 1 - s.padIn.length) := by
        omega
      simp only [e1, e2, e3, ite_self, List.drop_drop, List.length_drop, List.range_succ_eq_map, List.flatMap_cons,
        List.flatMap_map, List.reverse_append, List.append_assoc, Nat.add_one_ne_zero, if_false, Nat.add_comm 1 n]

/-- The latch pulse (R71). -/
theorem startSample_eq (s : State) : startSample s =
    { s with
      sampCnt := 0
      padLatch := false
      now := timeAdd s.params.timeW s.now 12
      trace := .padLatch false :: .delay 12 :: .padLatch true :: s.trace } := by
  simp only [startSample, lowerLatch, raiseLatch, drivePadLatch, delay, advance, emit, Config.tLatch]

/-- SAMPLE (R70, R71, R73). -/
theorem sample_eq (s : State) (m : Mask) (hm : ∀ i < 8, m.getLsbD i = levelAt s i) :
    sample s =
      { s with
        curMask := m
        sampCnt := 8
        padIn := s.padIn.drop 8
        draws := s.draws + (8 - s.padIn.length)
        padLatch := false
        padClk := false
        now := timeAdd s.params.timeW s.now 108
        trace := sampleEvents.reverse ++ s.trace } := by
  obtain ⟨m', hm', h⟩ := repeat_sampleBit 8 0 (startSample s) (by omega) (by rw [startSample_eq]; rfl)
  have hmm : m' = m := BitVec.eq_of_getLsbD_eq fun i hi => by
    rw [hm' i hi, if_pos (by omega), hm i hi, startSample_eq]
    simp only [levelAt, Nat.sub_zero]
  unfold sample
  rw [h, hmm, startSample_eq]
  have ht : ((List.range 8).flatMap fun _ => readEvents).reverse ++
      (.padLatch false :: .delay 12 :: .padLatch true :: s.trace) = sampleEvents.reverse ++ s.trace := rfl
  simp only [timeAdd_timeAdd, ht, Nat.reduceMul, Nat.reduceAdd, if_false, OfNat.ofNat_ne_zero, BitVec.ofNat_eq_ofNat]

/-- There is a mask of any eight levels. -/
theorem exists_mask (f : Nat → Bool) : ∃ m : Mask, ∀ i < 8, m.getLsbD i = f i :=
  ⟨BitVec.ofFnLE fun i : Fin 8 => f i.val, fun i hi => by simp [hi]⟩

/-- SAMPLE writes its registers, the inputs, the time and the trace (R70). -/
theorem sample_frame (s : State) : ∃ m, (∀ i < 8, m.getLsbD i = levelAt s i) ∧
    sample s =
      { s with
        curMask := m
        sampCnt := 8
        padIn := s.padIn.drop 8
        draws := s.draws + (8 - s.padIn.length)
        padLatch := false
        padClk := false
        now := timeAdd s.params.timeW s.now 108
        trace := sampleEvents.reverse ++ s.trace } :=
  let ⟨m, hm⟩ := exists_mask (levelAt s)
  ⟨m, hm, sample_eq s m hm⟩

/-- The levels of a mask byte are its bits (R35, R50). -/
theorem levelAt_maskLevels (s : State) (m : Mask) (rest : List Bool) (i : Nat) (hi : i < 8) :
    levelAt { s with padIn := maskLevels m ++ rest } i = m.getLsbD i := by
  unfold levelAt maskLevels buttons
  rcases i with _ | _ | _ | _ | _ | _ | _ | _ | i <;> first | rfl | omega

/-! ### Settings -/

/-- Bits 2:0 of the byte written are the settings (R53). -/
theorem settingsProfile_settingsByte (v : Bool) (p : Profile) : settingsProfile (settingsByte v p) = p := by
  revert v p; decide

/-- Bit 2 of the byte written is the swap flag (R53). -/
theorem settingsSwap_settingsByte (v : Bool) (p : Profile) : settingsSwap (settingsByte v p) = v := by
  revert v p; decide

/-- A byte written to the settings store is read back, also one that makes the address unlisted again. -/
theorem nvByteAt_write {s t : State} (a : Nat) (v : Byte) (hw : Memory.wf (some nvErased) s.nv = true)
    (h : t.nv = Memory.write (some nvErased) s.nv a v) : nvByteAt t a = v := by
  unfold nvByteAt
  rw [h, Memory.read_write_same _ _ _ _ (.inr hw), Option.getD_some]

/-- The settings byte is never the erased byte, so it is read back from any store. -/
theorem nvByteAt_settings {s t : State} (a : Nat) (v : Bool) (p : Profile)
    (h : t.nv = Memory.write (some nvErased) s.nv a (settingsByte v p)) : nvByteAt t a = settingsByte v p := by
  have hv : ∀ (v : Bool) (p : Profile), some (settingsByte v p) ≠ some nvErased := by decide
  unfold nvByteAt
  rw [h, Memory.read_write_same _ _ _ _ (.inl (hv v p)), Option.getD_some]

/-- Every other byte of the settings store is as before (R33). -/
theorem nvByteAt_write_other {s t : State} {a x : Nat} (v : Byte) (hx : x ≠ a)
    (h : t.nv = Memory.write (some nvErased) s.nv a v) : nvByteAt t x = nvByteAt s x := by
  unfold nvByteAt
  rw [h, Memory.read_write_other _ _ _ hx]

/-- NV_SAVE (R153). -/
theorem nvSave_eq (s : State) : nvSave s =
    { s with
      nv := Memory.write (some nvErased) s.nv s.params.nvAddr (settingsByte s.swapAB s.profile)
      now := timeAdd s.params.timeW s.now s.params.tNvWrite
      trace := .delay s.params.tNvWrite :: .nvWrite (settingsByte s.swapAB s.profile) :: s.trace } := by
  simp only [nvSave, nvWrite, nvSet, delay, advance, emit]

/-- NV_LOAD: the masked index is always valid, so nothing is repaired (R151, C1). -/
theorem nvLoad_eq (s : State) : nvLoad s =
    { s with
      profile := settingsProfile (nvByteAt s s.params.nvAddr)
      swapAB := settingsSwap (nvByteAt s s.params.nvAddr)
      trace := .nvRead (nvByteAt s s.params.nvAddr) :: s.trace } := by
  unfold nvLoad
  rw [if_pos (settingsProfile _).isLt]
  rfl

/-- DEBOUNCE (R139). -/
theorem debounce_eq (s : State) : debounce s =
    { s with
      nv := Memory.write (some nvErased) s.nv s.params.nvAddr (settingsByte s.swapAB s.profile)
      now := timeAdd s.params.timeW (timeAdd s.params.timeW s.now s.params.tNvWrite) 300000
      trace := .delay 300000 :: .delay s.params.tNvWrite :: .nvWrite (settingsByte s.swapAB s.profile) :: s.trace } := by
  unfold debounce
  rw [nvSave_eq]
  simp only [delay, advance, emit, Config.tDebounce]

/-- The end of an action (R140). -/
theorem endAction_eq (s : State) : endAction s =
    { s with
      prevMask := if s.params.cfgActionUpdatesPrev then s.curMask else s.prevMask
      phase := .drain
      engine := .off } := by
  unfold endAction
  cases h : s.params.cfgActionUpdatesPrev with
  | true => rw [if_pos rfl, if_pos rfl]; rfl
  | false => rw [if_neg Bool.false_ne_true, if_neg Bool.false_ne_true]; rfl

/-- The Select edge: `cfg` becomes selectPressed, and what is enqueued is enqueued in order (R128, R129). -/
theorem selectEdge_spec (s : State) : ∃ u bs, EnqueuedInOrder bs s u ∧
    selectEdge s = { u with btn := (selectEdge s).btn, cfg := selectPressed s.curMask } := by
  unfold selectEdge
  cases hp : selectPressed s.curMask <;> cases hc : s.cfg <;>
    simp only [Bool.not_true, Bool.not_false, Bool.and_true, Bool.and_false, if_true, if_false, Bool.false_eq_true]
  · exact ⟨s, [], .nil s, by rw [← hc]⟩
  · exact ⟨s, [], .nil s, rfl⟩
  · obtain ⟨u, hu, he⟩ := releaseAll_spec s.profile s
    exact ⟨u, _, hu, by simp only [cfgEnter, he]⟩
  · exact ⟨s, [], .nil s, by rw [← hc]⟩

/-- The register effects of an action (R131, R132, R133). -/
theorem applyAction_spec (a : Action) (s : State) :
    ∃ u bs, EnqueuedInOrder bs s u ∧ applyAction a s =
      { u with
        profile := actionProfile a s.profile
        swapAB := actionSwap a s.swapAB
        btn := actionBtn a s.btn } := by
  cases a with
  | swapA => exact ⟨s, [], .nil s, rfl⟩
  | swapB => exact ⟨s, [], .nil s, rfl⟩
  | layout n =>
    obtain ⟨u, hu, he⟩ := releaseAll_spec s.profile s
    refine ⟨u, _, hu, ?_⟩
    simp only [applyAction, he, actionProfile, actionSwap, actionBtn]
    rw [hu.frame.swapAB_eq]

end Sys2Proof.Machine
end

