-- ==== Sys2Proof/Laws/Exec.lean ====
section
/-! SUPPORT. What each arm of exec answers, in terms of the operations; and the runs of the machine. -/

namespace Sys2Proof.Machine

/-! ### The wire rows -/

theorem exec_makeOf (k : Key) (s : State) : exec (makeOf k) s = .next (encPress k.entry s) := by cases k <;> rfl
theorem exec_breakOf (k : Key) (s : State) : exec (breakOf k) s = .next (encRelease k.entry s) := by cases k <;> rfl
theorem exec_pauseMake (s : State) : exec .pauseMake s = .next (encPress pauseEntry s) := rfl
theorem exec_pauseBreak (s : State) : exec .pauseBreak s = .next (encRelease pauseEntry s) := rfl
theorem exec_disabledMake (s : State) : exec .disabledMake s = .next (encPress disabledEntry s) := rfl
theorem exec_disabledBreak (s : State) : exec .disabledBreak s = .next (encRelease disabledEntry s) := rfl
theorem exec_make1Generic (c : Byte) (s : State) : exec (.make1Generic c) s = .next (encPress ⟨false, c⟩ s) := rfl
theorem exec_break2Generic (c : Byte) (s : State) : exec (.break2Generic c) s = .next (encRelease ⟨false, c⟩ s) := rfl
theorem exec_xmake2Generic (c : Byte) (s : State) : exec (.xmake2Generic c) s = .next (encPress ⟨true, c⟩ s) := rfl
theorem exec_xbreak3Generic (c : Byte) (s : State) : exec (.xbreak3Generic c) s = .next (encRelease ⟨true, c⟩ s) := rfl

/-! ### The operations -/

theorem exec_sample (s : State) : exec .sample s = .next (goto .selectEdge (sample s)) := rfl
theorem exec_layoutLookup (p : Profile) (b : BitVec 3) (s : State) :
    exec (.layoutLookup p b) s = .next { s with busEntry := lookupEntry s.params.lrom p b.toFin } := rfl
theorem exec_encPress (e : Entry) (s : State) : exec (.encPress e) s = .next (encPress e s) := rfl
theorem exec_encRelease (e : Entry) (s : State) : exec (.encRelease e) s = .next (encRelease e s) := rfl
theorem exec_releaseAll (p : Profile) (s : State) : exec (.releaseAll p) s = .next (releaseAll p s) := rfl
theorem exec_enqueue (b : Byte) (s : State) : exec (.enqueue b) s = .next (enqueue b s) := rfl
theorem exec_enqueuePause (s : State) : exec .enqueuePause s = .next (enqueuePause s) := rfl
theorem exec_drain (s : State) : exec .drain s = drain s := rfl
theorem exec_idleWait (s : State) : exec .idleWait s = execIdleWait s := rfl
theorem exec_txByte (b : Byte) (s : State) : exec (.txByte b) s = .next (txByte b s) := rfl
theorem exec_cycle (s : State) : exec .cycle s = cycle s := rfl
theorem exec_cfgEnter (s : State) : exec .cfgEnter s = .next (goto .config (cfgEnter s)) := rfl
theorem exec_cfgExit (s : State) : exec .cfgExit s = .next (goto .normal (cfgExit s)) := rfl
theorem exec_cfgSwapA (s : State) : exec .cfgSwapA s = .next (runAction .swapA s) := rfl
theorem exec_cfgSwapB (s : State) : exec .cfgSwapB s = .next (runAction .swapB s) := rfl
theorem exec_cfgLayout (n : Profile) (s : State) : exec (.cfgLayout n) s = .next (runAction (.layout n) s) := rfl
theorem exec_edgeScan (m : Mask) (s : State) : exec (.edgeScan m) s = .next (goto .store (edgeScan m s)) := rfl
theorem exec_storePrev (m : Mask) (s : State) : exec (.storePrev m) s = .next (goto .drain (storePrev m s)) := rfl
theorem exec_debounce (s : State) : exec .debounce s = .next (goto .drain (debounce s)) := rfl
theorem exec_nvLoad (s : State) : exec .nvLoad s = .next (goto .drain (nvLoad s)) := rfl
theorem exec_nvSave (s : State) : exec .nvSave s = .next (nvSave s) := rfl
theorem exec_reset (s : State) : exec .reset s = .next (resetNow s) := rfl

/-! ### The formats -/

theorem exec_maskRow (k : Button) (m : Mask) (s : State) :
    exec (maskRow k m) s = cycle { s with padIn := maskLevels m } := by
  match k with
  | 0 | 1 | 2 | 3 | 4 | 5 | 6 | 7 => rfl
theorem exec_settings (v : Byte) (s : State) :
    exec (.settings v) s = .next (resetNow (nvSet v { s with engine := .off })) := rfl
theorem exec_entry (e : Entry) (s : State) : exec (.entry e) s = .next { s with busEntry := e } := rfl
theorem exec_frame (p : Bool) (d : Byte) (s : State) : exec (.frame p d) s = .next (sendFrame p d s) := rfl
theorem exec_padstream (r : Mask) (s : State) :
    exec (.padstream r) s = .next (goto .selectEdge (sample { s with padIn := maskLevels r ++ s.padIn })) := rfl

/-! ### Steps and runs -/

/-- A step from a state with no reset and no script word is the sequencer's. -/
theorem step_of_quiet {s : State} (hr : s.resetPin = false) (hs : s.script = []) : step s = sequencerStep s := by
  unfold step
  rw [if_neg (by simp [hr]), hs]

/-- A run of no step. -/
theorem core_run_zero (s : State) : Host.Core.run Sys2Proof.core 0 s = Host.Outcome.next s := rfl

/-- A run of the core, one step first. -/
theorem core_run_next {n : Nat} {s t : State} (h : step s = .next t) :
    Host.Core.run Sys2Proof.core (n + 1) s = Host.Core.run Sys2Proof.core n t := by
  have aux : ∀ (M : Host.Core) (s t : M.State), M.step s = .next t → M.run (n + 1) s = M.run n t := by
    intro M s t h
    simp only [Host.Core.run, h]
  exact aux Sys2Proof.core s t h

/-- A run of the core that faults at its first step. -/
theorem core_run_fault {n : Nat} {s : State} {r : Fault} (h : step s = .fault r) :
    Host.Core.run Sys2Proof.core (n + 1) s = Host.Outcome.fault r := by
  have aux : ∀ (M : Host.Core) (s : M.State) (r : M.Fault), M.step s = .fault r → M.run (n + 1) s = .fault r := by
    intro M s r h
    simp only [Host.Core.run, h]
  exact aux Sys2Proof.core s r h

/-- A run of m steps that goes on for n more. -/
theorem core_run_add {m n : Nat} {s t : State} (h : Host.Core.run Sys2Proof.core m s = Host.Outcome.next t) :
    Host.Core.run Sys2Proof.core (m + n) s = Host.Core.run Sys2Proof.core n t := by
  have aux : ∀ (M : Host.Core) (m : Nat) (s t : M.State), M.run m s = .next t → M.run (m + n) s = M.run n t := by
    intro M m
    induction m with
    | zero => intro s t h; cases h; rw [Nat.zero_add]
    | succ m ih =>
      intro s t h
      rw [Nat.add_right_comm]
      simp only [Host.Core.run] at h ⊢
      cases hs : M.step s with
      | next u => rw [hs] at h; exact ih u t h
      | fault r => rw [hs] at h; cases h
      | refused r => rw [hs] at h; cases h
  exact aux Sys2Proof.core m s t h

end Sys2Proof.Machine
end

