-- ==== Sys2Proof/Laws/Invariant.lean ====
section
/-! SUPPORT. Which operations keep the parts of the invariant: one lemma per operation. -/

namespace Sys2Proof.Machine

/-- The invariant without its clause on the pending byte: it does not look at the phase. -/
structure InvCore (s : State) : Prop where
  qram_wf : Memory.wf qramDefault s.qram = true
  qram_slots : ∀ c ∈ s.qram, c.1 < 64
  resident_written : ∀ k < count s, (qramRead s (s.tail + BitVec.ofNat 6 k)).isSome = true
  nv_wf : Memory.wf (some nvErased) s.nv = true
  time_order : s.params.timeW = none → s.lastSend ≤ s.now
  time_width : ∀ w, s.params.timeW = some w → s.now < 2 ^ w ∧ s.lastSend < 2 ^ w

/-- The invariant has a core. -/
theorem Inv.core {s : State} (h : Inv s) : InvCore s :=
  ⟨h.qram_wf, h.qram_slots, h.resident_written, h.nv_wf, h.time_order, h.time_width⟩

/-- The core and a pending byte make the invariant. -/
theorem InvCore.inv {s : State} (h : InvCore s)
    (p : s.phase = .idleWait ∨ s.phase = .tx ∨ s.phase = .settle → s.head ≠ s.tail) : Inv s :=
  ⟨h.qram_wf, h.qram_slots, h.resident_written, p, h.nv_wf, h.time_order, h.time_width⟩

/-- Between s and t the core is kept, a queue that is not empty stays so, and the phase is the same. -/
structure Keeps (s t : State) : Prop where
  core : InvCore s → InvCore t
  nonempty : s.head ≠ s.tail → t.head ≠ t.tail
  phase_eq : t.phase = s.phase

/-- Nothing keeps everything. -/
theorem Keeps.refl (s : State) : Keeps s s := ⟨id, id, rfl⟩

/-- Keeping composes. -/
theorem Keeps.trans {s t u : State} (h : Keeps s t) (k : Keeps t u) : Keeps s u :=
  ⟨fun x => k.core (h.core x), fun x => k.nonempty (h.nonempty x), k.phase_eq.trans h.phase_eq⟩

/-- What keeps, keeps the invariant. -/
theorem Inv.keeps {s t : State} (h : Inv s) (k : Keeps s t) : Inv t :=
  (k.core h.core).inv fun x => k.nonempty (h.pending (by rwa [k.phase_eq] at x))

/-- A phase that needs no pending byte. -/
theorem InvCore.goto {s : State} (h : InvCore s) (p : Phase) : InvCore (goto p s) :=
  ⟨h.qram_wf, h.qram_slots, h.resident_written, h.nv_wf, h.time_order, h.time_width⟩

/-- The invariant at a phase that needs no pending byte. -/
theorem InvCore.inv_goto {s : State} (h : InvCore s) {p : Phase} (hp : p ≠ .idleWait ∧ p ≠ .tx ∧ p ≠ .settle) :
    Inv (Machine.goto p s) :=
  (h.goto p).inv fun x => absurd x (by simp [hp])

/-! ### Updates that the invariant does not see -/

theorem keeps_trace (s : State) (v : List Event) : Keeps s { s with trace := v } :=
  ⟨fun ⟨a, b, c, d, e, f⟩ => ⟨a, b, c, d, e, f⟩, id, rfl⟩
theorem keeps_btn (s : State) (v : Vector Bool 8) : Keeps s { s with btn := v } :=
  ⟨fun ⟨a, b, c, d, e, f⟩ => ⟨a, b, c, d, e, f⟩, id, rfl⟩
theorem keeps_profile (s : State) (v : Profile) : Keeps s { s with profile := v } :=
  ⟨fun ⟨a, b, c, d, e, f⟩ => ⟨a, b, c, d, e, f⟩, id, rfl⟩
theorem keeps_swapAB (s : State) (v : Bool) : Keeps s { s with swapAB := v } :=
  ⟨fun ⟨a, b, c, d, e, f⟩ => ⟨a, b, c, d, e, f⟩, id, rfl⟩
theorem keeps_cfg (s : State) (v : Bool) : Keeps s { s with cfg := v } :=
  ⟨fun ⟨a, b, c, d, e, f⟩ => ⟨a, b, c, d, e, f⟩, id, rfl⟩
theorem keeps_prevMask (s : State) (v : Mask) : Keeps s { s with prevMask := v } :=
  ⟨fun ⟨a, b, c, d, e, f⟩ => ⟨a, b, c, d, e, f⟩, id, rfl⟩
theorem keeps_engine (s : State) (v : Engine) : Keeps s { s with engine := v } :=
  ⟨fun ⟨a, b, c, d, e, f⟩ => ⟨a, b, c, d, e, f⟩, id, rfl⟩
theorem keeps_script (s : State) (v : List CodeWord) : Keeps s { s with script := v } :=
  ⟨fun ⟨a, b, c, d, e, f⟩ => ⟨a, b, c, d, e, f⟩, id, rfl⟩
theorem keeps_padIn (s : State) (v : List Bool) : Keeps s { s with padIn := v } :=
  ⟨fun ⟨a, b, c, d, e, f⟩ => ⟨a, b, c, d, e, f⟩, id, rfl⟩
theorem keeps_resetPin (s : State) (v : Bool) : Keeps s { s with resetPin := v } :=
  ⟨fun ⟨a, b, c, d, e, f⟩ => ⟨a, b, c, d, e, f⟩, id, rfl⟩
theorem keeps_busEntry (s : State) (v : Entry) : Keeps s { s with busEntry := v } :=
  ⟨fun ⟨a, b, c, d, e, f⟩ => ⟨a, b, c, d, e, f⟩, id, rfl⟩
theorem keeps_frame (s : State) (v : BitVec 11) (n : BitVec 4) : Keeps s { s with txShift := v, txCnt := n } :=
  ⟨fun ⟨a, b, c, d, e, f⟩ => ⟨a, b, c, d, e, f⟩, id, rfl⟩

/-! ### The queue -/

/-- A store keeps the canonical form and the bounds of the queue memory. -/
theorem qramWrite_wf (s : State) (a : Index) (b : Byte) (h : Memory.wf qramDefault s.qram = true)
    (hs : ∀ c ∈ s.qram, c.1 < 64) :
    Memory.wf qramDefault (qramWrite a b s).qram = true ∧ ∀ c ∈ (qramWrite a b s).qram, c.1 < 64 := by
  refine ⟨Memory.wf_write _ _ _ _ h, fun c hc => ?_⟩
  rcases Memory.mem_write _ _ _ _ hc with h | ⟨h, -⟩
  · exact hs c h
  · rw [h]; exact a.isLt

/-- The queue is empty exactly when nothing is resident. -/
theorem count_eq_zero_iff (s : State) : count s = 0 ↔ s.head = s.tail := by
  unfold count
  constructor
  · intro h
    have : s.head - s.tail = 0 := BitVec.eq_of_toNat_eq h
    bv_omega
  · intro h
    rw [h, BitVec.sub_self]
    rfl

/-- Every resident slot stays written where bytes are stored that fit. -/
theorem resident_written_of_stored {bs lost : List Byte} {s t : State} (h : Stored bs lost s t) (hf : bs.length ≤ free s)
    (hr : ∀ k < count s, (qramRead s (s.tail + BitVec.ofNat 6 k)).isSome = true) :
    ∀ k < count t, (qramRead t (t.tail + BitVec.ofNat 6 k)).isSome = true := by
  intro k hk
  have hmem : qramRead t (t.tail + BitVec.ofNat 6 k) ∈ resident t :=
    List.mem_map.2 ⟨k, List.mem_range.2 hk, rfl⟩
  rw [resident_of_stored h hf, List.mem_append] at hmem
  rcases hmem with h | h
  · obtain ⟨j, hj, e⟩ := List.mem_map.1 h
    rw [← e]
    exact hr j (List.mem_range.1 hj)
  · obtain ⟨j, -, e⟩ := List.mem_map.1 h
    rw [← e]
    rfl

/-- Storing bytes that fit keeps the invariant. -/
theorem Stored.keeps {bs lost : List Byte} {s t : State} (h : Stored bs lost s t) (hf : bs.length ≤ free s)
    (hq : Memory.wf qramDefault s.qram = true → (∀ c ∈ s.qram, c.1 < 64) →
      Memory.wf qramDefault t.qram = true ∧ ∀ c ∈ t.qram, c.1 < 64) : Keeps s t := by
  refine ⟨fun x => ?_, fun x e => x ?_, h.frame.phase_eq⟩
  · obtain ⟨q1, q2⟩ := hq x.qram_wf x.qram_slots
    refine ⟨q1, q2, resident_written_of_stored h hf x.resident_written, ?_, ?_, ?_⟩
    · rw [h.frame.nv_eq]; exact x.nv_wf
    · rw [h.frame.params_eq, h.frame.now_eq, h.frame.lastSend_eq]; exact x.time_order
    · rw [h.frame.params_eq, h.frame.now_eq, h.frame.lastSend_eq]; exact x.time_width
  · have hc := count_of_stored h hf
    rw [← count_eq_zero_iff] at e ⊢
    omega

theorem keeps_enqueue (b : Byte) (s : State) : Keeps s (enqueue b s) := by
  cases hf : queueFull s with
  | true => rw [enqueue_of_full b hf]; exact keeps_trace s _
  | false =>
    have h0 : 1 ≤ free s := by
      by_contra h0
      rw [(queueFull_iff_free s).2 (by omega)] at hf
      cases hf
    refine ((enqueue_enqueuedInOrder b s).stored h0).keeps h0 ?_
    rw [enqueue_of_not_full b hf]
    exact qramWrite_wf s _ b

theorem keeps_enqueueAll (bs : List Byte) (s : State) : Keeps s (enqueueAll bs s) := by
  induction bs generalizing s with
  | nil => exact .refl s
  | cons b bs ih => exact (keeps_enqueue b s).trans (ih _)

theorem keeps_enqueuePause (s : State) : Keeps s (enqueuePause s) := by
  by_cases h : 8 ≤ free s
  · rw [enqueuePause_of_room h]
    refine (storePause_stored s).keeps h ?_
    have aux : ∀ (ks : List Nat) (f : Nat → Index) (g : Nat → Byte) (t : State),
        Memory.wf qramDefault t.qram = true → (∀ c ∈ t.qram, c.1 < 64) →
        Memory.wf qramDefault (ks.foldl (fun t k => qramWrite (f k) (g k) t) t).qram = true ∧
          ∀ c ∈ (ks.foldl (fun t k => qramWrite (f k) (g k) t) t).qram, c.1 < 64 := by
      intro ks f g
      induction ks with
      | nil => exact fun t a b => ⟨a, b⟩
      | cons k ks ih =>
        intro t a b
        obtain ⟨a', b'⟩ := qramWrite_wf t (f k) (g k) a b
        exact ih _ a' b'
    exact aux _ (fun k => s.head + BitVec.ofNat 6 k) pauseByte s
  · rw [enqueuePause_of_no_room (by omega)]
    exact keeps_trace s _

/-! ### The encoder and EDGE_SCAN -/

theorem keeps_encPress (e : Entry) (s : State) : Keeps s (encPress e s) := by
  unfold encPress
  split
  · exact .refl s
  · split
    · exact keeps_enqueuePause s
    · exact keeps_enqueueAll _ s

theorem keeps_encRelease (e : Entry) (s : State) : Keeps s (encRelease e s) := by
  rw [encRelease_eq]
  exact keeps_enqueueAll _ s

theorem keeps_setBtn (i : Button) (v : Bool) (s : State) : Keeps s (setBtn i v s) := keeps_btn s _

theorem keeps_foldl {f : State → Button → State} (hf : ∀ s i, Keeps s (f s i)) (l : List Button) (s : State) :
    Keeps s (l.foldl f s) := by
  induction l generalizing s with
  | nil => exact .refl s
  | cons i l ih => exact (hf s i).trans (ih _)

theorem keeps_releaseAll (p : Profile) (s : State) : Keeps s (releaseAll p s) := by
  refine keeps_foldl (fun s i => ?_) _ s
  unfold releaseButton
  split
  · exact (keeps_encRelease _ s).trans (keeps_setBtn _ _ _)
  · exact .refl s

theorem keeps_edgeScan (m : Mask) (s : State) : Keeps s (edgeScan m s) := by
  refine keeps_foldl (fun s i => ?_) _ s
  unfold scanButton
  simp only
  split
  · exact (keeps_encPress _ s).trans (keeps_setBtn _ _ _)
  · split
    · exact (keeps_encRelease _ s).trans (keeps_setBtn _ _ _)
    · exact .refl s

/-! ### Time and inputs -/

theorem keeps_now (s : State) (d : Time) : Keeps s { s with now := timeAdd s.params.timeW s.now d } := by
  refine ⟨fun x => ⟨x.qram_wf, x.qram_slots, x.resident_written, x.nv_wf, fun hw => ?_, fun w hw => ?_,⟩, id, rfl⟩
  · have hw : s.params.timeW = none := hw
    simp only [hw]
    exact Nat.le_trans (x.time_order hw) (Nat.le_add_right _ _)
  · have hw : s.params.timeW = some w := hw
    simp only [hw]
    exact ⟨timeAdd_lt _ _ _, (x.time_width w hw).2⟩

theorem keeps_delay (d : Time) (s : State) : Keeps s (delay d s) := (keeps_now s d).trans (keeps_trace _ _)

theorem keeps_readNow (s : State) : Keeps s (readNow s) := by
  obtain ⟨d, hd⟩ := readNow_now s
  rw [readNow_frame, hd]
  exact (keeps_now s d).trans ⟨fun ⟨a, b, c, d, e, f⟩ => ⟨a, b, c, d, e, f⟩, id, rfl⟩

theorem keeps_pollLines (s : State) : Keeps s (pollLines s).2 := by
  rw [pollLines_frame]
  exact ⟨fun ⟨a, b, c, d, e, f⟩ => ⟨a, b, c, d, e, f⟩, id, rfl⟩

/-! ### Settings -/

theorem keeps_nv (s : State) (a : Nat) (v : Byte) : Keeps s { s with nv := Memory.write (some nvErased) s.nv a v } :=
  ⟨fun ⟨a, b, c, d, e, f⟩ => ⟨a, b, c, Memory.wf_write _ _ _ _ d, e, f⟩, id, rfl⟩

theorem keeps_nvSave (s : State) : Keeps s (nvSave s) := by
  rw [nvSave_eq]
  exact ((keeps_nv s s.params.nvAddr (settingsByte s.swapAB s.profile)).trans (keeps_now _ s.params.tNvWrite)).trans
    (keeps_trace _ _)

theorem keeps_nvLoad (s : State) : Keeps s (nvLoad s) := by
  rw [nvLoad_eq]
  exact ⟨fun ⟨a, b, c, d, e, f⟩ => ⟨a, b, c, d, e, f⟩, id, rfl⟩

theorem keeps_debounce (s : State) : Keeps s (debounce s) := (keeps_nvSave s).trans (keeps_delay _ _)

/-! ### The serial engines -/

theorem keeps_putBit (s : State) : Keeps s (putBit s) :=
  ⟨fun ⟨a, b, c, d, e, f⟩ => ⟨a, b, c, d, e, f⟩, id, rfl⟩

theorem keeps_lowerKbClk (s : State) : Keeps s (lowerKbClk s) :=
  (keeps_delay s.params.tKbHalf s).trans ⟨fun ⟨a, b, c, d, e, f⟩ => ⟨a, b, c, d, e, f⟩, id, rfl⟩

theorem keeps_endBit (s : State) : Keeps s (endBit s) :=
  (keeps_delay s.params.tKbHalf s).trans ⟨fun ⟨a, b, c, d, e, f⟩ => ⟨a, b, c, d, e, f⟩, id, rfl⟩

theorem keeps_txBit (s : State) : Keeps s (txBit s) := by
  rw [txBit_eq]
  exact (keeps_now s (2 * s.params.tKbHalf)).trans
    ⟨fun ⟨a, b, c, d, e, f⟩ => ⟨a, b, c, d, e, f⟩, id, rfl⟩

theorem keeps_endFrame (s : State) : Keeps s (endFrame s) :=
  ⟨fun ⟨a, b, c, d, e, f⟩ => ⟨a, b, c, d, e, f⟩, id, rfl⟩

theorem keeps_sendFrame (p : Bool) (b : Byte) (s : State) : Keeps s (sendFrame p b s) := by
  rw [sendFrame_eq]
  exact (keeps_now s (22 * s.params.tKbHalf)).trans
    ⟨fun ⟨a, b, c, d, e, f⟩ => ⟨a, b, c, d, e, f⟩, id, rfl⟩

theorem keeps_txByte (b : Byte) (s : State) : Keeps s (txByte b s) := (keeps_sendFrame _ b s).trans (keeps_delay _ _)

theorem keeps_raiseLatch (s : State) : Keeps s (raiseLatch s) :=
  ⟨fun ⟨a, b, c, d, e, f⟩ => ⟨a, b, c, d, e, f⟩, id, rfl⟩

theorem keeps_lowerLatch (s : State) : Keeps s (lowerLatch s) :=
  (keeps_delay Config.tLatch s).trans ⟨fun ⟨a, b, c, d, e, f⟩ => ⟨a, b, c, d, e, f⟩, id, rfl⟩

theorem keeps_readBit (s : State) : Keeps s (readBit s) := by
  rw [readBit_eq]
  exact ⟨fun ⟨a, b, c, d, e, f⟩ => ⟨a, b, c, d, e, f⟩, id, rfl⟩

theorem keeps_lowerPadClk (s : State) : Keeps s (lowerPadClk s) :=
  (keeps_delay Config.tPadHalf s).trans ⟨fun ⟨a, b, c, d, e, f⟩ => ⟨a, b, c, d, e, f⟩, id, rfl⟩

theorem keeps_endRead (s : State) : Keeps s (endRead s) :=
  (keeps_delay Config.tPadHalf s).trans ⟨fun ⟨a, b, c, d, e, f⟩ => ⟨a, b, c, d, e, f⟩, id, rfl⟩

theorem keeps_startSample (s : State) : Keeps s (startSample s) := by
  rw [startSample_eq]
  exact (keeps_now s 12).trans ⟨fun ⟨a, b, c, d, e, f⟩ => ⟨a, b, c, d, e, f⟩, id, rfl⟩

theorem keeps_sampleBit (s : State) : Keeps s (sampleBit s) := by
  rw [sampleBit_eq]
  exact (keeps_now s 12).trans ⟨fun ⟨a, b, c, d, e, f⟩ => ⟨a, b, c, d, e, f⟩, id, rfl⟩

theorem keeps_sample (s : State) : Keeps s (sample s) := by
  obtain ⟨m, -, h⟩ := sample_frame s
  rw [h]
  exact (keeps_now s 108).trans ⟨fun ⟨a, b, c, d, e, f⟩ => ⟨a, b, c, d, e, f⟩, id, rfl⟩

/-! ### The controller -/

theorem keeps_cfgEnter (s : State) : Keeps s (cfgEnter s) := by
  unfold cfgEnter
  exact (keeps_releaseAll s.profile s).trans (keeps_cfg (releaseAll s.profile s) true)

theorem keeps_selectEdge (s : State) : Keeps s (selectEdge s) := by
  unfold selectEdge
  split
  · exact keeps_cfgEnter s
  · split
    · exact keeps_cfg s false
    · exact .refl s

theorem keeps_applyAction (a : Action) (s : State) : Keeps s (applyAction a s) := by
  cases a with
  | swapA => exact keeps_swapAB s false
  | swapB => exact keeps_swapAB s true
  | layout n =>
    have h := keeps_releaseAll s.profile s
    simp only [applyAction]
    generalize releaseAll s.profile s = x at h ⊢
    exact h.trans ⟨fun ⟨a, b, c, d, e, f⟩ => ⟨a, b, c, d, e, f⟩, id, rfl⟩

/-- The end of an action is between cycles. -/
theorem InvCore.endAction {s : State} (h : InvCore s) : Inv (endAction s) := by
  unfold Machine.endAction
  refine InvCore.inv_goto ?_ (by decide)
  split
  · exact (keeps_prevMask s _).core h
  · exact h

theorem InvCore.runAction {s : State} (h : InvCore s) (a : Action) : Inv (runAction a s) :=
  ((keeps_debounce _).core ((keeps_applyAction a s).core h)).endAction

/-! ### Sending, cycles and RESET -/

/-- Consuming a byte of a queue that is not empty (R41, R116). -/
theorem InvCore.consumeByte {s : State} (h : InvCore s) (hn : s.head ≠ s.tail) : InvCore (consumeByte s) := by
  refine ⟨h.qram_wf, h.qram_slots, fun k hk => ?_, h.nv_wf, h.time_order, h.time_width⟩
  have h0 : count s ≠ 0 := fun h0 => hn ((count_eq_zero_iff s).1 h0)
  have hc : count (Machine.consumeByte s) = count s - 1 := by
    have := s.head.isLt
    have := s.tail.isLt
    simp only [count, Machine.consumeByte, BitVec.toNat_sub, BitVec.toNat_add, BitVec.ofNat_eq_ofNat,
      BitVec.toNat_ofNat] at h0 ⊢
    omega
  have ht : (Machine.consumeByte s).tail + BitVec.ofNat 6 k = s.tail + BitVec.ofNat 6 (k + 1) := by
    rw [BitVec.ofNat_add, BitVec.add_comm (BitVec.ofNat 6 k), ← BitVec.add_assoc]
    rfl
  rw [ht]
  exact h.resident_written (k + 1) (by omega)

/-- The send timestamp is the time of its read (R115). -/
theorem InvCore.stampSend {s : State} (h : InvCore s) : InvCore (stampSend s) := by
  have h := (keeps_readNow s).core h
  exact ⟨h.qram_wf, h.qram_slots, h.resident_written, h.nv_wf, fun _ => Nat.le_refl _,
    fun w hw => ⟨(h.time_width w hw).1, (h.time_width w hw).1⟩⟩

theorem InvCore.sendOldest {s t : State} (h : InvCore s) (hn : s.head ≠ s.tail) (ht : sendOldest s = .next t) : Inv t := by
  unfold Machine.sendOldest at ht
  split at ht
  · cases ht
  · rename_i b hb
    rw [← Host.Outcome.next.inj ht]
    exact (((keeps_txByte b s).core h).consumeByte ((keeps_txByte b s).nonempty hn)).stampSend.inv_goto (by decide)

theorem InvCore.waitThenSend {s t : State} (h : InvCore s) (hn : s.head ≠ s.tail) (ht : waitThenSend s = .next t) :
    Inv t := by
  by_cases hp : (pollLines s).1 = (true, true)
  · rw [waitThenSend_of_idle hp] at ht
    exact ((keeps_pollLines s).core h).sendOldest ((keeps_pollLines s).nonempty hn) ht
  · rw [waitThenSend_of_busy hp] at ht
    rw [← Host.Outcome.next.inj ht]
    exact (((keeps_pollLines s).core h).goto _).inv fun _ => (keeps_pollLines s).nonempty hn

theorem InvCore.drain {s t : State} (h : InvCore s) (ht : drain s = .next t) : Inv t := by
  have h := (keeps_readNow s).core h
  cases hg : gateOpen (readNow s) with
  | false =>
    rw [drain_of_closed hg] at ht
    rw [← Host.Outcome.next.inj ht]
    exact h.inv_goto (by decide)
  | true =>
    rw [drain_of_open hg] at ht
    exact h.waitThenSend ((gateOpen_iff _).1 hg).1 ht

theorem InvCore.afterDrain {s : State} (h : InvCore s) : Inv (afterDrain s) := by
  have h := (keeps_selectEdge _).core ((keeps_sample s).core h)
  unfold Machine.afterDrain
  generalize selectEdge (sample s) = x at *
  have hs : Inv (Machine.goto .drain (storePrev x.curMask (edgeScan x.curMask x))) :=
    ((keeps_prevMask _ x.curMask).core ((keeps_edgeScan x.curMask x).core h)).inv_goto (by decide)
  unfold steps4to6
  simp only
  split
  · split
    · exact h.runAction _
    · exact hs
  · exact hs

theorem completeCycle_inv {o : Host.Outcome State Fault Refusal} {t : State} (h : ∀ u, o = .next u → Inv u)
    (ht : completeCycle o = .next t) : Inv t := by
  cases o with
  | next s =>
    rw [← Host.Outcome.next.inj ht]
    split
    · exact h s rfl
    · exact (h s rfl).core.afterDrain
  | fault r => cases ht
  | refused r => cases ht

theorem Inv.cycle {s t : State} (h : Inv s) (ht : cycle s = .next t) : Inv t := by
  unfold Machine.cycle at ht
  cases hp : s.phase <;> rw [hp] at ht
  case idleWait => exact completeCycle_inv (fun u hu => h.core.waitThenSend (h.pending (.inl hp)) hu) ht
  case resetLoad => exact completeCycle_inv (fun u hu => ((keeps_nvLoad s).core h.core).drain hu) ht
  all_goals exact completeCycle_inv (fun u hu => h.core.drain hu) ht

theorem InvCore.resetConstants {s : State} (h : InvCore s) : InvCore (resetConstants s) := by
  refine ⟨rfl, fun c hc => (nomatch hc), fun k hk => ?_, h.nv_wf, fun _ => Nat.le_refl _,
    fun w _ => ⟨Nat.two_pow_pos w, Nat.two_pow_pos w⟩⟩
  have : count (Machine.resetConstants s) = 0 := by simp [count, Machine.resetConstants]
  omega

theorem InvCore.interruptWrite {s : State} (h : InvCore s) : InvCore (interruptWrite s) := by
  unfold Machine.interruptWrite
  split
  · have h := (keeps_nv s s.params.nvAddr (Config.freeNvByte s.draws)).core h
    exact ⟨h.qram_wf, h.qram_slots, h.resident_written, h.nv_wf, h.time_order, h.time_width⟩
  · exact h

theorem InvCore.resetNow {s : State} (h : InvCore s) : Inv (resetNow s) := by
  have h := (keeps_nvLoad _).core h.interruptWrite.resetConstants
  have hl : (nvLoad (Machine.resetConstants (Machine.interruptWrite s))).lastSend = 0 := by rw [nvLoad_eq]; rfl
  unfold Machine.resetNow
  simp only
  generalize nvLoad (Machine.resetConstants (Machine.interruptWrite s)) = x at *
  have h0 : InvCore { x with now := 0 } := by
    refine ⟨h.qram_wf, h.qram_slots, h.resident_written, h.nv_wf, fun _ => ?_, fun w _ => ?_⟩
    · simp only [hl]; exact Nat.le_refl 0
    · simp only [hl]; exact ⟨Nat.two_pow_pos w, Nat.two_pow_pos w⟩
  exact h0.inv_goto (by decide)

theorem InvCore.assertReset {s : State} (h : InvCore s) : Inv (assertReset s) :=
  ((keeps_resetPin s false).core h).interruptWrite.resetConstants.inv_goto (by decide)

end Sys2Proof.Machine
end

