-- ==== Sys2Proof/Laws/Sequencer.lean ====
section
/-! SUPPORT. The operations do not look at the sequencer's position: each commutes with setting it. And what the steps of
the two serial engines add up to. -/

namespace Sys2Proof.Machine

/-- The state with the sequencer at a given position. -/
def atPhase (p : Phase) (e : Engine) (s : State) : State := { s with phase := p, engine := e }

/-- Setting the position is not noticed by the queue operations. -/
theorem unnoticed_atPhase (p : Phase) (e : Engine) : Unnoticed (atPhase p e) :=
  ⟨fun _ => rfl, fun _ => rfl, fun _ => rfl, fun _ _ => rfl, fun _ _ _ => rfl⟩

/-- Going to a phase is setting the position. -/
theorem goto_eq_atPhase (p : Phase) (s : State) : goto p s = atPhase p .off s := rfl

@[simp] theorem goto_atPhase (q p : Phase) (e : Engine) (s : State) : goto q (atPhase p e s) = goto q s := rfl
@[simp] theorem goto_goto (q p : Phase) (s : State) : goto q (goto p s) = goto q s := rfl

theorem releaseAll_atPhase (q : Profile) (p : Phase) (e : Engine) (s : State) :
    releaseAll q (atPhase p e s) = atPhase p e (releaseAll q s) := by
  have turn : ∀ s i, releaseButton q (atPhase p e s) i = atPhase p e (releaseButton q s i) := by
    intro s i
    unfold releaseButton
    have h1 : (atPhase p e s).btn = s.btn := rfl
    have h2 : (atPhase p e s).params = s.params := rfl
    rw [h1, h2]
    split
    · rw [(unnoticed_atPhase p e).encRelease]; rfl
    · rfl
  unfold releaseAll
  generalize buttons = l
  induction l generalizing s with
  | nil => rfl
  | cons i l ih => rw [List.foldl_cons, List.foldl_cons, turn, ih]

theorem edgeScan_atPhase (m : Mask) (p : Phase) (e : Engine) (s : State) :
    edgeScan m (atPhase p e s) = atPhase p e (edgeScan m s) := by
  have turn : ∀ s i, scanButton m (atPhase p e s) i = atPhase p e (scanButton m s i) := by
    intro s i
    unfold scanButton
    have h1 : (atPhase p e s).btn = s.btn := rfl
    have h2 : (atPhase p e s).params = s.params := rfl
    have h3 : (atPhase p e s).profile = s.profile := rfl
    have h4 : (atPhase p e s).swapAB = s.swapAB := rfl
    simp only [h1, h2, h3, h4]
    split
    · rw [(unnoticed_atPhase p e).encPress]; rfl
    · split
      · rw [(unnoticed_atPhase p e).encRelease]; rfl
      · rfl
  unfold edgeScan
  generalize buttons = l
  induction l generalizing s with
  | nil => rfl
  | cons i l ih => rw [List.foldl_cons, List.foldl_cons, turn, ih]

theorem readNow_atPhase (p : Phase) (e : Engine) (s : State) : readNow (atPhase p e s) = atPhase p e (readNow s) := by
  unfold readNow
  have h : (atPhase p e s).timeIn = s.timeIn := rfl
  rw [h]
  split <;> rfl

theorem stampSend_atPhase (p : Phase) (e : Engine) (s : State) : stampSend (atPhase p e s) = atPhase p e (stampSend s) := by
  unfold stampSend
  rw [readNow_atPhase]
  rfl

theorem pollLines_atPhase (p : Phase) (e : Engine) (s : State) :
    pollLines (atPhase p e s) = ((pollLines s).1, atPhase p e (pollLines s).2) := by
  unfold pollLines readPeer
  have h : (atPhase p e s).kbIn = s.kbIn := rfl
  rw [h]
  split <;> rfl

theorem selectEdge_atPhase (p : Phase) (e : Engine) (s : State) : selectEdge (atPhase p e s) = atPhase p e (selectEdge s) := by
  unfold selectEdge
  have h1 : (atPhase p e s).curMask = s.curMask := rfl
  have h2 : (atPhase p e s).cfg = s.cfg := rfl
  rw [h1, h2]
  split
  · unfold cfgEnter
    have h : releaseAll (atPhase p e s).profile (atPhase p e s) = _ := releaseAll_atPhase s.profile p e s
    rw [h]
    rfl
  · split <;> rfl

theorem applyAction_atPhase (a : Action) (p : Phase) (e : Engine) (s : State) :
    applyAction a (atPhase p e s) = atPhase p e (applyAction a s) := by
  cases a with
  | swapA => rfl
  | swapB => rfl
  | layout n =>
    have h : releaseAll (atPhase p e s).profile (atPhase p e s) = _ := releaseAll_atPhase s.profile p e s
    simp only [applyAction, h]
    rfl

/-- The end of an action does not depend on the position (R140). -/
theorem endAction_debounce_atPhase (p : Phase) (e : Engine) (s : State) :
    endAction (debounce (atPhase p e s)) = endAction (debounce s) := by
  rw [debounce_eq, debounce_eq, endAction_eq, endAction_eq]
  rfl

theorem steps4to6_atPhase (p : Phase) (e : Engine) (s : State) : steps4to6 (atPhase p e s) = steps4to6 s := by
  unfold steps4to6
  have h1 : (atPhase p e s).curMask = s.curMask := rfl
  have h2 : (atPhase p e s).cfg = s.cfg := rfl
  have h3 : (atPhase p e s).prevMask = s.prevMask := rfl
  simp only [h1, h2, h3, edgeScan_atPhase]
  split
  · split
    · unfold runAction
      rw [applyAction_atPhase, endAction_debounce_atPhase]
    · rfl
  · rfl

theorem afterDrain_atPhase (p : Phase) (e : Engine) (s : State) : afterDrain (atPhase p e s) = afterDrain s := by
  have h : sample (atPhase p e s) = atPhase p e (sample s) := by
    obtain ⟨m, hm, h⟩ := sample_frame s
    rw [h, sample_eq (atPhase p e s) m hm]
    rfl
  unfold afterDrain
  rw [h, selectEdge_atPhase, steps4to6_atPhase]

theorem sendOldest_atPhase (p : Phase) (e : Engine) (s : State) : sendOldest (atPhase p e s) = sendOldest s := by
  have hq : qramRead (atPhase p e s) (atPhase p e s).tail = qramRead s s.tail := rfl
  have ht : (atPhase p e s).tail = s.tail := rfl
  cases hb : qramRead s s.tail with
  | none => rw [sendOldest_of_none hb, sendOldest_of_none (hq.trans hb), ht]
  | some b =>
    have h : consumeByte (txByte b (atPhase p e s)) = atPhase p e (consumeByte (txByte b s)) := by
      rw [txByte_eq, txByte_eq]
      rfl
    rw [sendOldest_of_some hb, sendOldest_of_some (hq.trans hb), h, stampSend_atPhase]
    rfl

theorem drain_atPhase (p : Phase) (e : Engine) (s : State) : drain (atPhase p e s) = drain s := by
  have hg : gateOpen (readNow (atPhase p e s)) = gateOpen (readNow s) := by rw [readNow_atPhase]; rfl
  cases h : gateOpen (readNow s) with
  | false =>
    rw [drain_of_closed h, drain_of_closed (hg.trans h), readNow_atPhase]
    rfl
  | true =>
    rw [drain_of_open h, drain_of_open (hg.trans h), readNow_atPhase]
    have hp := pollLines_atPhase p e (readNow s)
    have h1 : (pollLines (atPhase p e (readNow s))).1 = (pollLines (readNow s)).1 := by rw [hp]
    have h2 : (pollLines (atPhase p e (readNow s))).2 = atPhase p e (pollLines (readNow s)).2 := by rw [hp]
    by_cases hi : (pollLines (readNow s)).1 = (true, true)
    · rw [waitThenSend_of_idle hi, waitThenSend_of_idle (h1.trans hi), h2, sendOldest_atPhase]
    · rw [waitThenSend_of_busy hi, waitThenSend_of_busy (h1 ▸ hi), h2]
      rfl

/-! ### What DRAIN has read -/

/-- After the gate's read of the time and one poll, only the inputs, the time and the trace differ. -/
theorem pollLines_readNow_frame (s : State) : (pollLines (readNow s)).2 =
    { s with
      timeIn := (pollLines (readNow s)).2.timeIn
      kbIn := (pollLines (readNow s)).2.kbIn
      draws := (pollLines (readNow s)).2.draws
      now := (pollLines (readNow s)).2.now
      trace := (pollLines (readNow s)).2.trace } := by
  rw [pollLines_frame, readNow_frame]

/-- The data bits of a frame are the byte (R59). -/
theorem frameBits_data (p : Bool) (b : Byte) : (frameBits p b).extractLsb' 1 8 = b := by
  revert b
  cases p <;> decide

/-- A frame counts one byte as sent (R112). -/
theorem sentBytes_frame (half : Time) (p : Bool) (b : Byte) (s : State) :
    sentBytes { s with trace := (frameEvents half (frameBits p b)).reverse ++ s.trace } = sentBytes s ++ [b] := by
  unfold sentBytes
  simp [frameEvents, bitEvents, frameBits_data, sentByte?, List.filterMap_cons]

/-! ### The engines, step by step -/

/-- One more turn at the end. -/
theorem repeatOp_succ (f : State → State) (n : Nat) (s : State) : repeatOp f (n + 1) s = f (repeatOp f n s) := by
  induction n generalizing s with
  | zero => rfl
  | succ n ih => exact ih (f s)

/-- The state with the engine at a given position. -/
def atEngine (e : Engine) (s : State) : State := { s with engine := e }

@[simp] theorem atEngine_atEngine (e f : Engine) (s : State) : atEngine e (atEngine f s) = atEngine e s := rfl
@[simp] theorem atEngine_resetPin (e : Engine) (s : State) : (atEngine e s).resetPin = s.resetPin := rfl
@[simp] theorem atEngine_script (e : Engine) (s : State) : (atEngine e s).script = s.script := rfl
@[simp] theorem atEngine_phase (e : Engine) (s : State) : (atEngine e s).phase = s.phase := rfl
@[simp] theorem atEngine_engine (e : Engine) (s : State) : (atEngine e s).engine = e := rfl
@[simp] theorem atEngine_txCnt (e : Engine) (s : State) : (atEngine e s).txCnt = s.txCnt := rfl
@[simp] theorem atEngine_sampCnt (e : Engine) (s : State) : (atEngine e s).sampCnt = s.sampCnt := rfl

/-- The position a state is at. -/
theorem atEngine_self {e : Engine} {s : State} (h : s.engine = e) : atEngine e s = s := by subst h; rfl

@[simp] theorem lowerKbClk_atEngine (e : Engine) (s : State) : lowerKbClk (atEngine e s) = atEngine e (lowerKbClk s) := rfl
@[simp] theorem endBit_atEngine (e : Engine) (s : State) : endBit (atEngine e s) = atEngine e (endBit s) := rfl
@[simp] theorem lowerPadClk_atEngine (e : Engine) (s : State) : lowerPadClk (atEngine e s) = atEngine e (lowerPadClk s) := rfl
@[simp] theorem endRead_atEngine (e : Engine) (s : State) : endRead (atEngine e s) = atEngine e (endRead s) := rfl
@[simp] theorem endFrame_atEngine (e : Engine) (s : State) : endFrame (atEngine e s) = atEngine e (endFrame s) := rfl
@[simp] theorem goto_atEngine (p : Phase) (e : Engine) (s : State) : goto p (atEngine e s) = goto p s := rfl
@[simp] theorem nvSave_atEngine (e : Engine) (s : State) : nvSave (atEngine e s) = atEngine e (nvSave s) := rfl

@[simp] theorem putBit_resetPin (s : State) : (putBit s).resetPin = s.resetPin := rfl
@[simp] theorem putBit_script (s : State) : (putBit s).script = s.script := rfl
@[simp] theorem putBit_phase (s : State) : (putBit s).phase = s.phase := rfl
@[simp] theorem putBit_engine (s : State) : (putBit s).engine = s.engine := rfl
@[simp] theorem lowerKbClk_resetPin (s : State) : (lowerKbClk s).resetPin = s.resetPin := rfl
@[simp] theorem lowerKbClk_script (s : State) : (lowerKbClk s).script = s.script := rfl
@[simp] theorem lowerKbClk_phase (s : State) : (lowerKbClk s).phase = s.phase := rfl
@[simp] theorem lowerKbClk_engine (s : State) : (lowerKbClk s).engine = s.engine := rfl
@[simp] theorem endBit_engine (s : State) : (endBit s).engine = s.engine := rfl
@[simp] theorem lowerPadClk_resetPin (s : State) : (lowerPadClk s).resetPin = s.resetPin := rfl
@[simp] theorem lowerPadClk_script (s : State) : (lowerPadClk s).script = s.script := rfl
@[simp] theorem lowerPadClk_phase (s : State) : (lowerPadClk s).phase = s.phase := rfl
@[simp] theorem lowerPadClk_engine (s : State) : (lowerPadClk s).engine = s.engine := rfl
@[simp] theorem endRead_engine (s : State) : (endRead s).engine = s.engine := rfl

/-- Three steps of a run. -/
theorem core_run_three {s t u v : State} (h1 : step s = .next t) (h2 : step t = .next u) (h3 : step u = .next v) :
    Host.Core.run Sys2Proof.core 3 s = Host.Outcome.next v := by
  rw [core_run_next h1, core_run_next h2, core_run_next h3, core_run_zero]

/-- TX: the data line (R113). -/
theorem step_putBit {s : State} (hr : s.resetPin = false) (hs : s.script = []) (hp : s.phase = .tx) (he : s.engine = .ready) :
    step s = .next (atEngine .dataOut (putBit s)) := by
  rw [step_of_quiet hr hs]; simp only [sequencerStep, hp, stepTx, he, atEngine]

/-- TX: the clock low (R113). -/
theorem step_lowerKbClk {s : State} (hr : s.resetPin = false) (hs : s.script = []) (hp : s.phase = .tx)
    (he : s.engine = .dataOut) : step s = .next (atEngine .clkLow (lowerKbClk s)) := by
  rw [step_of_quiet hr hs]; simp only [sequencerStep, hp, stepTx, he, atEngine]

/-- TX: the clock released; after the eleventh bit the frame ends (R113). -/
theorem step_endBit {s : State} (hr : s.resetPin = false) (hs : s.script = []) (hp : s.phase = .tx)
    (he : s.engine = .clkLow) : step s =
      .next (if (endBit s).txCnt = 11 then goto .settle (endFrame (endBit s)) else atEngine .ready (endBit s)) := by
  rw [step_of_quiet hr hs]; simp only [sequencerStep, hp, stepTx, he, atEngine]

/-- Three steps in phase TX are one turn of the frame loop, and after the eleventh bit the end of the frame (log 5). -/
theorem run_txBit {s : State} (hr : s.resetPin = false) (hs : s.script = []) (hp : s.phase = .tx) (he : s.engine = .ready) :
    Host.Core.run Sys2Proof.core 3 s =
      Host.Outcome.next (if (txBit s).txCnt = 11 then goto .settle (endFrame (txBit s)) else txBit s) := by
  have h1 := step_putBit hr hs hp he
  have h2 := step_lowerKbClk (s := atEngine .dataOut (putBit s)) (by simp [hr]) (by simp [hs]) (by simp [hp]) (by simp)
  have h3 := step_endBit (s := atEngine .clkLow (lowerKbClk (putBit s))) (by simp [hr]) (by simp [hs]) (by simp [hp])
    (by simp)
  have h4 : atEngine .ready (endBit (lowerKbClk (putBit s))) = endBit (lowerKbClk (putBit s)) := atEngine_self (by simp [he])
  rw [lowerKbClk_atEngine, atEngine_atEngine] at h2
  rw [endBit_atEngine, atEngine_atEngine, atEngine_txCnt, h4, endFrame_atEngine, goto_atEngine] at h3
  exact core_run_three h1 h2 h3

/-- SAMPLE: the read, with the clock high (R71). -/
theorem step_readBit {s : State} (hr : s.resetPin = false) (hs : s.script = []) (hp : s.phase = .sample)
    (he : s.engine = .ready) : step s = .next (atEngine .clkHigh (readBit s)) := by
  rw [step_of_quiet hr hs]; simp only [sequencerStep, hp, stepSample, he, atEngine]

/-- SAMPLE: the clock low (R71). -/
theorem step_lowerPadClk {s : State} (hr : s.resetPin = false) (hs : s.script = []) (hp : s.phase = .sample)
    (he : s.engine = .clkHigh) : step s = .next (atEngine .clkLow (lowerPadClk s)) := by
  rw [step_of_quiet hr hs]; simp only [sequencerStep, hp, stepSample, he, atEngine]

/-- SAMPLE: the end of a turn; after the eighth read the sample is complete (R70, R71). -/
theorem step_endRead {s : State} (hr : s.resetPin = false) (hs : s.script = []) (hp : s.phase = .sample)
    (he : s.engine = .clkLow) : step s =
      .next (if (endRead s).sampCnt = 8 then goto .selectEdge (endRead s) else atEngine .ready (endRead s)) := by
  rw [step_of_quiet hr hs]; simp only [sequencerStep, hp, stepSample, he, atEngine]

/-- Three steps in phase SAMPLE are one turn of the read loop, and after the eighth the end of the sample (log 5). -/
theorem run_sampleBit {s : State} (hr : s.resetPin = false) (hs : s.script = []) (hp : s.phase = .sample)
    (he : s.engine = .ready) :
    Host.Core.run Sys2Proof.core 3 s =
      Host.Outcome.next (if (sampleBit s).sampCnt = 8 then goto .selectEdge (sampleBit s) else sampleBit s) := by
  have hb := readBit_eq s
  have r1 : (readBit s).resetPin = false := by rw [hb]; exact hr
  have r2 : (readBit s).script = [] := by rw [hb]; exact hs
  have r3 : (readBit s).phase = .sample := by rw [hb]; exact hp
  have r4 : (readBit s).engine = .ready := by rw [hb]; exact he
  have h1 := step_readBit hr hs hp he
  have e : sampleBit s = endRead (lowerPadClk (readBit s)) := rfl
  rw [e]
  generalize readBit s = x at *
  have h2 := step_lowerPadClk (s := atEngine .clkHigh x) r1 r2 r3 rfl
  have h3 := step_endRead (s := atEngine .clkLow (lowerPadClk x)) (by simp [r1]) (by simp [r2]) (by simp [r3]) (by simp)
  have h4 : atEngine .ready (endRead (lowerPadClk x)) = endRead (lowerPadClk x) := atEngine_self (by simp [r4])
  rw [lowerPadClk_atEngine, atEngine_atEngine] at h2
  rw [endRead_atEngine, atEngine_atEngine, atEngine_sampCnt, h4, goto_atEngine] at h3
  exact core_run_three h1 h2 h3

/-- DEBOUNCE: the write begins, it is stored, the delay ends the cycle (R139, R140; log 22). -/
theorem run_debounce {s : State} (hr : s.resetPin = false) (hs : s.script = []) (hp : s.phase = .debounce)
    (he : s.engine = .off) : Host.Core.run Sys2Proof.core 3 s = Host.Outcome.next (endAction (debounce s)) := by
  have h1 : step s = .next (atEngine .writing s) := by
    rw [step_of_quiet hr hs]; simp only [sequencerStep, hp, stepDebounce, he, atEngine]
  have h2 : step (atEngine .writing s) = .next (atEngine .saved (nvSave s)) := by
    rw [step_of_quiet (s := atEngine .writing s) hr hs]
    simp only [sequencerStep, atEngine_phase, hp, stepDebounce, atEngine_engine, nvSave_atEngine]
    rfl
  have h3 : step (atEngine .saved (nvSave s)) = .next (endAction (debounce s)) := by
    have e : endAction (debounce s) = endAction (delay Config.tDebounce (nvSave s)) := rfl
    have k1 : (nvSave s).resetPin = false := hr
    have k2 : (nvSave s).script = [] := hs
    have k3 : (nvSave s).phase = .debounce := hp
    rw [e]
    generalize nvSave s = x at k1 k2 k3 ⊢
    rw [step_of_quiet (s := atEngine .saved x) k1 k2]
    simp only [sequencerStep, atEngine_phase, k3, stepDebounce, atEngine_engine]
    rw [endAction_eq, endAction_eq]
    rfl
  exact core_run_three h1 h2 h3

end Sys2Proof.Machine
end

