-- ==== Sys2Proof/Tests/Slice0.lean ====
section
/-! SUPPORT. The model's own tests: ill-formed terms, decoding of words written out from the spec, the spec's test vectors
(spec/95_test_vectors.md, named in each theorem's comment), and a witness for the hypotheses of every obligation that has
some. -/

namespace Sys2Proof.Machine

/-! ### Well-formedness: for each check a term it refuses -/

/-- MAKE1.generic: a sentinel, a code of a named row (opcode table; R54, R57, R86). -/
theorem test_wf_make1 : ([0x00, 0xE1, 0x45].map fun c => (Instr.make1Generic c).WellFormed) = [false, false, false] := by
  decide

/-- BREAK2.generic, XMAKE2.generic, XBREAK3.generic: a code of a named row. -/
theorem test_wf_other_generic : (Instr.break2Generic 0x45).WellFormed = false ∧
    (Instr.xmake2Generic 0x75).WellFormed = false ∧ (Instr.xbreak3Generic 0x75).WellFormed = false := by decide

/-- A mask row whose button is not pressed (R51). -/
theorem test_wf_masks : (buttons.map fun k => (maskRow k (1#8 <<< k.val)).WellFormed) =
    [false, false, false, false, false, false, false, false] := by decide

/-- A frame with even parity (R60). -/
theorem test_wf_frame : (Instr.frame true 0x45).WellFormed = false ∧ (Instr.frame false 0xF0).WellFormed = false := by
  decide

/-- A term of each refused kind that is well-formed. -/
theorem test_wf_accepts : ([.make1Generic 0x01, .break2Generic 0xE1, .xmake2Generic 0x45, .xbreak3Generic 0x45, .maskA 0xFE,
    .frame false 0x45, .frame true 0xF0].map Instr.WellFormed) = [true, true, true, true, true, true, true] := by decide

/-! ### Decoding: the words of the opcode table -/

/-- The MAKE rows (R63; key codes R86). -/
theorem test_decode_makes : ∀ r ∈ ([
    ([0x3A], .makeM), ([0x15], .makeQ), ([0x1C], .makeA), ([0x44], .makeO), ([0x4D], .makeP), ([0x45], .make0),
    ([0x16], .make1), ([0x1E], .make2), ([0x26], .make3), ([0x25], .make4), ([0x2E], .make5), ([0x36], .make6),
    ([0x3D], .make7), ([0x3E], .make8), ([0x46], .make9), ([0x76], .makeEsc), ([0x05], .makeF1),
    ([0x5A], .makeEnter), ([0xE0, 0x75], .makeUpArrow), ([0xE0, 0x72], .makeDownArrow),
    ([0xE0, 0x6B], .makeLeftArrow), ([0xE0, 0x74], .makeRightArrow)] :
    List (List Byte × Instr)), decode ⟨.wire, r.1⟩ = .ok r.2 := by decide

/-- The BREAK rows (R63). -/
theorem test_decode_breaks : ∀ r ∈ ([
    ([0xF0, 0x3A], .breakM), ([0xF0, 0x15], .breakQ), ([0xF0, 0x1C], .breakA), ([0xF0, 0x44], .breakO),
    ([0xF0, 0x4D], .breakP), ([0xF0, 0x45], .break0), ([0xF0, 0x16], .break1), ([0xF0, 0x1E], .break2),
    ([0xF0, 0x26], .break3), ([0xF0, 0x25], .break4), ([0xF0, 0x2E], .break5), ([0xF0, 0x36], .break6),
    ([0xF0, 0x3D], .break7), ([0xF0, 0x3E], .break8), ([0xF0, 0x46], .break9), ([0xF0, 0x76], .breakEsc),
    ([0xF0, 0x05], .breakF1), ([0xF0, 0x5A], .breakEnter), ([0xE0, 0xF0, 0x75], .breakUpArrow),
    ([0xE0, 0xF0, 0x72], .breakDownArrow), ([0xE0, 0xF0, 0x6B], .breakLeftArrow),
    ([0xE0, 0xF0, 0x74], .breakRightArrow)] :
    List (List Byte × Instr)), decode ⟨.wire, r.1⟩ = .ok r.2 := by decide

/-- The Pause literal and the empty sequences (R58, R93, R94, R92). -/
theorem test_decode_special : decode ⟨.wire, [0xE1, 0x14, 0x77, 0xE1, 0xF0, 0x14, 0xF0, 0x77]⟩ = .ok .pauseMake ∧
    decode ⟨.silent .pauseBreak, []⟩ = .ok .pauseBreak ∧ decode ⟨.silent .disabledMake, []⟩ = .ok .disabledMake ∧
    decode ⟨.silent .disabledBreak, []⟩ = .ok .disabledBreak := by decide

/-- The generic formats, on codes no named row has: make of 01, break of 01, extended make and break of 5A (R56). -/
theorem test_decode_generic : decode ⟨.wire, [0x01]⟩ = .ok (.make1Generic 0x01) ∧
    decode ⟨.wire, [0xF0, 0x01]⟩ = .ok (.break2Generic 0x01) ∧
    decode ⟨.wire, [0xE0, 0x5A]⟩ = .ok (.xmake2Generic 0x5A) ∧
    decode ⟨.wire, [0xE0, 0xF0, 0x5A]⟩ = .ok (.xbreak3Generic 0x5A) := by decide

/-- A code that is itself a prefix is an ordinary code (R61 c): make of E0 and F0, extended make of F0, breaks of both. -/
theorem test_decode_prefix_codes : decode ⟨.wire, [0xE0]⟩ = .ok (.make1Generic 0xE0) ∧
    decode ⟨.wire, [0xF0]⟩ = .ok (.make1Generic 0xF0) ∧ decode ⟨.wire, [0xE0, 0xF0]⟩ = .ok (.xmake2Generic 0xF0) ∧
    decode ⟨.wire, [0xF0, 0xE0]⟩ = .ok (.break2Generic 0xE0) ∧
    decode ⟨.wire, [0xE0, 0xF0, 0xF0]⟩ = .ok (.xbreak3Generic 0xF0) := by decide

/-- The operation words: codes in the order of R4's list (log 2). -/
theorem test_decode_operations : ∀ r ∈ ([
    ([0], .sample), ([1, 3, 7], .layoutLookup 3 7), ([2, 1, 0x75], .encPress ⟨true, 0x75⟩),
    ([3, 0, 0x45], .encRelease ⟨false, 0x45⟩), ([4, 2], .releaseAll 2), ([5, 0x76], .enqueue 0x76), ([6], .enqueuePause),
    ([7], .drain), ([8], .idleWait), ([9, 0xF0], .txByte 0xF0), ([10], .cycle), ([11], .cfgEnter), ([12], .cfgExit),
    ([13], .cfgSwapA), ([14], .cfgSwapB), ([15, 3], .cfgLayout 3), ([16, 0xF6], .edgeScan 0xF6),
    ([17, 0xDB], .storePrev 0xDB), ([18], .nvLoad), ([19], .nvSave), ([20], .debounce), ([21], .reset)] :
    List (List Byte × Instr)), decode ⟨.operation, r.1⟩ = .ok r.2 := by decide

/-- The mask rows, by the names of R65 (V-FMT-2). -/
theorem test_decode_masks : decode ⟨.mask8 0, [0xFE]⟩ = .ok (.maskA 0xFE) ∧ decode ⟨.mask8 1, [0xFD]⟩ = .ok (.maskB 0xFD) ∧
    decode ⟨.mask8 2, [0xFB]⟩ = .ok (.maskSelect 0xFB) ∧ decode ⟨.mask8 3, [0xF7]⟩ = .ok (.maskStart 0xF7) ∧
    decode ⟨.mask8 4, [0xEF]⟩ = .ok (.maskUp 0xEF) ∧ decode ⟨.mask8 5, [0xDF]⟩ = .ok (.maskDown 0xDF) ∧
    decode ⟨.mask8 6, [0xBF]⟩ = .ok (.maskLeft 0xBF) ∧ decode ⟨.mask8 7, [0x7F]⟩ = .ok (.maskRight 0x7F) := by decide

/-- A settings byte, a layout entry, a frame and a controller stream (R52, R54, R59, R66; V-FMT-3, V-FMT-4). -/
theorem test_decode_formats : decode ⟨.settings8, [0xFF]⟩ = .ok (.settings 0xFF) ∧
    decode ⟨.entry9, [0x00, 0xE1]⟩ = .ok (.entry ⟨false, 0xE1⟩) ∧ decode ⟨.entry9, [0x01, 0x75]⟩ = .ok (.entry ⟨true, 0x75⟩) ∧
    decode ⟨.frame11, [0x04, 0x8A]⟩ = .ok (.frame false 0x45) ∧ decode ⟨.frame11, [0x07, 0xE0]⟩ = .ok (.frame true 0xF0) ∧
    decode ⟨.padstream, [0xF6]⟩ = .ok (.padstream 0xF6) := by decide

/-- Words that are no row's word, each by its name. -/
theorem test_decode_refuses : decode ⟨.wire, []⟩ = .error .empty ∧ decode ⟨.wire, [0xE1, 0x14]⟩ = .error .truncated ∧
    decode ⟨.wire, [0xE1, 0x14, 0x77, 0xE1, 0xF0, 0x14, 0xF0, 0x78]⟩ = .error .badPause ∧
    decode ⟨.wire, [0x00]⟩ = .error .neverSent ∧ decode ⟨.wire, [0x45, 0x45]⟩ = .error .trailing ∧
    decode ⟨.operation, [22]⟩ = .error .unknownOperation ∧ decode ⟨.operation, [4, 4]⟩ = .error .operandRange ∧
    decode ⟨.operation, [0, 0]⟩ = .error .length ∧ decode ⟨.mask8 0, [0xFF]⟩ = .error (.notPressed 0xFF) ∧
    decode ⟨.frame11, [0x00, 0x8A]⟩ = .error .badFrame ∧ decode ⟨.frame11, [0x06, 0x8A]⟩ = .error .badParity := by decide

/-- The stream parse of V-FMT-5 (R62). -/
theorem test_stream_parse : parseStream [0x4D, 0xF0, 0x4D, 0x76, 0xE0, 0x75, 0xE0, 0xF0, 0x75, 0xE1, 0x14, 0x77, 0xE1, 0xF0,
    0x14, 0xF0, 0x77, 0xF0, 0x76] =
    .ok [.makeP, .breakP, .makeEsc, .makeUpArrow, .breakUpArrow, .pauseMake, .breakEsc] := by decide

/-- Table words (log 4): one of each length. -/
theorem test_table_words : decodeTableWord 8 0x3A = some .makeM ∧ decodeTableWord 16 0xF03A = some .breakM ∧
    decodeTableWord 24 0xE0F06B = some .breakLeftArrow ∧ decodeTableWord 8 0x7F = some (.maskRight 0x7F) ∧
    decodeTableWord 16 0x048A = some (.frame false 0x45) ∧ decodeTableWord 0 0 = some .pauseBreak := by decide

/-- A table word runs as the first instruction after reset. -/
theorem test_fetch : step (State.reset.withFetchWord 8 0x45) = exec .make0 State.reset := by rfl

/-! ### Small states -/

/-- The state an outcome goes on with. -/
def nextOf (o : Host.Outcome State Fault Refusal) : Option State :=
  match o with
  | .next t => some t
  | .fault _ => none
  | .refused _ => none

/-- Between cycles, as after RESET with the settings byte 0x00. -/
def idle : State := { State.reset with phase := .drain }

/-- Between cycles with a given queue. -/
def queue (h t : Index) (q : Memory) : State := { idle with head := h, tail := t, qram := q }

/-- The byte 0x45 is queued (V-D-2). -/
def one : State := queue 1 0 [(0, 0x45)]

/-- One cycle on mask m with the queue empty, from a given profile, mode, previous mask and marks (V-CTL). -/
def controlCycle (p : Profile) (c : Bool) (prev : Mask) (btn : Vector Bool 8) (swap upd : Bool) (m : Mask) : Option State :=
  nextOf (exec .cycle { idle with
    profile := p, cfg := c, prevMask := prev, btn := btn, swapAB := swap, padIn := maskLevels m, timeIn := [0],
    params := { cfgActionUpdatesPrev := upd } })

/-- What a V-CTL vector lists. -/
structure Control where
  profile : Profile
  cfg : Bool
  prevMask : Mask
  btn : Vector Bool 8
  swapAB : Bool
  enqueued : List (Option Byte)
  nv : Byte
  deriving DecidableEq, Repr

/-- The listed part of a state. -/
def control (s : State) : Control := ⟨s.profile, s.cfg, s.prevMask, s.btn, s.swapAB, resident s, nvByteAt s 0⟩

/-- No button. -/
def none8 : Vector Bool 8 := #v[false, false, false, false, false, false, false, false]

/-- Select alone. -/
def select8 : Vector Bool 8 := #v[false, false, true, false, false, false, false, false]

/-! ### The spec's test vectors -/

/-- V-FMT-4: frames of six bytes (R59, R60). -/
theorem test_frames : ([0x45, 0xF0, 0xE0, 0xE1, 0x14, 0xFF].map fun b => frameBits (parity b) b) =
    [0x48A, 0x7E0, 0x5C0, 0x7C2, 0x628, 0x7FE] := by decide

/-- V-SAM-3 and V-SAM-5: the first level read is bit 0 (R70). -/
theorem test_sample : ((nextOf (exec .sample { idle with
      padIn := [false, true, true, false, true, true, true, true] })).map fun t => t.curMask) = some 0xF6 ∧
    ((nextOf (exec .sample { idle with
      padIn := [false, true, true, true, true, true, true, true] })).map fun t => (t.curMask, t.now)) = some (0xFE, 108) := by
  decide

/-- V-LAY: the entries of (0, A), (2, A), (1, Start) and (3, Right) (R80 to R84). -/
theorem test_lookup : ([(0, 0), (2, 0), (1, 3), (3, 7)].map fun (r : Profile × BitVec 3) =>
    (nextOf (exec (.layoutLookup r.1 r.2) idle)).map fun t => t.busEntry) =
    [some ⟨false, 0x3A⟩, some ⟨false, 0x45⟩, some ⟨false, 0xE1⟩, some ⟨true, 0x74⟩] := by decide

/-- V-ENC-1: presses by class from an empty queue (R90). -/
theorem test_press : ([⟨false, 0x45⟩, ⟨true, 0x75⟩, ⟨true, 0xE1⟩, ⟨true, 0x00⟩].map fun (e : Entry) =>
    (nextOf (exec (.encPress e) idle)).map resident) =
    [some [some 0x45], some [some 0xE0, some 0x75],
      some [some 0xE1, some 0x14, some 0x77, some 0xE1, some 0xF0, some 0x14, some 0xF0, some 0x77], some []] := by decide

/-- V-ENC-1: releases by class from an empty queue (R91). -/
theorem test_release : ([⟨false, 0x45⟩, ⟨true, 0x75⟩, ⟨false, 0xE1⟩, ⟨false, 0x00⟩].map fun (e : Entry) =>
    (nextOf (exec (.encRelease e) idle)).map resident) =
    [some [some 0xF0, some 0x45], some [some 0xE0, some 0xF0, some 0x75], some [], some []] := by decide

/-- V-ENC-4: RELEASE_ALL(1) with B and Up marked (R97). -/
theorem test_release_all : ((nextOf (exec (.releaseAll 1) { idle with
      btn := #v[false, true, false, false, true, false, false, false] })).map fun t => (resident t, t.btn)) =
    some ([some 0xF0, some 0x25, some 0xF0, some 0x25], none8) := by decide

/-- V-Q-2 and V-Q-4: ENQUEUE at the wrap, and on a full queue (R106). -/
theorem test_enqueue : ((nextOf (exec (.enqueue 0x76) (queue 63 10 []))).map fun t => (qramRead t 63, t.head, count t)) =
      some (some 0x76, 0, 54) ∧
    ((nextOf (exec (.enqueue 0x22) (queue 63 0 []))).map fun t => (t.head, t.qram, t.trace)) =
      some (63, [], [.note (.queueOverflow 0x22)]) := by decide

/-- V-Q-5 and V-Q-6: ENQUEUE_PAUSE with 55 and with 56 bytes resident (R107). -/
theorem test_enqueue_pause : ((nextOf (exec .enqueuePause (queue 55 0 []))).map fun t => (t.head, t.qram)) =
      some (63, [(55, 0xE1), (56, 0x14), (57, 0x77), (58, 0xE1), (59, 0xF0), (60, 0x14), (61, 0xF0), (62, 0x77)]) ∧
    ((nextOf (exec .enqueuePause (queue 56 0 []))).map fun t => (t.head, t.qram, t.trace)) =
      some (56, [], [.note (.pauseDropped 7)]) := by decide

/-- V-Q-9: a truncated extended make (R185). -/
theorem test_truncated_press : ((nextOf (exec (.encPress ⟨true, 0x75⟩) (queue 62 0 []))).map fun t =>
    (t.head, t.qram, t.trace)) = some (63, [(62, 0xE0)], [.note (.queueOverflow 0x75)]) := by decide

/-- V-D-2 and V-D-3: the gate is inclusive at 2500 (R110, R115). -/
theorem test_drain : ((nextOf (exec .drain { one with timeIn := [2499] })).map fun t => (sentBytes t, t.tail, t.lastSend)) =
      some ([], 0, 0) ∧
    ((nextOf (exec .drain { one with timeIn := [2500, 0], kbIn := [(true, true)] })).map fun t =>
      (sentBytes t, t.tail, t.lastSend)) = some ([0x45], 1, 3530) := by decide

/-- V-D-10: a wrapped time base (R192). -/
theorem test_drain_wrap : ((nextOf (exec .drain { one with
      params := { timeW := some 32 }, lastSend := 0xFFFFF000, now := 0x5C4, timeIn := [0, 0], kbIn := [(true, true)] })).map
    fun t => sentBytes t) = some [0x45] := by decide

/-- V-D-8: a poll with the clock held low, then one with both lines released (R111). -/
theorem test_idle_wait : ((nextOf (exec .idleWait { one with phase := .idleWait, kbIn := [(false, true)] })).map fun t =>
      (t.phase, t.tail)) = some (.idleWait, 0) ∧
    ((nextOf (exec .idleWait { one with phase := .idleWait, kbIn := [(true, true)] })).map fun t => t.phase) = some .tx := by
  decide

/-- RESET in the middle of a bit, the clock low: both lines are released and nothing counts as sent (R180, R183). -/
theorem test_reset_mid_bit : (nextOf (step { one with
      phase := .tx, engine := .clkLow, kbClk := .low, kbData := .low, resetPin := true })).map
    (fun t => (t.kbClk, t.kbData, t.phase, sentBytes t)) = some (.release, .release, .resetLoad, []) := by decide

/-- TX_BYTE of 0x45: the data line carries 0 10100010 0 1 (V-FMT-4, R113). -/
theorem test_tx_byte : ((nextOf (exec (.txByte 0x45) idle)).map fun t =>
      (t.trace.reverse.filterMap fun e => match e with | .kbData d => some d | _ => none)) =
    some [.low, .release, .low, .release, .low, .low, .low, .release, .low, .low, .release, .release] := by decide

/-- FRAME sends the same bits and counts its byte as sent (R59, R112). -/
theorem test_frame : ((nextOf (exec (.frame true 0xF0) idle)).map fun t => (t.txShift, sentBytes t)) =
    some (0x7E0, [0xF0]) := by decide

/-- A mask byte of no row, FF, runs its cycle: Start is released, nothing is enqueued (R50, R64; scenario S8 of
95_test_vectors.md). -/
theorem test_mask_none : (nextOf (step { idle with
      btn := #v[false, false, false, true, false, false, false, false], prevMask := 0xF7, timeIn := [200]
      script := [⟨.mask8 0, [0xFF]⟩] })).map (fun t => (t.btn, t.prevMask, t.head, t.phase, t.script)) =
    some (none8, 0xFF, 0, .drain, []) := by decide

/-- A script word in mid-frame that changes the phase drops the frame and leaves the clock low (log 34). -/
theorem test_word_mid_frame : (nextOf (step { one with
      phase := .tx, engine := .clkLow, kbClk := .low, script := [encode (.storePrev 0xFE)] })).map
    (fun t => (t.phase, t.engine, t.kbClk)) = some (.drain, .off, .low) := by decide

/-- V-CTL-2, V-CTL-5, V-CTL-18 and V-CTL-20: cycles without an action. -/
theorem test_cycle_normal :
    (controlCycle 0 false 0xFF none8 false false 0xFE).map control =
      some ⟨0, false, 0xFE, #v[true, false, false, false, false, false, false, false], false, [some 0x3A], 0xFF⟩ ∧
    (controlCycle 0 false 0xDF #v[false, false, false, false, false, true, false, false] false false 0xDB).map control =
      some ⟨0, true, 0xDB, #v[false, false, true, false, false, true, false, false], false,
        [some 0xF0, some 0x1C, some 0x76, some 0x1C], 0xFF⟩ ∧
    (controlCycle 0 true 0xFB select8 false false 0xFF).map control =
      some ⟨0, false, 0xFF, none8, false, [some 0xF0, some 0x76], 0xFF⟩ ∧
    (controlCycle 0 false 0xFF none8 true false 0xFE).map control =
      some ⟨0, false, 0xFE, #v[false, true, false, false, false, false, false, false], true, [some 0x15], 0xFF⟩ := by decide

/-- V-CTL-6, V-CTL-7, V-CTL-9 and V-CTL-15: cycles with an action. -/
theorem test_cycle_action :
    (controlCycle 2 true 0xFB select8 false false 0xDB).map control =
      some ⟨0, true, 0xFB, none8, false, [some 0xF0, some 0x76], 0x00⟩ ∧
    (controlCycle 2 true 0xFB select8 false true 0xDB).map control =
      some ⟨0, true, 0xDB, none8, false, [some 0xF0, some 0x76], 0x00⟩ ∧
    (controlCycle 0 true 0xFB select8 false false 0xAB).map control =
      some ⟨1, true, 0xFB, none8, false, [some 0xF0, some 0x76], 0x01⟩ ∧
    (controlCycle 3 true 0xFB select8 true false 0xF8).map control = some ⟨3, true, 0xFB, select8, false, [], 0x03⟩ := by
  decide

/-- The script line CYC mask=A (R64): the mask row samples its own byte, as V-CTL-2. -/
theorem test_mask_row : ((nextOf (exec (.maskA 0xFE) { idle with timeIn := [0] })).map fun t => (t.curMask, resident t)) =
    some (0xFE, [some 0x3A]) := by decide

/-- PADSTREAM is V-SAM-4 given as a byte (R66). -/
theorem test_padstream : ((nextOf (exec (.padstream 0x7B) idle)).map fun t => (t.curMask, t.padIn)) = some (0x7B, []) := by
  decide

/-- CFG_ENTER and CFG_EXIT (R128, R129). -/
theorem test_cfg : ((nextOf (exec .cfgEnter { idle with btn := select8 })).map fun t => (t.cfg, t.btn, resident t)) =
      some (true, none8, [some 0xF0, some 0x76]) ∧
    ((nextOf (exec .cfgExit { idle with btn := select8, cfg := true })).map fun t => (t.cfg, t.btn, resident t)) =
      some (false, select8, []) := by decide

/-- CFG_SWAP_A, CFG_SWAP_B and CFG_LAYOUT 3 (R131, R132, R133). -/
theorem test_actions : ((nextOf (exec .cfgSwapA { idle with swapAB := true })).map fun t => (t.swapAB, nvByteAt t 0)) =
      some (false, 0x00) ∧
    ((nextOf (exec .cfgSwapB idle)).map fun t => (t.swapAB, nvByteAt t 0)) = some (true, 0x04) ∧
    ((nextOf (exec (.cfgLayout 3) { idle with btn := select8 })).map fun t =>
      (t.profile, t.btn, resident t, nvByteAt t 0, t.now)) = some (3, none8, [some 0xF0, some 0x76], 0x03, 300000) := by
  decide

/-- EDGE_SCAN of V-CTL-21 and STORE_PREV (R137, R138). -/
theorem test_edge_scan : ((nextOf (exec (.edgeScan 0xFC) { idle with swapAB := true })).map fun t => resident t) =
      some [some 0x3A, some 0x15] ∧
    ((nextOf (exec (.storePrev 0xDB) idle)).map fun t => t.prevMask) = some 0xDB := by decide

/-- V-SET-1: NV_SAVE and DEBOUNCE write the settings byte (R153, R139). -/
theorem test_save : ((nextOf (exec .nvSave { idle with profile := 2, swapAB := true })).map fun t => (t.nv, t.now)) =
      some ([(0, 0x06)], 0) ∧
    ((nextOf (exec .debounce { idle with profile := 1 })).map fun t => (t.nv, t.now)) = some ([(0, 0x01)], 300000) := by
  decide

/-- V-SET-2: NV_LOAD of three stored bytes, none repaired (R151). -/
theorem test_load : ([0xFB, 0x0D, 0x54].map fun (v : Byte) => (nextOf (exec .nvLoad { idle with nv := [(0, v)] })).map fun t =>
    (t.profile, t.swapAB, t.nv)) =
    [some (3, false, [(0, 0xFB)]), some (1, true, [(0, 0x0D)]), some (0, true, [(0, 0x54)])] := by decide

/-- V-RST-1: RESET with the settings byte 0x05, as SETTINGS and as RESET (R180, R181). -/
theorem test_reset : ((nextOf (exec (.settings 0x05) { one with cfg := true, prevMask := 0, now := 7 })).map fun t =>
      (control t, t.lastSend, t.now)) = some (⟨1, false, 0xFF, none8, true, [], 0x05⟩, 0, 0) ∧
    ((nextOf (exec .reset { one with nv := [(0, 0x05)], swapAB := false })).map fun t => (t.profile, t.swapAB, sentBytes t)) =
      some (1, true, []) := by decide

/-- ENTRY puts its datum where LAYOUT_LOOKUP does (R54, log 15). -/
theorem test_entry : ((nextOf (exec (.entry ⟨true, 0x75⟩) idle)).map fun t => t.busEntry) = some ⟨true, 0x75⟩ := by decide

/-- Two wire rows and a silent one (R95, R96, R94). -/
theorem test_rows : ((nextOf (exec .makeUpArrow idle)).map resident) = some [some 0xE0, some 0x75] ∧
    ((nextOf (exec .break0 idle)).map resident) = some [some 0xF0, some 0x45] ∧ exec .pauseBreak idle = .next idle :=
  ⟨by decide, by decide, rfl⟩

/-! ### Memory -/

/-- A store in the middle, at the end, a rewrite, and a write of the erased value that removes the entry. -/
theorem test_memory : Memory.write (some 0xFF) [(1, 5), (4, 6)] 2 7 = [(1, 5), (2, 7), (4, 6)] ∧
    Memory.write (some 0xFF) [(1, 5)] 9 7 = [(1, 5), (9, 7)] ∧ Memory.write (some 0xFF) [(1, 5)] 1 7 = [(1, 7)] ∧
    Memory.write (some 0xFF) [(1, 5), (4, 6)] 1 0xFF = [(4, 6)] ∧ Memory.wf (some 0xFF) [(1, 0xFF)] = false ∧
    Memory.wf none [(2, 0), (1, 0)] = false := by decide

/-! ### Witnesses: states and operands that meet the hypotheses of each obligation that has some -/

theorem witness_DecodeOfEncodeIsIdentity : (Instr.frame (parity 0x45) 0x45).WellFormed = true ∧
    (Instr.xbreak3Generic 0xF0).WellFormed = true ∧ (Instr.maskRight 0x7F).WellFormed = true := by decide

theorem witness_DecodedWordsAreCanonical : decode ⟨.operation, [1, 3, 7]⟩ = .ok (.layoutLookup 3 7) := by decide

theorem witness_StreamParseRecoversSequences :
    ∀ i ∈ [Instr.makeP, .xbreak3Generic 0x5A, .pauseMake], i.WellFormed = true ∧ (encode i).channel = .wire := by decide

/-- Both clauses: a word that decodes and one that does not. -/
theorem witness_StepRunsTheDecodedWord :
    ({ idle with script := [⟨.wire, [0x45]⟩] } : State).resetPin = false ∧ decode ⟨.wire, [0x45]⟩ = .ok .make0 ∧
    decode ⟨.mask8 0, [0xFF]⟩ = .error (.notPressed 0xFF) ∧ decode ⟨.wire, [0xE1]⟩ = .error .truncated := by decide

theorem witness_PlacedTableWordRunsNext : decodeTableWord 24 0xE0F075 = some .breakUpArrow := by decide

/-- Every clause: a step answers a next state in each phase. -/
theorem witness_SequencerTransfersArePhaseTable :
    ∀ p ∈ [Phase.resetLoad, .drain, .idleWait, .tx, .settle, .sample, .selectEdge, .config, .debounce, .normal, .store],
      ∀ e ∈ [Engine.off, .latchHigh, .ready, .clkHigh, .dataOut, .clkLow, .writing, .saved], (nextOf (step { one with phase := p, engine := e, timeIn := [0], padIn := [true], kbIn := [(true, true)] })).isSome =
        true := by decide

theorem witness_SequencerStepsRunCycle : idle.phase = .drain ∧ idle.resetPin = false ∧ idle.script = [] := by decide

/-- Both clauses on the store: no write in progress (the delay of DEBOUNCE), and one in progress. -/
theorem witness_ResetInputRestartsTheBlock : ({ one with resetPin := true } : State).resetPin = true ∧ one.script = [] ∧
    ¬(one.phase = .debounce ∧ ({ one with phase := .debounce, engine := .saved } : State).engine = .writing) ∧
    ({ one with phase := .debounce, engine := .writing } : State).engine = .writing := by
  decide

/-- Both clauses, at their boundary: 62 and 63 bytes resident. -/
theorem witness_EnqueueStoresOrDrops : (queue 62 0 []).head + 1 ≠ (queue 62 0 []).tail ∧
    (queue 3 4 []).head + 1 = (queue 3 4 []).tail := by decide

/-- Both clauses, at their boundary: 55 and 56 bytes resident. -/
theorem witness_EnqueuePauseIsAllOrNothing : count (queue 55 0 []) = 55 ∧ count (queue 56 0 []) = 56 := by decide

/-- Every class. -/
theorem witness_EncPressEnqueuesByClass : (⟨false, 0x45⟩ : Entry).cls = .normal ∧ (⟨true, 0x75⟩ : Entry).cls = .extended ∧
    (⟨true, 0xE1⟩ : Entry).cls = .pause ∧ (⟨true, 0x00⟩ : Entry).cls = .disabled := by decide

theorem witness_EncReleaseEnqueuesByClass : (⟨false, 0xF0⟩ : Entry).cls = .normal ∧ (⟨true, 0x74⟩ : Entry).cls = .extended ∧
    (⟨false, 0xE1⟩ : Entry).cls = .pause ∧ (⟨false, 0x00⟩ : Entry).cls = .disabled := by decide

theorem witness_SequenceRowsEnqueueTheirBytes : (0x01 : Byte) ≠ Config.keyNone ∧ (0x01 : Byte) ≠ Config.keyPause := by decide

theorem witness_EncoderDependsOnEntryAndQueueOnly :
    let s := queue 63 10 [(62, 0x45)]
    let s' : State := { s with profile := 3, swapAB := true, cfg := true, btn := select8, now := 9 }
    s.qram = s'.qram ∧ s.head = s'.head ∧ s.tail = s'.tail ∧ s ≠ s' := by decide

/-- The first and the last address. -/
theorem witness_LayoutLookupReadsAddressProfileButton :
    (0 : Fin 32).val = (0 : Profile).toNat * 8 + (0 : BitVec 3).toNat ∧
    (31 : Fin 32).val = (3 : Profile).toNat * 8 + (7 : BitVec 3).toNat := by decide

/-- The bytes fit exactly, and there are some. -/
theorem witness_EdgeScanEncodesEveryChange : edgeBytes 0xFE (queue 62 0 []) = [0x3A] ∧ free (queue 62 0 []) = 1 := by decide

theorem witness_EdgeScanTwiceChangesNothing : (nextOf (exec (.edgeScan 0xF6) idle)).isSome = true := by decide

theorem witness_SwapExchangesPhysicalAAndB : (0xFD : Mask).getLsbD 0 = (0xFE : Mask).getLsbD 1 ∧
    (0xFD : Mask).getLsbD 1 = (0xFE : Mask).getLsbD 0 ∧ ∀ i, 2 ≤ i → (0xFD : Mask).getLsbD i = (0xFE : Mask).getLsbD i := by
  refine ⟨rfl, rfl, fun i hi => ?_⟩
  rcases Nat.lt_or_ge i 8 with h | h
  · have : ∀ i < 8, 2 ≤ i → (0xFD : Mask).getLsbD i = (0xFE : Mask).getLsbD i := by decide
    exact this i h hi
  · rw [BitVec.getLsbD_of_ge _ _ h, BitVec.getLsbD_of_ge _ _ h]

/-- A layout of disabled entries, and a button that does change. -/
theorem witness_DisabledButtonsAreTrackedSilently :
    let s : State := { idle with params := { lrom := Vector.replicate 32 disabledEntry } }
    (∀ i : Button, logical s.swapAB 0xFE i ≠ s.btn[i.val] →
      (lookupEntry s.params.lrom s.profile i).code = Config.keyNone) ∧
      logical s.swapAB 0xFE 0 ≠ s.btn[0] := by decide

/-- Both clauses with hypotheses: Start is marked and released, in EDGE_SCAN and in RELEASE_ALL. -/
theorem witness_PauseHasNoRelease :
    let s : State := { idle with btn := #v[false, false, false, true, false, false, false, false] }
    (∀ i : Button, logical s.swapAB 0xFF i ≠ s.btn[i.val] →
      s.btn[i.val] = true ∧ (lookupEntry s.params.lrom s.profile i).code = Config.keyPause) ∧
    logical s.swapAB 0xFF 3 ≠ s.btn[3] ∧
    (∀ i : Button, s.btn[i.val] = true → (lookupEntry s.params.lrom 1 i).code = Config.keyPause) := by decide

theorem witness_DebounceStoresThenWaits :
    let s : State := { idle with phase := .debounce }
    s.resetPin = false ∧ s.script = [] ∧ s.phase = .debounce ∧ s.engine = .off := by decide

theorem witness_SampleReadsTheEightLevels : ∀ k : Button, (0xF6 : Mask).getLsbD k.val =
    (([false, true, true, false, true, true, true, true] : List Bool)[k.val]?).getD
      (Config.freePadLevel (0 + (k.val - 8))) := by
  intro k
  match k with
  | 0 | 1 | 2 | 3 | 4 | 5 | 6 | 7 => rfl

/-- Both hypotheses: an empty queue, and the last microsecond before the gate opens. -/
theorem witness_DrainWithClosedGateDoesNothing : idle.head = idle.tail ∧
    timeSub none (readNow { one with timeIn := [2499] }).now 0 < 2500 := by decide

/-- Both clauses: a byte in the slot, and a slot nothing has written. -/
theorem witness_DrainSendsTheOldestByte :
    ∀ q ∈ [([(0, 0x45)] : Memory), []], let s : State := { queue 1 0 q with timeIn := [2500], kbIn := [(true, true)] }
      s.head ≠ s.tail ∧ 2500 ≤ timeSub s.params.timeW (readNow s).now s.lastSend ∧ (pollLines (readNow s)).1 = (true, true) ∧
      qramRead s s.tail = if q = [] then none else some 0x45 := by decide

theorem witness_BusyPeerHoldsTheCycle :
    let s : State := { one with timeIn := [2500], kbIn := [(true, false)] }
    s.head ≠ s.tail ∧ 2500 ≤ timeSub s.params.timeW (readNow s).now s.lastSend ∧
      (pollLines (readNow s)).1 ≠ (true, true) ∧ s.phase = .drain := by decide

/-- Both clauses. -/
theorem witness_IdleWaitPollsBothLines : (pollLines { one with kbIn := [(true, true)] }).1 = (true, true) ∧
    (pollLines { one with kbIn := [(false, true)] }).1 ≠ (true, true) := by decide

theorem witness_TimestampsAreSpaced :
    let s : State := { one with timeIn := [2500, 0], kbIn := [(true, true)] }
    s.params.timeW = none ∧ (nextOf (exec .drain s)).map (fun t => decide (t.tail ≠ s.tail)) = some true := by decide

/-! ### States that meet the invariants -/

/-- The queue with one byte meets the invariant, in every phase. -/
theorem inv_one (p : Phase) (ti : List Time) (ki : List (Bool × Bool)) :
    Inv { one with phase := p, timeIn := ti, kbIn := ki } where
  qram_wf := rfl
  qram_slots := by simp [one, queue]
  resident_written := by
    intro k hk
    obtain rfl : k = 0 := by simpa [count, one, queue, idle, State.reset] using hk
    rfl
  pending := fun _ => by simp [one, queue]
  nv_wf := rfl
  time_order := fun _ => Nat.le_refl 0
  time_width := fun w hw => by cases hw

/-- The idle state meets the invariant. -/
theorem inv_idle (ti : List Time) : Inv { idle with timeIn := ti } where
  qram_wf := rfl
  qram_slots := fun c hc => by cases hc
  resident_written := fun k hk => by simp [count, idle, State.reset] at hk
  pending := fun h => by simp [idle] at h
  nv_wf := rfl
  time_order := fun _ => Nat.le_refl 0
  time_width := fun w hw => by cases hw

/-- A state of phase SETTLE or of a phase without a clause meets the sequencer's invariant. -/
theorem sequencerInv_settle : SequencerInv { one with phase := .settle } where
  latch_high := fun h => by cases h
  pad_clk_high := fun h => by cases h
  kb_clk_low := fun h => by cases h
  kb_data_low := fun h => by cases h
  bit_out := fun h => by cases h
  frame_position := fun h => by cases h
  sample_position := fun h => by cases h
  engine_of_phase := .inl rfl
  select_mode := fun h => by simp at h
  action_mode := fun h => by simp at h
  scanned := fun h => by cases h

/-- The state in phase CONFIG with Down fresh. -/
def configuring : State := { idle with phase := .config, cfg := true, curMask := 0xDB, swapAB := true, profile := 2 }

/-- It meets the sequencer's invariant. -/
theorem sequencerInv_configuring : SequencerInv configuring where
  latch_high := fun h => by cases h
  pad_clk_high := fun h => by cases h
  kb_clk_low := fun h => by cases h
  kb_data_low := fun h => by cases h
  bit_out := fun h => by cases h
  frame_position := fun h => by cases h
  sample_position := fun h => by cases h
  engine_of_phase := .inl rfl
  select_mode := fun _ => by decide
  action_mode := fun _ => rfl
  scanned := fun h => by cases h

/-- Between cycles, Select marked, and A and Select held at the controller: the cycle fires CFG_SWAP_A. -/
theorem inv_acting : Inv { idle with timeIn := [0], padIn := maskLevels 0xFA, swapAB := true, btn := select8 } where
  qram_wf := rfl
  qram_slots := fun c hc => by cases hc
  resident_written := fun k hk => by simp [count, idle, State.reset] at hk
  pending := fun h => by simp [idle] at h
  nv_wf := rfl
  time_order := fun _ => Nat.le_refl 0
  time_width := fun w hw => by cases hw

/-- The clause on actions: the sampled mask fires one, at configuration entry with Select marked; and the clause on room. -/
theorem witness_CycleEnds_acted :
    let s : State := { idle with timeIn := [0], padIn := maskLevels 0xFA, swapAB := true, btn := select8 }
    Inv s ∧ gateOpen (readNow s) = false ∧ (nextOf (exec .cycle s)).map (fun t => (cycleAction t.curMask s, t.swapAB, t.btn)) =
      some (some .swapA, false, none8) ∧ cycleBytes 0xFA s = [0xF0, 0x76] ∧ free s = 63 :=
  ⟨inv_acting, by decide, by decide, by decide, by decide⟩

/-- Both ways to complete: a closed gate, and an open gate with the lines high. -/
theorem witness_CycleCompletesAndFollowsTheMask :
    (Inv { idle with timeIn := [0] } ∧ gateOpen (readNow { idle with timeIn := [0] }) = false) ∧
    (Inv { one with phase := .drain, timeIn := [2500], kbIn := [(true, true)] } ∧
      gateOpen (readNow { one with timeIn := [2500] }) = true ∧
      (pollLines (readNow { one with phase := .drain, timeIn := [2500], kbIn := [(true, true)] })).1 = (true, true)) :=
  ⟨⟨inv_idle _, by decide⟩, inv_one _ _ _, by decide, by decide⟩

/-- Both clauses. -/
theorem witness_HeldCycleResumes :
    (Inv { one with phase := .idleWait, timeIn := [], kbIn := [(true, true)] } ∧
      (pollLines { one with phase := .idleWait, timeIn := [], kbIn := [(true, true)] }).1 = (true, true)) ∧
    State.reset.phase = .resetLoad ∧ (nextOf (exec .nvLoad State.reset)).isSome = true :=
  ⟨⟨inv_one _ _ _, by decide⟩, rfl, by decide⟩

theorem witness_MaskRowsRunOneCycle : Inv { idle with timeIn := [0] } ∧ ({ idle with timeIn := [0] } : State).phase = .drain ∧
    gateOpen (readNow { idle with timeIn := [0] }) = false := ⟨inv_idle _, rfl, by decide⟩

/-- V-CTL-22: A fires CFG_SWAP_A in two cycles running. -/
theorem witness_HeldConfigButtonFiresAgain :
    let s : State := { idle with timeIn := [0, 0] }
    s.phase = .drain ∧ s.params.cfgActionUpdatesPrev = false ∧ selectPressed 0xFA = true ∧
      configAction 0xFA s.prevMask = some .swapA ∧
      ((nextOf (exec (maskRow 0 0xFA) s)).bind fun t => nextOf (exec (maskRow 0 0xFA) t)).map (fun u => u.phase) =
        some .drain ∧
      (nextOf (exec (maskRow 0 0xFA) s)).map (fun t => t.phase) = some .drain := by decide

theorem witness_SettingsByteFields : (0xFB : Byte).extractLsb' 0 3 = (0x03 : Byte).extractLsb' 0 3 := by decide

/-- Both clauses: no write in progress, and one in progress. -/
theorem witness_ResetLeavesTheResetValues : Memory.wf (some nvErased) one.nv = true ∧
    ¬(one.phase = .debounce ∧ one.engine = .writing) ∧
    ({ one with phase := .debounce, engine := .writing } : State).phase = .debounce ∧
    ({ one with phase := .debounce, engine := .writing } : State).engine = .writing := by decide

theorem witness_SettingsSurviveReset : ¬(configuring.phase = .debounce ∧ configuring.engine = .writing) := by decide

/-- A byte queued after RESET, and a DRAIN one microsecond before the gate opens. -/
theorem witness_NothingIsSentInTheFirstInterval :
    let v : State := { one with timeIn := [2499] }
    one.params.timeW = none ∧ (nextOf (exec .reset one)).map (fun t => (t.lastSend, t.params)) = some (v.lastSend, v.params) ∧
      (nextOf (exec .drain v)).isSome = true ∧ (readNow v).now < 2500 := by decide

/-- A step from the invariant: the settle phase consumes the byte. -/
theorem witness_EveryStepKeepsTheInvariant : Inv { one with phase := .settle, timeIn := [0], kbIn := [] } ∧
    (nextOf (step { one with phase := .settle, timeIn := [0], kbIn := [] })).map (fun t => t.tail) = some 1 :=
  ⟨inv_one _ _ _, by decide⟩

theorem witness_NoStepFaultsUnderTheInvariant : Inv { one with phase := .tx, timeIn := [], kbIn := [] } := inv_one _ _ _

theorem witness_SequencerKeepsItsInvariant : SequencerInv configuring ∧ configuring.script = [] ∧
    (nextOf (step configuring)).map (fun t => t.phase) = some .debounce := ⟨sequencerInv_configuring, rfl, by decide⟩

/-- A step that does change the settings. -/
theorem witness_SettingsChangeOnlyInConfigMode : SequencerInv configuring ∧ configuring.script = [] ∧
    configuring.resetPin = false ∧ (nextOf (step configuring)).map (fun t => decide (t.profile ≠ configuring.profile)) =
      some true := ⟨sequencerInv_configuring, rfl, rfl, by decide⟩

theorem witness_BytesLeaveInTheOrderEnqueued : Inv { one with phase := .settle } ∧ SequencerInv { one with phase := .settle } ∧
    one.script = [] ∧ one.resetPin = false ∧
    (nextOf (step { one with phase := .settle, timeIn := [0] })).isSome = true :=
  ⟨inv_one .settle [] [], sequencerInv_settle, rfl, rfl, by decide⟩

/-- A step that moves `tail`, and one that moves `head`. -/
theorem witness_IndicesMoveOnlyInTheirPhases :
    (nextOf (step { one with phase := .settle, timeIn := [0] })).map (fun t => decide (t.tail ≠ one.tail)) = some true ∧
    (nextOf (step { one with phase := .normal, curMask := 0xFE })).map (fun t => decide (t.head ≠ one.head)) = some true := by
  decide

/-- A step that writes the settings store. -/
theorem witness_NoStepWritesOutsideItsSpaces :
    (nextOf (step { configuring with phase := .debounce, engine := .writing })).map (fun t => t.nv) = some [(0, 0x06)] := by
  decide

end Sys2Proof.Machine
end

/-! The sequencer's steps run CYCLE (R5, R20, R125): each phase is run to its end, and the runs are chained. -/

namespace Sys2Proof.Machine

/-! ### Positions of the sequencer -/

/-- Neither the reset input nor a script word comes before the sequencer (log 5, 6). -/
structure Quiet (s : State) : Prop where
  resetPin : s.resetPin = false
  script : s.script = []

/-- The next step is the sequencer's, at phase p with the engine at e. -/
structure At (p : Phase) (e : Engine) (s : State) : Prop extends Quiet s where
  phase : s.phase = p
  engine : s.engine = e

/-- Only the reset input and the script matter. -/
theorem Quiet.congr {s t : State} (h : Quiet s) (hr : t.resetPin = s.resetPin) (hs : t.script = s.script) : Quiet t :=
  ⟨hr.trans h.resetPin, hs.trans h.script⟩

/-- What changes the queue only leaves the sequencer its turn. -/
theorem Quiet.queueOnly {s t : State} (h : Quiet s) (hq : QueueOnly s t) : Quiet t :=
  h.congr hq.resetPin_eq hq.script_eq

/-- At the start of a phase the engine is not begun. -/
theorem Quiet.goto {s : State} (h : Quiet s) (p : Phase) : At p .off (Machine.goto p s) := ⟨h.congr rfl rfl, rfl, rfl⟩

theorem Quiet.readNow {s : State} (h : Quiet s) : Quiet (Machine.readNow s) :=
  h.congr (by rw [readNow_frame]) (by rw [readNow_frame])

theorem Quiet.pollLines {s : State} (h : Quiet s) : Quiet (Machine.pollLines s).2 :=
  h.congr (by rw [pollLines_frame]) (by rw [pollLines_frame])

theorem Quiet.stampSend {s : State} (h : Quiet s) : Quiet (Machine.stampSend s) :=
  h.readNow.congr rfl rfl

theorem Quiet.txByte {s : State} (h : Quiet s) (b : Byte) : Quiet (Machine.txByte b s) :=
  h.congr (by rw [txByte_eq]) (by rw [txByte_eq])

theorem Quiet.sample {s : State} (h : Quiet s) : Quiet (Machine.sample s) := by
  obtain ⟨m, -, he⟩ := sample_frame s
  exact h.congr (by rw [he]) (by rw [he])

theorem Quiet.selectEdge {s : State} (h : Quiet s) : Quiet (Machine.selectEdge s) := by
  obtain ⟨u, bs, hu, he⟩ := selectEdge_spec s
  exact (h.queueOnly hu.frame).congr (by rw [he]) (by rw [he])

theorem Quiet.applyAction {s : State} (h : Quiet s) (a : Action) : Quiet (Machine.applyAction a s) := by
  obtain ⟨u, bs, hu, he⟩ := applyAction_spec a s
  exact (h.queueOnly hu.frame).congr (by rw [he]) (by rw [he])

theorem Quiet.edgeScan {s : State} (h : Quiet s) (m : Mask) : Quiet (Machine.edgeScan m s) := by
  obtain ⟨u, -, hu, he, -⟩ := edgeScan_spec m s
  exact (h.queueOnly hu).congr (by rw [he]) (by rw [he])

/-- EDGE_SCAN leaves the sampled mask alone (R137). -/
theorem edgeScan_curMask (m : Mask) (s : State) : (edgeScan m s).curMask = s.curMask := by
  obtain ⟨u, -, hu, he, -⟩ := edgeScan_spec m s
  rw [he]
  exact hu.curMask_eq

/-- The step at a position is the sequencer's. -/
theorem At.step_eq {p : Phase} {e : Engine} {s : State} (h : At p e s) : step s = sequencerStep s :=
  step_of_quiet h.resetPin h.script

/-! ### Runs of bounded length -/

/-- From s at most b steps lead to the outcome o. -/
def Reaches (b : Nat) (s : State) (o : Host.Outcome State Fault Refusal) : Prop :=
  ∃ n ≤ b, Host.Core.run Sys2Proof.core n s = o

theorem Reaches.refl (b : Nat) (s : State) : Reaches b s (.next s) := ⟨0, Nat.zero_le b, core_run_zero s⟩

theorem Reaches.mono {b c : Nat} {s : State} {o : Host.Outcome State Fault Refusal} (h : Reaches b s o) (hbc : b ≤ c) :
    Reaches c s o :=
  let ⟨n, hn, hr⟩ := h
  ⟨n, hn.trans hbc, hr⟩

/-- A run of m steps first. -/
theorem Reaches.of_run {m b : Nat} {s t : State} {o : Host.Outcome State Fault Refusal}
    (hm : Host.Core.run Sys2Proof.core m s = Host.Outcome.next t) (h : Reaches b t o) : Reaches (m + b) s o :=
  let ⟨n, hn, hr⟩ := h
  ⟨m + n, Nat.add_le_add_left hn m, (core_run_add hm).trans hr⟩

/-- One step first. -/
theorem Reaches.of_step {b : Nat} {s t : State} {o : Host.Outcome State Fault Refusal} (hs : step s = .next t)
    (h : Reaches b t o) : Reaches (b + 1) s o :=
  let ⟨n, hn, hr⟩ := h
  ⟨n + 1, Nat.add_le_add_right hn 1, (core_run_next hs).trans hr⟩

/-- A run that stops at its first step. -/
theorem Reaches.of_fault {b : Nat} {s : State} {r : Fault} (hs : step s = .fault r) : Reaches (b + 1) s (.fault r) :=
  ⟨1, Nat.le_add_left 1 b, core_run_fault hs⟩

/-! ### The loops of the serial engines -/

/-- A loop of N + 1 turns of three steps each: `P k` holds before turn k, and the last turn ends the phase by `g`. -/
theorem run_loop {f g : State → State} {P : Nat → State → Prop} {N : Nat}
    (turn : ∀ k s, k < N → P k s → Host.Core.run Sys2Proof.core 3 s = Host.Outcome.next (f s) ∧ P (k + 1) (f s))
    (last : ∀ s, P N s → Host.Core.run Sys2Proof.core 3 s = Host.Outcome.next (g (f s))) {s : State} (h0 : P 0 s) :
    Host.Core.run Sys2Proof.core (3 * N + 3) s = Host.Outcome.next (g (repeatOp f (N + 1) s)) := by
  have turns : ∀ n ≤ N,
      Host.Core.run Sys2Proof.core (3 * n) s = Host.Outcome.next (repeatOp f n s) ∧ P n (repeatOp f n s) := by
    intro n hn
    induction n with
    | zero => exact ⟨core_run_zero s, h0⟩
    | succ n ih =>
      obtain ⟨hrun, hP⟩ := ih (by omega)
      rw [repeatOp_succ, Nat.mul_succ, core_run_add hrun]
      exact turn n _ hn hP
  obtain ⟨hrun, hP⟩ := turns N le_rfl
  rw [repeatOp_succ, core_run_add hrun]
  exact last _ hP

/-- What does not look at the engine's position can be repeated without looking at it. -/
theorem repeatOp_atEngine {f : State → State} {e : Engine} (hf : ∀ s, f (atEngine e s) = atEngine e (f s)) (n : Nat)
    (s : State) : repeatOp f n (atEngine e s) = atEngine e (repeatOp f n s) := by
  induction n with
  | zero => rfl
  | succ n ih => rw [repeatOp_succ, repeatOp_succ, ih, hf]

theorem txBit_atEngine (e : Engine) (s : State) : txBit (atEngine e s) = atEngine e (txBit s) := rfl

theorem sampleBit_atEngine (e : Engine) (s : State) : sampleBit (atEngine e s) = atEngine e (sampleBit s) := by
  rw [sampleBit_eq, sampleBit_eq]
  rfl

/-- Below 16 a four-bit counter tells its values apart (log 29). -/
theorem ofNat4_ne {k n : Nat} (hk : k < n) (hn : n < 16) : BitVec.ofNat 4 k ≠ BitVec.ofNat 4 n := by
  intro h
  have h := congrArg BitVec.toNat h
  rw [BitVec.toNat_ofNat, BitVec.toNat_ofNat, Nat.mod_eq_of_lt (by omega), Nat.mod_eq_of_lt hn] at h
  omega

/-- Phase TX before bit k of the frame (R113). -/
structure BeforeTxBit (k : Nat) (s : State) : Prop extends At .tx .ready s where
  txCnt : s.txCnt = BitVec.ofNat 4 k

/-- One turn of the frame loop goes on to the next bit. -/
theorem BeforeTxBit.txBit {k : Nat} {s : State} (h : BeforeTxBit k s) : BeforeTxBit (k + 1) (Machine.txBit s) := by
  rw [txBit_eq]
  exact ⟨⟨⟨h.resetPin, h.script⟩, h.phase, h.engine⟩, by rw [BitVec.ofNat_add, ← h.txCnt]; rfl⟩

/-- The three steps of a turn before the last (R113; log 5). -/
theorem BeforeTxBit.turn {k : Nat} {s : State} (hk : k < 10) (h : BeforeTxBit k s) :
    Host.Core.run Sys2Proof.core 3 s = Host.Outcome.next (Machine.txBit s) ∧ BeforeTxBit (k + 1) (Machine.txBit s) := by
  have hc : (Machine.txBit s).txCnt ≠ 11 := h.txBit.txCnt ▸ ofNat4_ne (n := 11) (by omega) (by omega)
  exact ⟨(run_txBit h.resetPin h.script h.phase h.engine).trans (congrArg Host.Outcome.next (if_neg hc)), h.txBit⟩

/-- The three steps of the last turn end the frame (R113; log 5). -/
theorem BeforeTxBit.last {s : State} (h : BeforeTxBit 10 s) :
    Host.Core.run Sys2Proof.core 3 s = Host.Outcome.next (Machine.goto .settle (endFrame (Machine.txBit s))) :=
  (run_txBit h.resetPin h.script h.phase h.engine).trans (congrArg Host.Outcome.next (if_pos h.txBit.txCnt))

/-- Phase TX: 34 steps send the frame of the byte at `tail` (R109, R113; log 5). -/
theorem run_tx {s : State} {b : Byte} (h : At .tx .off s) (hb : qramRead s s.tail = some b) :
    Host.Core.run Sys2Proof.core 34 s = Host.Outcome.next (goto .settle (sendFrame (parity b) b s)) := by
  have load : step s = .next (atEngine .ready (startFrame (parity b) b s)) := by
    rw [h.step_eq]
    simp only [sequencerStep, h.phase, stepTx, h.engine, hb, atEngine]
  have start : BeforeTxBit 0 (atEngine .ready (startFrame (parity b) b s)) :=
    ⟨⟨h.toQuiet.congr rfl rfl, h.phase, rfl⟩, rfl⟩
  have loop := run_loop (f := txBit) (g := fun t => goto .settle (endFrame t)) (P := BeforeTxBit) (N := 10)
    (fun _ _ => BeforeTxBit.turn) (fun _ => BeforeTxBit.last) start
  rw [core_run_next load, loop, repeatOp_atEngine (txBit_atEngine .ready), endFrame_atEngine, goto_atEngine]
  rfl

/-- Phase SAMPLE before read k (R70). -/
structure BeforeRead (k : Nat) (s : State) : Prop extends At .sample .ready s where
  sampCnt : s.sampCnt = BitVec.ofNat 4 k

/-- One turn of the read loop goes on to the next read. -/
theorem BeforeRead.sampleBit {k : Nat} {s : State} (h : BeforeRead k s) :
    BeforeRead (k + 1) (Machine.sampleBit s) := by
  rw [sampleBit_eq]
  exact ⟨⟨⟨h.resetPin, h.script⟩, h.phase, h.engine⟩, by rw [BitVec.ofNat_add, ← h.sampCnt]; rfl⟩

/-- The three steps of a turn before the last (R70, R71; log 5). -/
theorem BeforeRead.turn {k : Nat} {s : State} (hk : k < 7) (h : BeforeRead k s) :
    Host.Core.run Sys2Proof.core 3 s = Host.Outcome.next (Machine.sampleBit s) ∧ BeforeRead (k + 1) (Machine.sampleBit s) := by
  have hc : (Machine.sampleBit s).sampCnt ≠ 8 := h.sampleBit.sampCnt ▸ ofNat4_ne (n := 8) (by omega) (by omega)
  exact ⟨(run_sampleBit h.resetPin h.script h.phase h.engine).trans (congrArg Host.Outcome.next (if_neg hc)), h.sampleBit⟩

/-- The three steps of the last turn end the sample (R70, R71; log 5). -/
theorem BeforeRead.last {s : State} (h : BeforeRead 7 s) :
    Host.Core.run Sys2Proof.core 3 s = Host.Outcome.next (Machine.goto .selectEdge (Machine.sampleBit s)) :=
  (run_sampleBit h.resetPin h.script h.phase h.engine).trans (congrArg Host.Outcome.next (if_pos h.sampleBit.sampCnt))

/-- Phase SAMPLE: 26 steps are SAMPLE (R20, R70; log 5). -/
theorem run_sample {s : State} (h : At .sample .off s) :
    Host.Core.run Sys2Proof.core 26 s = Host.Outcome.next (goto .selectEdge (sample s)) := by
  have raise : step s = .next (atEngine .latchHigh (raiseLatch s)) := by
    rw [h.step_eq]
    simp only [sequencerStep, h.phase, stepSample, h.engine, atEngine]
  have high : At .sample .latchHigh (atEngine .latchHigh (raiseLatch s)) := ⟨h.toQuiet.congr rfl rfl, h.phase, rfl⟩
  have lower : step (atEngine .latchHigh (raiseLatch s)) = .next (atEngine .ready (startSample s)) := by
    rw [high.step_eq]
    simp only [sequencerStep, high.phase, stepSample, high.engine]
    rfl
  have start : BeforeRead 0 (atEngine .ready (startSample s)) := by
    rw [startSample_eq]
    exact ⟨⟨⟨h.resetPin, h.script⟩, h.phase, rfl⟩, rfl⟩
  have loop := run_loop (f := sampleBit) (g := goto .selectEdge) (P := BeforeRead) (N := 7)
    (fun _ _ => BeforeRead.turn) (fun _ => BeforeRead.last) start
  rw [core_run_next raise, core_run_next lower, loop, repeatOp_atEngine (sampleBit_atEngine .ready), goto_atEngine]
  rfl

/-! ### Steps 2 to 6 of a cycle -/

/-- Phases NORMAL and STORE: EDGE_SCAN and STORE_PREV end the cycle (R137, R138). -/
theorem reaches_scan {s : State} (h : Quiet s) :
    Reaches 2 (goto .normal s) (.next (goto .drain (storePrev s.curMask (edgeScan s.curMask s)))) := by
  have scan : step (goto .normal s) = .next (goto .store (edgeScan s.curMask s)) := by
    rw [(h.goto .normal).step_eq]
    simp only [sequencerStep, goto_phase, goto_curMask, execEdgeScan]
    rw [goto_eq_atPhase .normal, edgeScan_atPhase, goto_atPhase]
  have store : step (goto .store (edgeScan s.curMask s)) =
      .next (goto .drain (storePrev s.curMask (edgeScan s.curMask s))) := by
    rw [((h.edgeScan s.curMask).goto .store).step_eq]
    simp only [sequencerStep, goto_phase, goto_curMask, execStorePrev, edgeScan_curMask]
    rfl
  exact .of_step scan (.of_step store (.refl 0 _))

/-- Phases CONFIG and DEBOUNCE when an action fires: the action ends the cycle (R130, R139, R140). -/
theorem reaches_action {s : State} {a : Action} (h : Quiet s) (ha : configAction s.curMask s.prevMask = some a) :
    Reaches 4 (goto .config s) (.next (runAction a s)) := by
  have act : step (goto .config s) = .next (goto .debounce (applyAction a s)) := by
    rw [(h.goto .config).step_eq]
    simp only [sequencerStep, goto_phase, stepConfig, goto_curMask, goto_prevMask, ha]
    rw [goto_eq_atPhase .config, applyAction_atPhase, goto_atPhase]
  have wait := (h.applyAction a).goto .debounce
  have write := run_debounce wait.resetPin wait.script wait.phase wait.engine
  rw [goto_eq_atPhase, endAction_debounce_atPhase] at write
  exact .of_step act (.of_run write (.refl 0 _))

/-- From the phase after SELECT_EDGE at most 4 steps are steps 4 to 6 of a cycle (R125, R130, R135). -/
theorem reaches_steps4to6 {s : State} (h : Quiet s) :
    Reaches 4 (goto (if s.cfg then .config else .normal) s) (.next (steps4to6 s)) := by
  unfold steps4to6
  cases s.cfg with
  | false => exact (reaches_scan h).mono (by omega)
  | true =>
    simp only [if_true]
    cases ha : configAction s.curMask s.prevMask with
    | some a => exact reaches_action h ha
    | none =>
      have skip : step (goto .config s) = .next (goto .normal s) := by
        rw [(h.goto .config).step_eq]
        simp only [sequencerStep, goto_phase, stepConfig, goto_curMask, goto_prevMask, ha, goto_goto]
      exact (Reaches.of_step skip (reaches_scan h)).mono (by omega)

/-- From phase SAMPLE at most 31 steps are steps 2 to 6 of a cycle (R125). -/
theorem reaches_afterDrain {s : State} (h : At .sample .off s) : Reaches 31 s (.next (afterDrain s)) := by
  have sampled : Quiet (sample s) := h.toQuiet.sample
  have edge : step (goto .selectEdge (sample s)) =
      .next (goto (if (selectEdge (sample s)).cfg then .config else .normal) (selectEdge (sample s))) := by
    rw [(sampled.goto .selectEdge).step_eq]
    simp only [sequencerStep, goto_phase, stepSelectEdge]
    rw [goto_eq_atPhase .selectEdge, selectEdge_atPhase, goto_atPhase]
    rfl
  exact .of_run (run_sample h) (.of_step edge (reaches_steps4to6 sampled.selectEdge))

/-! ### Step 1 of a cycle, and the whole cycle -/

/-- A DRAIN that completes is followed by steps 2 to 6 (R125). -/
theorem reaches_completeCycle {s : State} (h : Quiet s) :
    Reaches 31 (goto .sample s) (completeCycle (.next (goto .sample s))) :=
  reaches_afterDrain (h.goto .sample)

/-- From phase TX at most 66 steps send the byte at `tail` and complete the cycle, or stop where there is none (R109, log
9). -/
theorem reaches_sendOldest {s : State} (h : Quiet s) : Reaches 66 (goto .tx s) (completeCycle (sendOldest s)) := by
  have tx := h.goto .tx
  cases hb : qramRead s s.tail with
  | none =>
    have stop : step (goto .tx s) = .fault (.qramUnwritten s.tail.toNat) := by
      have hb' : qramRead (goto .tx s) s.tail = none := hb
      rw [tx.step_eq]
      simp only [sequencerStep, goto_phase, stepTx, goto_engine, goto_tail, hb']
    rw [sendOldest_of_none hb]
    exact .of_fault stop
  | some b =>
    have frame : Host.Core.run Sys2Proof.core 34 (goto .tx s) =
        Host.Outcome.next (goto .settle (sendFrame (parity b) b s)) := by
      rw [run_tx tx hb, sendFrame_eq, sendFrame_eq]
      rfl
    have sent : Quiet (sendFrame (parity b) b s) := h.congr (by rw [sendFrame_eq]) (by rw [sendFrame_eq])
    have settle : step (goto .settle (sendFrame (parity b) b s)) =
        .next (goto .sample (stampSend (consumeByte (txByte b s)))) := by
      rw [(sent.goto .settle).step_eq]
      simp only [sequencerStep, goto_phase, stepSettle]
      have hd : consumeByte (delay Config.tSettle (goto .settle (sendFrame (parity b) b s))) =
          atPhase .settle .off (consumeByte (txByte b s)) := rfl
      rw [hd, stampSend_atPhase, goto_atPhase]
    have consumed : Quiet (consumeByte (txByte b s)) := (h.txByte b).congr rfl rfl
    rw [sendOldest_of_some hb]
    exact .of_run frame (.of_step settle (reaches_completeCycle consumed.stampSend))

/-- From phase IDLE_WAIT at most 67 steps are the rest of a cycle, one poll where a line is low (R111, R164; log 18). -/
theorem reaches_waitThenSend {s : State} (h : Quiet s) :
    Reaches 67 (goto .idleWait s) (completeCycle (waitThenSend s)) := by
  have poll : step (goto .idleWait s) = .next (if (pollLines s).1.1 && (pollLines s).1.2
      then goto .tx (pollLines s).2 else goto .idleWait (pollLines s).2) := by
    have hp := pollLines_atPhase .idleWait .off s
    rw [← goto_eq_atPhase] at hp
    rw [(h.goto .idleWait).step_eq]
    simp only [sequencerStep, goto_phase, execIdleWait, hp, if_true]
    split <;> rfl
  by_cases hi : (pollLines s).1 = (true, true)
  · rw [hi] at poll
    rw [waitThenSend_of_idle hi]
    exact .of_step poll (reaches_sendOldest h.pollLines)
  · have hlow : ((pollLines s).1.1 && (pollLines s).1.2) ≠ true := fun e =>
      hi (Prod.ext (Bool.and_eq_true_iff.1 e).1 (Bool.and_eq_true_iff.1 e).2)
    rw [if_neg hlow] at poll
    rw [waitThenSend_of_busy hi]
    exact .of_step poll (.refl 66 _)

/-- From phase DRAIN at most 68 steps are a whole cycle (R110, R125). -/
theorem reaches_cycle {s : State} (h : Quiet s) (hp : s.phase = .drain) : Reaches 68 s (cycle s) := by
  have gate : step s =
      .next (if gateOpen (readNow s) then goto .idleWait (readNow s) else goto .sample (readNow s)) := by
    rw [step_of_quiet h.resetPin h.script]
    simp only [sequencerStep, hp, stepDrain]
  have answer : cycle s = completeCycle (drain s) := by simp only [cycle, hp]
  rw [answer]
  cases hg : gateOpen (readNow s) with
  | true =>
    rw [hg] at gate
    rw [drain_of_open hg]
    exact .of_step gate (reaches_waitThenSend h.readNow)
  | false =>
    rw [hg] at gate
    rw [drain_of_closed hg]
    exact (Reaches.of_step gate (reaches_completeCycle h.readNow)).mono (by omega)

/-- Settles O8: each phase is run to its end, the serial loops by one induction over their turns, and the runs are chained
along the branches of CYCLE. -/
theorem sequencerStepsRunCycle : Obligations.SequencerStepsRunCycle :=
  fun _ hp hr hs => reaches_cycle ⟨hr, hs⟩ hp

end Sys2Proof.Machine

/-! Every step keeps the invariant (R21, R105, R181), and the sequencer's transfers are those of R20's table: what each
phase's step is in terms of the operations, and what each instruction keeps. -/

namespace Sys2Proof.Machine

/-! ### The invariant across an outcome -/

/-- An operation that answers one state answers no other. -/
theorem inv_of_next {s t : State} (h : Inv s) (ht : (.next s : Host.Outcome State Fault Refusal) = .next t) : Inv t :=
  Host.Outcome.next.inj ht ▸ h

/-- What keeps, and then goes on to a phase that needs no pending byte. -/
theorem Inv.keeps_goto {s u : State} (h : Inv s) (k : Keeps s u) {p : Phase}
    (hp : p ≠ .idleWait ∧ p ≠ .tx ∧ p ≠ .settle) : Inv (goto p u) :=
  (k.core h.core).inv_goto hp

/-- What keeps, and then goes on to any phase with a byte pending. -/
theorem Inv.keeps_goto_pending {s u : State} (h : Inv s) (k : Keeps s u) (hn : s.head ≠ s.tail) (p : Phase) :
    Inv (goto p u) :=
  ((k.core h.core).goto p).inv fun _ => k.nonempty hn

/-! ### One poll, and the end of an action -/

/-- IDLE_WAIT with both lines high returns (R111). -/
theorem execIdleWait_of_idle {s : State} (h : (pollLines s).1 = (true, true)) :
    execIdleWait s = .next (if s.phase = .idleWait then goto .tx (pollLines s).2 else (pollLines s).2) := by
  simp only [execIdleWait, h, Bool.and_self, if_true]

/-- IDLE_WAIT with a line low is held (R111, R164; log 17). -/
theorem execIdleWait_of_busy {s : State} (h : (pollLines s).1 ≠ (true, true)) :
    execIdleWait s = .next (if s.phase = .idleWait then (pollLines s).2
      else { (pollLines s).2 with script := encode .idleWait :: (pollLines s).2.script }) := by
  have hlow : ((pollLines s).1.1 && (pollLines s).1.2) ≠ true := fun e =>
    h (Prod.ext (Bool.and_eq_true_iff.1 e).1 (Bool.and_eq_true_iff.1 e).2)
  simp only [execIdleWait, if_neg hlow]

/-- An action ends in phase DRAIN (R140). -/
theorem endAction_goto (s : State) : ∃ u, Keeps s u ∧ endAction s = goto .drain u := by
  refine ⟨_, ?_, rfl⟩
  split
  · exact keeps_prevMask s _
  · exact .refl s

/-! ### The phases that the step divides -/

/-- A step inside a phase with positions of its own: from the position `last` it may leave for phase q; otherwise it stays,
the engine begun (log 5). -/
def EngineStep (last : Engine) (q : Phase) (s t : State) : Prop :=
  (s.engine = last ∧ ∃ u, Keeps s u ∧ t = goto q u) ∨ (t.engine ≠ .off ∧ Keeps s t)

/-- A step that stays, at position e. -/
theorem EngineStep.stay {last : Engine} {q : Phase} {s u : State} (k : Keeps s u) {e : Engine} (he : e ≠ .off) :
    EngineStep last q s { u with engine := e } :=
  .inr ⟨he, k.trans (keeps_engine u e)⟩

/-- The phase after the step (R20). -/
theorem EngineStep.phase {last : Engine} {q p : Phase} {s t : State} (h : EngineStep last q s t) (hp : s.phase = p) :
    t.phase = q ∧ s.engine = last ∨ t.phase = p ∧ t.engine ≠ .off := by
  rcases h with ⟨he, u, -, rfl⟩ | ⟨he, k⟩
  · exact .inl ⟨rfl, he⟩
  · exact .inr ⟨k.phase_eq.trans hp, he⟩

/-- The step keeps the invariant, if leaving for phase q does. -/
theorem EngineStep.inv {last : Engine} {q : Phase} {s t : State} (h : EngineStep last q s t) (hi : Inv s)
    (hq : ∀ u, Keeps s u → Inv (goto q u)) : Inv t := by
  rcases h with ⟨-, u, k, rfl⟩ | ⟨-, k⟩
  · exact hq u k
  · exact hi.keeps k

/-- Phase TX is left when the clock is released after the last bit (R20, R113). -/
theorem stepTx_engineStep {s t : State} (ht : stepTx s = .next t) : EngineStep .clkLow .settle s t := by
  cases he : s.engine <;> simp only [stepTx, he] at ht
  case ready =>
    cases ht
    exact .stay (keeps_putBit s) (by decide)
  case dataOut =>
    cases ht
    exact .stay (keeps_lowerKbClk s) (by decide)
  case clkLow =>
    cases ht
    split
    · exact .inl ⟨he, _, (keeps_endBit s).trans (keeps_endFrame _), rfl⟩
    · exact .stay (keeps_endBit s) (by decide)
  case off | latchHigh | clkHigh | writing | saved =>
    split at ht
    · cases ht
    · cases ht
      exact .stay (keeps_frame s _ _) (by decide)

/-- Phase SAMPLE is left at the end of the last low half-phase (R20, R70, R71). -/
theorem stepSample_engineStep (s : State) : EngineStep .clkLow .selectEdge s (stepSample s) := by
  cases he : s.engine <;> simp only [stepSample, he]
  case latchHigh => exact .stay (keeps_lowerLatch s) (by decide)
  case ready => exact .stay (keeps_readBit s) (by decide)
  case clkHigh => exact .stay (keeps_lowerPadClk s) (by decide)
  case clkLow =>
    split
    · exact .inl ⟨he, _, keeps_endRead s, rfl⟩
    · exact .stay (keeps_endRead s) (by decide)
  case off | dataOut | writing | saved => exact .stay (keeps_raiseLatch s) (by decide)

/-- Phase DEBOUNCE is left after the delay (R20, R139). -/
theorem stepDebounce_engineStep (s : State) : EngineStep .saved .drain s (stepDebounce s) := by
  cases he : s.engine <;> simp only [stepDebounce, he]
  case writing => exact .stay (keeps_nvSave s) (by decide)
  case saved =>
    obtain ⟨u, k, hu⟩ := endAction_goto (delay Config.tDebounce s)
    exact .inl ⟨he, u, (keeps_delay _ s).trans k, hu⟩
  case off | latchHigh | ready | clkHigh | dataOut | clkLow => exact .stay (.refl s) (by decide)

/-! ### The table of transfers -/

theorem stepDrain_phase (s : State) :
    (stepDrain s).phase = if gateOpen (readNow s) then .idleWait else .sample := by
  unfold stepDrain
  simp only
  split <;> rfl

theorem execIdleWait_phase {s t : State} (hp : s.phase = .idleWait) (ht : execIdleWait s = .next t) :
    t.phase = if (pollLines s).1 = (true, true) then .tx else .idleWait := by
  by_cases hi : (pollLines s).1 = (true, true)
  · rw [execIdleWait_of_idle hi, if_pos hp] at ht
    cases ht
    rw [if_pos hi]
    rfl
  · rw [execIdleWait_of_busy hi, if_pos hp] at ht
    cases ht
    rw [if_neg hi]
    exact (keeps_pollLines s).phase_eq.trans hp

theorem stepConfig_phase (s : State) :
    (stepConfig s).phase = if (configAction s.curMask s.prevMask).isSome then .debounce else .normal := by
  unfold stepConfig
  cases configAction s.curMask s.prevMask <;> rfl

/-- Settles O7, by the phase that takes the step; the three phases that the step divides make an `EngineStep`. -/
theorem sequencerTransfersArePhaseTable : Obligations.SequencerTransfersArePhaseTable := by
  intro s t hr hs ht
  rw [step_of_quiet hr hs] at ht
  cases hp : s.phase <;> simp only [sequencerStep, hp] at ht <;>
    simp only [reduceCtorEq, false_implies, true_implies, true_and, and_true]
  case resetLoad | settle | selectEdge | normal | store => cases ht; rfl
  case drain => cases ht; exact stepDrain_phase s
  case idleWait => exact execIdleWait_phase hp ht
  case tx => exact (stepTx_engineStep ht).phase hp
  case sample => cases ht; exact (stepSample_engineStep s).phase hp
  case config => cases ht; exact stepConfig_phase s
  case debounce => cases ht; exact (stepDebounce_engineStep s).phase hp

/-! ### The sequencer keeps the invariant -/

theorem Inv.execIdleWait {s t : State} (h : Inv s) (ht : execIdleWait s = .next t) : Inv t := by
  have k := keeps_pollLines s
  by_cases hi : (pollLines s).1 = (true, true)
  · rw [execIdleWait_of_idle hi] at ht
    refine inv_of_next ?_ ht
    split
    · exact h.keeps_goto_pending k (h.pending (.inl ‹_›)) _
    · exact h.keeps k
  · rw [execIdleWait_of_busy hi] at ht
    refine inv_of_next ?_ ht
    split
    · exact h.keeps k
    · exact h.keeps (k.trans (keeps_script _ _))

/-- Phase DRAIN waits only with a byte pending (R110). -/
theorem Inv.stepDrain {s : State} (h : Inv s) : Inv (stepDrain s) := by
  have core := (keeps_readNow s).core h.core
  unfold Machine.stepDrain
  simp only
  split
  · exact (core.goto _).inv fun _ => ((gateOpen_iff _).1 ‹_›).1
  · exact core.inv_goto (by decide)

/-- The byte that phase SETTLE consumes is pending (R116). -/
theorem Inv.stepSettle {s : State} (h : Inv s) (hp : s.phase = .settle) : Inv (stepSettle s) :=
  have k := keeps_delay Config.tSettle s
  ((k.core h.core).consumeByte (k.nonempty (h.pending (.inr (.inr hp))))).stampSend.inv_goto (by decide)

theorem Inv.stepSelectEdge {s : State} (h : Inv s) : Inv (stepSelectEdge s) := by
  refine h.keeps_goto (keeps_selectEdge s) ?_
  split <;> decide

theorem Inv.stepConfig {s : State} (h : Inv s) : Inv (stepConfig s) := by
  unfold Machine.stepConfig
  split
  · exact h.keeps_goto (keeps_applyAction _ s) (by decide)
  · exact h.keeps_goto (.refl s) (by decide)

/-- A step of the sequencer, by its phase. -/
theorem Inv.sequencerStep {s t : State} (h : Inv s) (ht : sequencerStep s = .next t) : Inv t := by
  unfold Machine.sequencerStep at ht
  cases hp : s.phase <;> rw [hp] at ht
  case resetLoad => exact inv_of_next (h.keeps_goto (keeps_nvLoad s) (by decide)) ht
  case drain => exact inv_of_next h.stepDrain ht
  case idleWait => exact h.execIdleWait ht
  case tx => exact (stepTx_engineStep ht).inv h fun _ k => h.keeps_goto_pending k (h.pending (.inr (.inl hp))) _
  case settle => exact inv_of_next (h.stepSettle hp) ht
  case sample => exact inv_of_next ((stepSample_engineStep s).inv h fun _ k => h.keeps_goto k (by decide)) ht
  case selectEdge => exact inv_of_next h.stepSelectEdge ht
  case config => exact inv_of_next h.stepConfig ht
  case debounce => exact inv_of_next ((stepDebounce_engineStep s).inv h fun _ k => h.keeps_goto k (by decide)) ht
  case normal => exact inv_of_next (h.keeps_goto (keeps_edgeScan s.curMask s) (by decide)) ht
  case store => exact inv_of_next (h.keeps_goto (keeps_prevMask s s.curMask) (by decide)) ht

/-! ### Every instruction and every script word keep the invariant -/

theorem Inv.runMask {m : Mask} {s t : State} (h : Inv s) (ht : runMask m s = .next t) : Inv t :=
  (h.keeps (keeps_padIn s _)).cycle ht

/-- An instruction, by its row of the opcode table. -/
theorem Inv.exec {i : Instr} {s t : State} (h : Inv s) (ht : exec i s = .next t) : Inv t := by
  cases i with
  | makeM | makeQ | makeA | makeO | makeP | make0 | make1 | make2 | make3 | make4 | make5 | make6 | make7 | make8 | make9
  | makeEsc | makeF1 | makeEnter | makeUpArrow | makeDownArrow | makeLeftArrow | makeRightArrow | pauseMake | disabledMake
  | make1Generic | xmake2Generic | encPress => exact inv_of_next (h.keeps (keeps_encPress _ s)) ht
  | breakM | breakQ | breakA | breakO | breakP | break0 | break1 | break2 | break3 | break4 | break5 | break6 | break7
  | break8 | break9 | breakEsc | breakF1 | breakEnter | breakUpArrow | breakDownArrow | breakLeftArrow | breakRightArrow
  | pauseBreak | disabledBreak | break2Generic | xbreak3Generic | encRelease =>
    exact inv_of_next (h.keeps (keeps_encRelease _ s)) ht
  | releaseAll p => exact inv_of_next (h.keeps (keeps_releaseAll p s)) ht
  | enqueue b => exact inv_of_next (h.keeps (keeps_enqueue b s)) ht
  | enqueuePause => exact inv_of_next (h.keeps (keeps_enqueuePause s)) ht
  | layoutLookup | entry => exact inv_of_next (h.keeps (keeps_busEntry s _)) ht
  | sample => exact inv_of_next (h.keeps_goto (keeps_sample s) (by decide)) ht
  | padstream r => exact inv_of_next (h.keeps_goto ((keeps_padIn s _).trans (keeps_sample _)) (by decide)) ht
  | txByte b => exact inv_of_next (h.keeps (keeps_txByte b s)) ht
  | frame p d => exact inv_of_next (h.keeps (keeps_sendFrame p d s)) ht
  | drain => exact h.core.drain ht
  | idleWait => exact h.execIdleWait ht
  | cycle => exact h.cycle ht
  | maskA | maskB | maskSelect | maskStart | maskUp | maskDown | maskLeft | maskRight => exact h.runMask ht
  | cfgEnter => exact inv_of_next (h.keeps_goto (keeps_cfgEnter s) (by decide)) ht
  | cfgExit => exact inv_of_next (h.keeps_goto (keeps_cfg s false) (by decide)) ht
  | cfgSwapA | cfgSwapB | cfgLayout => exact inv_of_next (h.core.runAction _) ht
  | edgeScan m => exact inv_of_next (h.keeps_goto (keeps_edgeScan m s) (by decide)) ht
  | storePrev m => exact inv_of_next (h.keeps_goto (keeps_prevMask s m) (by decide)) ht
  | debounce => exact inv_of_next (h.keeps_goto (keeps_debounce s) (by decide)) ht
  | nvLoad => exact inv_of_next (h.keeps_goto (keeps_nvLoad s) (by decide)) ht
  | nvSave => exact inv_of_next (h.keeps (keeps_nvSave s)) ht
  | reset => exact inv_of_next h.core.resetNow ht
  | settings v =>
    have k := (keeps_engine s .off).trans (keeps_nv _ s.params.nvAddr v)
    exact inv_of_next (k.core h.core).resetNow ht

/-- A script word that is no row's word answers only where it is a mask byte (R50, R64; log 13). -/
theorem runNoRow_next {e : DecodeError} {s t : State} (ht : runNoRow e s = .next t) :
    ∃ m, e = .notPressed m ∧ runMask m s = .next t := by
  cases e with
  | notPressed m => exact ⟨m, rfl, ht⟩
  | empty | truncated | badPause | neverSent | trailing | unknownOperation | operandRange | length | badFrame
  | badParity => cases ht

theorem Inv.runWord {w : CodeWord} {rest : List CodeWord} {s t : State} (h : Inv s) (ht : runWord w rest s = .next t) :
    Inv t := by
  have taken := h.keeps (keeps_script s rest)
  unfold Machine.runWord at ht
  split at ht
  · exact taken.exec ht
  · obtain ⟨m, -, hm⟩ := runNoRow_next ht
    exact taken.runMask hm

/-- Settles O54: RESET, a script word and a step of the sequencer each keep the invariant. -/
theorem everyStepKeepsTheInvariant : Obligations.EveryStepKeepsTheInvariant := by
  intro s t h ht
  unfold step at ht
  split at ht
  · exact inv_of_next h.core.assertReset ht
  · split at ht
    · exact h.runWord ht
    · exact h.sequencerStep ht

end Sys2Proof.Machine

/-! The memory spaces (R22, R32 to R34, R40, R41): what each operation may write, said by two relations between the state
before it and the state after it, and the statements on the layout ROM, the settings store and the queue. -/

namespace Sys2Proof.Machine

/-! ### The layout ROM -/

/-- The entry at an address of the layout ROM (R32). -/
theorem lookupEntry_eq {p : Profile} {i : Button} {a : Fin 32} (h : a.val = p.toNat * 8 + i.val)
    (lrom : Vector Entry 32) : lookupEntry lrom p i = lrom[a.val] := by
  simp only [lookupEntry, h]

/-- Settles O19: LAYOUT_LOOKUP hands over the entry at its address, ENTRY its own datum. -/
theorem layoutLookupReadsAddressProfileButton : Obligations.LayoutLookupReadsAddressProfileButton := by
  intro p b s a ha
  refine ⟨?_, fun e => exec_entry e s⟩
  rw [exec_layoutLookup, lookupEntry_eq ha]

/-! ### What an operation may write -/

/-- Between s and t no parameter and no ROM entry changed, no byte of the settings store outside NV_ADDR, and events were
only added. -/
structure Confined (s t : State) : Prop where
  params_eq : t.params = s.params
  store : ∀ a, a ≠ s.params.nvAddr → nvByteAt t a = nvByteAt s a
  trace : s.trace <:+ t.trace

/-- Between s and t the queue is untouched. -/
structure SameQueue (s t : State) : Prop where
  qram_eq : t.qram = s.qram
  head_eq : t.head = s.head
  tail_eq : t.tail = s.tail

/-- Only its own spaces were written, the queue is untouched and no byte was transmitted. -/
structure Silent (s t : State) : Prop extends Confined s t, SameQueue s t where
  sent_eq : sentBytes t = sentBytes s

/-- Only its own spaces were written, bytes were at most enqueued behind those resident, and none was transmitted. -/
structure Grows (s t : State) : Prop extends Confined s t where
  tail_eq : t.tail = s.tail
  resident_prefix : resident s <+: resident t
  sent_eq : sentBytes t = sentBytes s

theorem Confined.refl (s : State) : Confined s s := ⟨rfl, fun _ _ => rfl, List.suffix_rfl⟩

theorem Confined.trans {s t u : State} (h : Confined s t) (k : Confined t u) : Confined s u where
  params_eq := k.params_eq.trans h.params_eq
  store a ha := (k.store a (by rwa [h.params_eq])).trans (h.store a ha)
  trace := h.trace.trans k.trace

theorem Silent.refl (s : State) : Silent s s := ⟨.refl s, ⟨rfl, rfl, rfl⟩, rfl⟩

theorem SameQueue.trans {s t u : State} (h : SameQueue s t) (k : SameQueue t u) : SameQueue s u :=
  ⟨k.qram_eq.trans h.qram_eq, k.head_eq.trans h.head_eq, k.tail_eq.trans h.tail_eq⟩

theorem Silent.trans {s t u : State} (h : Silent s t) (k : Silent t u) : Silent s u where
  toConfined := h.toConfined.trans k.toConfined
  toSameQueue := h.toSameQueue.trans k.toSameQueue
  sent_eq := k.sent_eq.trans h.sent_eq

theorem Grows.trans {s t u : State} (h : Grows s t) (k : Grows t u) : Grows s u where
  toConfined := h.toConfined.trans k.toConfined
  tail_eq := k.tail_eq.trans h.tail_eq
  resident_prefix := h.resident_prefix.trans k.resident_prefix
  sent_eq := k.sent_eq.trans h.sent_eq

/-- The resident bytes depend on the queue alone. -/
theorem SameQueue.resident_eq {s t : State} (h : SameQueue s t) : resident t = resident s := by
  simp only [resident, count, qramRead, h.qram_eq, h.head_eq, h.tail_eq]

theorem Silent.grows {s t : State} (h : Silent s t) : Grows s t :=
  ⟨h.toConfined, h.tail_eq, h.resident_eq ▸ List.prefix_rfl, h.sent_eq⟩

/-- The bytes sent in a trace that events `es` extend. -/
theorem sentBytes_of_trace {s t : State} {es : List Event} (h : t.trace = es ++ s.trace) :
    sentBytes t = sentBytes s ++ (es.filterMap sentByte?).reverse := by
  simp [sentBytes, h]

/-- An operation that records the events `es`, newest first, and writes neither the store nor a parameter. -/
theorem Confined.of_events {s t : State} (es : List Event) (htrace : t.trace = es ++ s.trace := by rfl)
    (hparams : t.params = s.params := by rfl) (hnv : t.nv = s.nv := by rfl) : Confined s t where
  params_eq := hparams
  store a _ := by simp only [nvByteAt, hnv]
  trace := ⟨es, htrace.symm⟩

/-- Moreover it leaves the queue alone, and none of the events transmits a byte. -/
theorem Silent.of_events {s t : State} (es : List Event) (hes : es.filterMap sentByte? = [] := by rfl)
    (htrace : t.trace = es ++ s.trace := by rfl) (hparams : t.params = s.params := by rfl) (hnv : t.nv = s.nv := by rfl)
    (hqram : t.qram = s.qram := by rfl) (hhead : t.head = s.head := by rfl) (htail : t.tail = s.tail := by rfl) :
    Silent s t where
  toConfined := .of_events es htrace hparams hnv
  toSameQueue := ⟨hqram, hhead, htail⟩
  sent_eq := by rw [sentBytes_of_trace htrace, hes, List.reverse_nil, List.append_nil]

/-! ### Time, inputs and positions -/

theorem silent_goto (p : Phase) (s : State) : Silent s (goto p s) := .of_events []

theorem silent_engine (e : Engine) (s : State) : Silent s { s with engine := e } := .of_events []

theorem silent_cfg (v : Bool) (s : State) : Silent s { s with cfg := v } := .of_events []

theorem silent_storePrev (m : Mask) (s : State) : Silent s (storePrev m s) := .of_events []

theorem silent_padIn (v : List Bool) (s : State) : Silent s { s with padIn := v } := .of_events []

theorem silent_script (v : List CodeWord) (s : State) : Silent s { s with script := v } := .of_events []

theorem silent_resetPin (v : Bool) (s : State) : Silent s { s with resetPin := v } := .of_events []

theorem silent_delay (d : Time) (s : State) : Silent s (delay d s) := .of_events [.delay d]

theorem silent_readNow (s : State) : Silent s (readNow s) := by
  rw [readNow_frame]
  exact .of_events []

theorem silent_pollLines (s : State) : Silent s (pollLines s).2 := by
  refine .of_events [.poll (pollLines s).1.1 (pollLines s).1.2] rfl (pollLines_trace s) ?_ ?_ ?_ ?_ ?_ <;>
    rw [pollLines_frame]

theorem silent_stampSend (s : State) : Silent s (stampSend s) := (silent_readNow s).trans (.of_events [])

/-! ### The settings store -/

/-- The one address of the store that an operation writes is NV_ADDR (R33). -/
theorem silent_nvSet (v : Byte) (s : State) : Silent s (nvSet v s) where
  params_eq := rfl
  store _ ha := nvByteAt_write_other v ha rfl
  trace := List.suffix_rfl
  qram_eq := rfl
  head_eq := rfl
  tail_eq := rfl
  sent_eq := rfl

theorem silent_nvSave (s : State) : Silent s (nvSave s) :=
  ((silent_nvSet _ s).trans (.of_events [.nvWrite (settingsByte s.swapAB s.profile)])).trans (silent_delay _ _)

theorem silent_nvLoad (s : State) : Silent s (nvLoad s) := by
  rw [nvLoad_eq]
  exact .of_events [.nvRead (nvByteAt s s.params.nvAddr)]

theorem silent_debounce (s : State) : Silent s (debounce s) := (silent_nvSave s).trans (silent_delay _ _)

theorem silent_endAction (s : State) : Silent s (endAction s) := by
  rw [endAction_eq]
  exact .of_events []

/-! ### Pins, SAMPLE and the frame -/

theorem silent_drivePadLatch (v : Bool) (s : State) : Silent s (drivePadLatch v s) := .of_events [.padLatch v]

theorem silent_drivePadClk (v : Bool) (s : State) : Silent s (drivePadClk v s) := .of_events [.padClk v]

theorem silent_driveKbClk (d : Drive) (s : State) : Silent s (driveKbClk d s) := .of_events [.kbClk d]

theorem silent_driveKbData (d : Drive) (s : State) : Silent s (driveKbData d s) := .of_events [.kbData d]

theorem silent_sampCnt (n : BitVec 4) (s : State) : Silent s { s with sampCnt := n } := .of_events []

theorem silent_txCnt (n : BitVec 4) (s : State) : Silent s { s with txCnt := n } := .of_events []

theorem silent_lowerLatch (s : State) : Silent s (lowerLatch s) :=
  ((silent_delay _ s).trans (silent_drivePadLatch false _)).trans (silent_sampCnt 0 _)

theorem silent_readBit (s : State) : Silent s (readBit s) := by
  rw [readBit_eq]
  exact .of_events [.padClk true]

theorem silent_lowerPadClk (s : State) : Silent s (lowerPadClk s) :=
  (silent_delay _ s).trans (silent_drivePadClk false _)

theorem silent_endRead (s : State) : Silent s (endRead s) :=
  (silent_delay Config.tPadHalf s).trans (silent_sampCnt (s.sampCnt + 1) _)

theorem silent_sample (s : State) : Silent s (sample s) := by
  obtain ⟨m, -, he⟩ := sample_frame s
  rw [he]
  exact .of_events sampleEvents.reverse

theorem silent_startFrame (p : Bool) (d : Byte) (s : State) : Silent s (startFrame p d s) := .of_events []

theorem silent_putBit (s : State) : Silent s (putBit s) := silent_driveKbData _ s

theorem silent_lowerKbClk (s : State) : Silent s (lowerKbClk s) :=
  (silent_delay _ s).trans (silent_driveKbClk .low _)

theorem silent_endBit (s : State) : Silent s (endBit s) :=
  ((silent_delay s.params.tKbHalf s).trans (silent_driveKbClk .release _)).trans (silent_txCnt (s.txCnt + 1) _)

theorem confined_endFrame (s : State) : Confined s (endFrame s) :=
  .of_events [.tx (s.txShift.extractLsb' 1 8), .kbData .release]

theorem sameQueue_endFrame (s : State) : SameQueue s (endFrame s) := ⟨rfl, rfl, rfl⟩

/-- The end of a frame transmits the frame's data bits (R59, R112). -/
theorem sentBytes_endFrame (s : State) : sentBytes (endFrame s) = sentBytes s ++ [s.txShift.extractLsb' 1 8] :=
  sentBytes_of_trace (es := [.tx (s.txShift.extractLsb' 1 8), .kbData .release]) rfl

/-- A frame adds its events (R113). -/
theorem confined_sendFrame (p : Bool) (d : Byte) (s : State) : Confined s (sendFrame p d s) := by
  rw [sendFrame_eq]
  exact .of_events (frameEvents s.params.tKbHalf (frameBits p d)).reverse

theorem confined_txByte (b : Byte) (s : State) : Confined s (txByte b s) :=
  (confined_sendFrame _ b s).trans (silent_delay _ _).toConfined

theorem confined_consumeByte (s : State) : Confined s (consumeByte s) := .of_events []

/-! ### The producer side -/

/-- A note of a lost byte transmits nothing. -/
theorem sentByte?_lost (lost : List Byte) :
    ((lost.map fun b => Event.note (.queueOverflow b)).reverse).filterMap sentByte? = [] := by
  rw [List.filterMap_eq_nil_iff]
  intro e he
  obtain ⟨b, -, rfl⟩ := List.mem_map.1 (List.mem_reverse.1 he)
  rfl

theorem Stored.grows {bs lost : List Byte} {s t : State} (h : Stored bs lost s t) (hf : bs.length ≤ free s) :
    Grows s t where
  toConfined := .of_events _ h.notes h.frame.params_eq h.frame.nv_eq
  tail_eq := h.frame.tail_eq
  resident_prefix := resident_of_stored h hf ▸ List.prefix_append _ _
  sent_eq := by rw [sentBytes_of_trace h.notes, sentByte?_lost, List.reverse_nil, List.append_nil]

theorem EnqueuedInOrder.grows {bs : List Byte} {s t : State} (h : EnqueuedInOrder bs s t) : Grows s t :=
  Stored.grows h (List.length_take_le _ _)

theorem PauseEnqueued.grows {s t : State} (h : PauseEnqueued s t) : Grows s t := by
  obtain ⟨hroom, hstored⟩ | ⟨-, rfl⟩ := h
  · exact hstored.grows hroom
  · exact (Silent.of_events [.note (.pauseDropped (free s))]).grows

theorem grows_encPress (e : Entry) (s : State) : Grows s (encPress e s) := by
  cases hc : e.cls with
  | disabled => rw [encPress_disabled s hc]; exact (Silent.refl s).grows
  | pause => rw [encPress_pause s hc]; exact (enqueuePause_pauseEnqueued s).grows
  | normal => rw [encPress_ordinary s (.inl hc)]; exact (enqueueAll_enqueuedInOrder _ s).grows
  | extended => rw [encPress_ordinary s (.inr hc)]; exact (enqueueAll_enqueuedInOrder _ s).grows

theorem grows_encRelease (e : Entry) (s : State) : Grows s (encRelease e s) :=
  (encRelease_enqueuedInOrder e s).grows

/-- Encoder calls, one after the other. -/
theorem grows_runAll {is : List Instr} (hi : ∀ i ∈ is, ∃ e, i = .encPress e ∨ i = .encRelease e) {s t : State}
    (h : runAll is s = .next t) : Grows s t := by
  induction is generalizing s with
  | nil => cases h; exact (Silent.refl _).grows
  | cons i is ih =>
    have hrest : ∀ j ∈ is, ∃ e, j = .encPress e ∨ j = .encRelease e :=
      fun j hj => hi j (List.mem_cons_of_mem i hj)
    obtain ⟨e, rfl | rfl⟩ := hi i List.mem_cons_self
    · exact (grows_encPress e s).trans (ih hrest h)
    · exact (grows_encRelease e s).trans (ih hrest h)

theorem grows_releaseAll (p : Profile) (s : State) : Grows s (releaseAll p s) := by
  obtain ⟨u, hu, he⟩ := releaseAll_spec p s
  rw [he]
  exact hu.grows.trans (Silent.of_events []).grows

/-- EDGE_SCAN's calls are encoder calls (R137). -/
theorem edgeCalls_encoder (m : Mask) (s : State) :
    ∀ i ∈ edgeCalls m s, ∃ e, i = .encPress e ∨ i = .encRelease e := by
  intro i hi
  obtain ⟨j, -, hj⟩ := List.mem_flatMap.1 hi
  exact turnCall_encoder m s j i hj

theorem grows_edgeScan (m : Mask) (s : State) : Grows s (edgeScan m s) := by
  obtain ⟨u, hrun, -, he, -⟩ := edgeScan_spec m s
  rw [he]
  exact (grows_runAll (edgeCalls_encoder m s) hrun).trans (Silent.of_events []).grows

theorem grows_selectEdge (s : State) : Grows s (selectEdge s) := by
  obtain ⟨u, bs, hu, he⟩ := selectEdge_spec s
  rw [he]
  exact hu.grows.trans (Silent.of_events []).grows

theorem grows_applyAction (a : Action) (s : State) : Grows s (applyAction a s) := by
  obtain ⟨u, bs, hu, he⟩ := applyAction_spec a s
  rw [he]
  exact hu.grows.trans (Silent.of_events []).grows

theorem grows_cfgEnter (s : State) : Grows s (cfgEnter s) :=
  (grows_releaseAll s.profile s).trans (silent_cfg true _).grows

/-! ### What a step of the sequencer does to the queue -/

/-- The four things a step of the sequencer can do to the queue and the wire (R20, R41, R105, R112). -/
inductive QueueStep (s t : State) : Prop
  /-- nothing -/
  | rests (h : Silent s t) (hs : s.phase ≠ .settle) (ht : t.phase ≠ .settle)
  /-- the encoder runs -/
  | produces (h : Grows s t) (hs : s.phase = .selectEdge ∨ s.phase = .config ∨ s.phase = .normal)
      (ht : t.phase ≠ .settle)
  /-- the eleventh bit ends the frame, which transmits its data bits (R112, R113) -/
  | sends (hc : Confined s t) (hq : SameQueue s t)
      (hsent : sentBytes t = sentBytes s ++ [s.txShift.extractLsb' 1 8]) (hs : s.phase = .tx)
      (he : s.engine = .clkLow) (ht : t.phase = .settle)
  /-- the byte sent leaves its slot (R116) -/
  | consumes (h : Silent (consumeByte s) t) (hs : s.phase = .settle) (ht : t.phase ≠ .settle)

theorem silent_stepDrain (s : State) : Silent s (stepDrain s) := by
  unfold stepDrain
  simp only
  split <;> exact (silent_readNow s).trans (silent_goto _ _)

theorem silent_execIdleWait {s t : State} (h : execIdleWait s = .next t) : Silent s t := by
  by_cases hi : (pollLines s).1 = (true, true)
  · rw [execIdleWait_of_idle hi] at h
    cases h
    split
    · exact (silent_pollLines s).trans (silent_goto _ _)
    · exact silent_pollLines s
  · rw [execIdleWait_of_busy hi] at h
    cases h
    split
    · exact silent_pollLines s
    · exact (silent_pollLines s).trans (.of_events [])

theorem silent_stepSample (s : State) : Silent s (stepSample s) := by
  cases he : s.engine <;> simp only [stepSample, he]
  case latchHigh => exact (silent_lowerLatch s).trans (silent_engine _ _)
  case ready => exact (silent_readBit s).trans (silent_engine _ _)
  case clkHigh => exact (silent_lowerPadClk s).trans (silent_engine _ _)
  case clkLow =>
    split
    · exact (silent_endRead s).trans (silent_goto _ _)
    · exact (silent_endRead s).trans (silent_engine _ _)
  case off | dataOut | writing | saved => exact (silent_drivePadLatch true s).trans (silent_engine _ _)

theorem silent_stepDebounce (s : State) : Silent s (stepDebounce s) := by
  cases he : s.engine <;> simp only [stepDebounce, he]
  case writing => exact (silent_nvSave s).trans (silent_engine _ _)
  case saved => exact (silent_delay _ s).trans (silent_endAction _)
  case off | latchHigh | ready | clkHigh | dataOut | clkLow => exact silent_engine _ s

theorem grows_stepConfig (s : State) : Grows s (stepConfig s) := by
  unfold stepConfig
  split
  · exact (grows_applyAction _ s).trans (silent_goto _ _).grows
  · exact (silent_goto _ s).grows

/-- Phase SETTLE: apart from the byte that leaves its slot, the settle delay and the timestamp (R114, R115, R116). -/
theorem silent_stepSettle (s : State) : Silent (consumeByte s) (stepSettle s) := by
  have settled : Silent (consumeByte s) (consumeByte (delay Config.tSettle s)) := .of_events [.delay Config.tSettle]
  exact (settled.trans (silent_stampSend _)).trans (silent_goto _ _)

/-- The end of the last turn is the end of the frame (R113). -/
theorem queueStep_endFrame {s : State} (hp : s.phase = .tx) (he : s.engine = .clkLow) :
    QueueStep s (goto .settle (endFrame (endBit s))) := by
  have turn := silent_endBit s
  have leave := silent_goto .settle (endFrame (endBit s))
  have hframe : (endBit s).txShift = s.txShift := by
    simp only [endBit, driveKbClk_txShift, delay_txShift]
  refine .sends ((turn.toConfined.trans (confined_endFrame _)).trans leave.toConfined)
    ((turn.toSameQueue.trans (sameQueue_endFrame _)).trans leave.toSameQueue) ?_ hp he rfl
  rw [leave.sent_eq, sentBytes_endFrame, turn.sent_eq, hframe]

/-- Phase TX: the last turn ends the frame, every other step drives a pin or loads the frame (R113). -/
theorem stepTx_queueStep {s t : State} (hp : s.phase = .tx) (h : stepTx s = .next t) : QueueStep s t := by
  have rests (k : Silent s t) (ht : t.phase = s.phase) : QueueStep s t := .rests k (by simp [hp]) (by simp [ht, hp])
  cases he : s.engine <;> simp only [stepTx, he] at h
  case ready =>
    cases h
    exact rests ((silent_putBit s).trans (silent_engine _ _)) (keeps_putBit s).phase_eq
  case dataOut =>
    cases h
    exact rests ((silent_lowerKbClk s).trans (silent_engine _ _)) (keeps_lowerKbClk s).phase_eq
  case clkLow =>
    split at h <;> cases h
    · exact queueStep_endFrame hp he
    · exact rests ((silent_endBit s).trans (silent_engine _ _)) (keeps_endBit s).phase_eq
  case off | latchHigh | clkHigh | writing | saved =>
    split at h <;> cases h
    exact rests ((silent_startFrame _ _ s).trans (silent_engine _ _)) rfl

theorem sequencerStep_queueStep {s t : State} (h : sequencerStep s = .next t) : QueueStep s t := by
  unfold sequencerStep at h
  cases hp : s.phase <;> rw [hp] at h
  case resetLoad =>
    cases h
    exact .rests ((silent_nvLoad s).trans (silent_goto _ _)) (by simp [hp]) (by simp)
  case drain =>
    cases h
    refine .rests (silent_stepDrain s) (by simp [hp]) ?_
    rw [stepDrain_phase]
    split <;> decide
  case idleWait =>
    refine .rests (silent_execIdleWait h) (by simp [hp]) ?_
    rw [execIdleWait_phase hp h]
    split <;> decide
  case tx => exact stepTx_queueStep hp h
  case settle =>
    cases h
    exact .consumes (silent_stepSettle s) hp (by simp [stepSettle])
  case sample =>
    cases h
    refine .rests (silent_stepSample s) (by simp [hp]) ?_
    obtain ⟨ht, -⟩ | ⟨ht, -⟩ := (stepSample_engineStep s).phase hp <;> simp [ht]
  case selectEdge =>
    cases h
    refine .produces ((grows_selectEdge s).trans (silent_goto _ _).grows) (.inl hp) ?_
    rw [stepSelectEdge, goto_phase]
    split <;> decide
  case config =>
    cases h
    refine .produces (grows_stepConfig s) (.inr (.inl hp)) ?_
    rw [stepConfig_phase]
    split <;> decide
  case debounce =>
    cases h
    refine .rests (silent_stepDebounce s) (by simp [hp]) ?_
    obtain ⟨ht, -⟩ | ⟨ht, -⟩ := (stepDebounce_engineStep s).phase hp <;> simp [ht]
  case normal =>
    cases h
    exact .produces ((grows_edgeScan _ s).trans (silent_goto _ _).grows) (.inr (.inr hp)) (by simp)
  case store =>
    cases h
    exact .rests (.of_events []) (by simp [hp]) (by simp)

/-- Settles O59, by what the step does to the queue. -/
theorem indicesMoveOnlyInTheirPhases : Obligations.IndicesMoveOnlyInTheirPhases := by
  intro s t hs hr h
  rw [step_of_quiet hr hs] at h
  cases sequencerStep_queueStep h with
  | rests k => exact ⟨fun hne => absurd k.tail_eq hne, fun hne => absurd k.head_eq hne⟩
  | produces k hp => exact ⟨fun hne => absurd k.tail_eq hne, fun _ => hp⟩
  | sends _ k => exact ⟨fun hne => absurd k.tail_eq hne, fun hne => absurd k.head_eq hne⟩
  | consumes k hp => exact ⟨fun _ => ⟨hp, k.tail_eq⟩, fun hne => absurd k.head_eq hne⟩

/-! ### The bytes sent, then those queued -/

theorem sentThenQueued_of_ne_settle {s : State} (h : s.phase ≠ .settle) :
    sentThenQueued s = (sentBytes s).map some ++ resident s := by
  rw [sentThenQueued, if_neg h]

theorem sentThenQueued_of_settle {s : State} (h : s.phase = .settle) :
    sentThenQueued s = (sentBytes s).map some ++ (resident s).tail := by
  rw [sentThenQueued, if_pos h]

/-- Consuming a byte takes one from the count of a queue that is not empty (R41, R105). -/
theorem count_consumeByte {s : State} (h : s.head ≠ s.tail) : count s = count (consumeByte s) + 1 := by
  simp only [count, consumeByte]
  bv_omega

/-- The oldest resident byte is the one at `tail`; the others are those that are left when it is consumed (R41, R105). -/
theorem resident_eq_cons {s : State} (h : s.head ≠ s.tail) :
    resident s = qramRead s s.tail :: resident (consumeByte s) := by
  have hslot (k : Nat) : s.tail + BitVec.ofNat 6 (k + 1) = (consumeByte s).tail + BitVec.ofNat 6 k := by
    simp only [consumeByte]
    bv_omega
  simp only [resident, count_consumeByte h, List.range_succ_eq_map, List.map_cons, List.map_map,
    BitVec.add_zero, List.cons.injEq, true_and]
  refine List.map_congr_left fun k _ => ?_
  rw [Function.comp_apply, hslot]
  exact qramRead_congr rfl _

/-- Settles O58: the queue and the wire rest, or bytes join the queue's end, or the oldest byte moves to the wire and then
leaves its slot. -/
theorem bytesLeaveInTheOrderEnqueued : Obligations.BytesLeaveInTheOrderEnqueued := by
  intro s t hinv hseq hs hr h
  rw [step_of_quiet hr hs] at h
  cases sequencerStep_queueStep h with
  | rests k hp ht =>
    rw [sentThenQueued_of_ne_settle hp, sentThenQueued_of_ne_settle ht, k.sent_eq, k.resident_eq]
  | produces k hp ht =>
    have hp : s.phase ≠ .settle := by rintro e; simp [e] at hp
    rw [sentThenQueued_of_ne_settle hp, sentThenQueued_of_ne_settle ht, k.sent_eq]
    exact (List.prefix_append_right_inj _).2 k.resident_prefix
  | sends _ k hsent hp he ht =>
    obtain ⟨-, b, hb, hframe⟩ := hseq.frame_position hp (by simp [he])
    rw [sentThenQueued_of_ne_settle (by simp [hp]), sentThenQueued_of_settle ht, hsent, k.resident_eq, hframe,
      frameBits_data, resident_eq_cons (hinv.pending (.inr (.inl hp))), hb]
    simp
  | consumes k hp ht =>
    have hsent : sentBytes t = sentBytes s := k.sent_eq
    rw [sentThenQueued_of_settle hp, sentThenQueued_of_ne_settle ht, hsent, k.resident_eq,
      resident_eq_cons (hinv.pending (.inr (.inr hp))), List.tail_cons]

/-! ### No operation writes outside its spaces -/

/-- An operation that answers one state answers no other. -/
theorem confined_of_next {s u t : State} (h : Confined s u)
    (ht : (.next u : Host.Outcome State Fault Refusal) = .next t) : Confined s t :=
  Host.Outcome.next.inj ht ▸ h

/-- Going on to a phase afterwards. -/
theorem Confined.goto {s u : State} (h : Confined s u) (p : Phase) : Confined s (Machine.goto p u) :=
  h.trans (silent_goto p u).toConfined

theorem confined_runAction (a : Action) (s : State) : Confined s (runAction a s) :=
  ((grows_applyAction a s).toConfined.trans (silent_debounce _).toConfined).trans (silent_endAction _).toConfined

theorem confined_sendOldest {s t : State} (h : sendOldest s = .next t) : Confined s t := by
  cases hb : qramRead s s.tail with
  | none => rw [sendOldest_of_none hb] at h; cases h
  | some b =>
    rw [sendOldest_of_some hb] at h
    have sent := (confined_txByte b s).trans (confined_consumeByte _)
    exact confined_of_next ((sent.trans (silent_stampSend _).toConfined).goto .sample) h

theorem confined_waitThenSend {s t : State} (h : waitThenSend s = .next t) : Confined s t := by
  have polled := (silent_pollLines s).toConfined
  by_cases hi : (pollLines s).1 = (true, true)
  · rw [waitThenSend_of_idle hi] at h
    exact polled.trans (confined_sendOldest h)
  · rw [waitThenSend_of_busy hi] at h
    exact confined_of_next (polled.goto _) h

theorem confined_drain {s t : State} (h : drain s = .next t) : Confined s t := by
  have read := (silent_readNow s).toConfined
  cases hg : gateOpen (readNow s) with
  | false =>
    rw [drain_of_closed hg] at h
    exact confined_of_next (read.goto _) h
  | true =>
    rw [drain_of_open hg] at h
    exact read.trans (confined_waitThenSend h)

theorem confined_steps4to6 (s : State) : Confined s (steps4to6 s) := by
  have scanned : Confined s (goto .drain (storePrev s.curMask (edgeScan s.curMask s))) :=
    ((grows_edgeScan _ s).toConfined.trans (silent_storePrev _ _).toConfined).goto _
  unfold steps4to6
  simp only
  split
  · split
    · exact confined_runAction _ s
    · exact scanned
  · exact scanned

theorem confined_afterDrain (s : State) : Confined s (afterDrain s) :=
  ((silent_sample s).toConfined.trans (grows_selectEdge _).toConfined).trans (confined_steps4to6 _)

theorem confined_completeCycle {s t : State} {o : Host.Outcome State Fault Refusal}
    (ho : ∀ u, o = .next u → Confined s u) (h : completeCycle o = .next t) : Confined s t := by
  cases o with
  | next u =>
    refine confined_of_next ?_ h
    split
    · exact ho u rfl
    · exact (ho u rfl).trans (confined_afterDrain u)
  | fault r => cases h
  | refused r => cases h

theorem confined_cycle {s t : State} (h : cycle s = .next t) : Confined s t := by
  unfold cycle at h
  cases hp : s.phase <;> rw [hp] at h
  case idleWait => exact confined_completeCycle (fun _ => confined_waitThenSend) h
  case resetLoad =>
    exact confined_completeCycle (fun _ hu => (silent_nvLoad s).toConfined.trans (confined_drain hu)) h
  case drain | tx | settle | sample | selectEdge | config | debounce | normal | store =>
    exact confined_completeCycle (fun _ => confined_drain) h

theorem confined_runMask {m : Mask} {s t : State} (h : runMask m s = .next t) : Confined s t :=
  (silent_padIn (maskLevels m) s).toConfined.trans (confined_cycle h)

/-! RESET leaves the store alone, but for the byte at NV_ADDR where it interrupts the write of it (R180; log 22). -/

theorem confined_interruptWrite (s : State) : Confined s (interruptWrite s) := by
  unfold interruptWrite
  split
  · exact (Confined.of_events []).trans (silent_nvSet _ _).toConfined
  · exact .refl s

theorem confined_resetConstants (s : State) : Confined s (resetConstants s) := .of_events [.reset]

theorem confined_resetNow (s : State) : Confined s (resetNow s) := by
  have loaded := ((confined_interruptWrite s).trans (confined_resetConstants _)).trans (silent_nvLoad _).toConfined
  exact loaded.trans (.of_events [])

theorem confined_assertReset (s : State) : Confined s (assertReset s) :=
  ((silent_resetPin false s).toConfined.trans
    ((confined_interruptWrite _).trans (confined_resetConstants _))).goto _

/-- An instruction, by its row of the opcode table. -/
theorem confined_exec {i : Instr} {s t : State} (h : exec i s = .next t) : Confined s t := by
  cases i with
  | makeM | makeQ | makeA | makeO | makeP | make0 | make1 | make2 | make3 | make4 | make5 | make6 | make7 | make8 | make9
  | makeEsc | makeF1 | makeEnter | makeUpArrow | makeDownArrow | makeLeftArrow | makeRightArrow | pauseMake | disabledMake
  | make1Generic | xmake2Generic | encPress => exact confined_of_next (grows_encPress _ s).toConfined h
  | breakM | breakQ | breakA | breakO | breakP | break0 | break1 | break2 | break3 | break4 | break5 | break6 | break7
  | break8 | break9 | breakEsc | breakF1 | breakEnter | breakUpArrow | breakDownArrow | breakLeftArrow | breakRightArrow
  | pauseBreak | disabledBreak | break2Generic | xbreak3Generic | encRelease =>
    exact confined_of_next (grows_encRelease _ s).toConfined h
  | releaseAll p => exact confined_of_next (grows_releaseAll p s).toConfined h
  | enqueue b => exact confined_of_next (enqueue_enqueuedInOrder b s).grows.toConfined h
  | enqueuePause => exact confined_of_next (enqueuePause_pauseEnqueued s).grows.toConfined h
  | layoutLookup | entry => exact confined_of_next (.of_events []) h
  | sample => exact confined_of_next ((silent_sample s).toConfined.goto _) h
  | padstream r =>
    exact confined_of_next (((silent_padIn _ s).trans (silent_sample _)).toConfined.goto _) h
  | txByte b => exact confined_of_next (confined_txByte b s) h
  | frame p d => exact confined_of_next (confined_sendFrame p d s) h
  | drain => exact confined_drain h
  | idleWait => exact (silent_execIdleWait h).toConfined
  | cycle => exact confined_cycle h
  | maskA | maskB | maskSelect | maskStart | maskUp | maskDown | maskLeft | maskRight => exact confined_runMask h
  | cfgEnter => exact confined_of_next ((grows_cfgEnter s).toConfined.goto _) h
  | cfgExit => exact confined_of_next ((silent_cfg false s).toConfined.goto _) h
  | cfgSwapA | cfgSwapB | cfgLayout => exact confined_of_next (confined_runAction _ s) h
  | edgeScan m => exact confined_of_next ((grows_edgeScan m s).toConfined.goto _) h
  | storePrev m => exact confined_of_next ((silent_storePrev m s).toConfined.goto _) h
  | debounce => exact confined_of_next ((silent_debounce s).toConfined.goto _) h
  | nvLoad => exact confined_of_next ((silent_nvLoad s).toConfined.goto _) h
  | nvSave => exact confined_of_next (silent_nvSave s).toConfined h
  | reset => exact confined_of_next (confined_resetNow s) h
  | settings v =>
    have stored := (silent_engine .off s).trans (silent_nvSet v _)
    exact confined_of_next (stored.toConfined.trans (confined_resetNow _)) h

theorem confined_runWord {w : CodeWord} {rest : List CodeWord} {s t : State} (h : runWord w rest s = .next t) :
    Confined s t := by
  refine (silent_script rest s).toConfined.trans ?_
  unfold runWord at h
  split at h
  · exact confined_exec h
  · obtain ⟨m, -, hm⟩ := runNoRow_next h
    exact confined_runMask hm

/-- Whatever the sequencer's step does to the queue, it stays inside its spaces. -/
theorem QueueStep.confined {s t : State} (h : QueueStep s t) : Confined s t := by
  cases h with
  | rests k => exact k.toConfined
  | produces k => exact k.toConfined
  | sends k => exact k
  | consumes k => exact (confined_consumeByte s).trans k.toConfined

/-- Settles O60: RESET, a script word and a step of the sequencer each write their own spaces only. -/
theorem noStepWritesOutsideItsSpaces : Obligations.NoStepWritesOutsideItsSpaces := by
  intro s t h
  have hc : Confined s t := by
    unfold step at h
    split at h
    · exact confined_of_next (confined_assertReset s) h
    · split at h
      · exact confined_runWord h
      · exact (sequencerStep_queueStep h).confined
  exact ⟨hc.params_eq, hc.store, hc.trace⟩

end Sys2Proof.Machine

/-! The decoder and the encoder (R50 to R63): the wire words are the sequences of R56, the words of every other channel are
taken channel by channel. -/

namespace Sys2Proof

/-! ### The named rows -/

/-- A key is found by its own flag and code: no two keys share both (R85, R86). -/
theorem keyOf?_entry (k : Key) : keyOf? k.ext k.code = some k := by cases k <;> rfl

theorem keyOf?_eq_some_iff {x : Bool} {c : Byte} {k : Key} : keyOf? x c = some k ↔ k.ext = x ∧ k.code = c := by
  constructor
  · intro h
    simpa using List.find?_some h
  · rintro ⟨rfl, rfl⟩
    exact keyOf?_entry k

/-- No key has a sentinel's code (R54, R86). -/
theorem Key.code_ne_sentinel (k : Key) : k.code ≠ Config.keyNone ∧ k.code ≠ Config.keyPause := by
  cases k <;> decide

@[simp] theorem encode_makeOf (k : Key) : encode (makeOf k) = wireWord (makeBytes k) := by cases k <;> rfl
@[simp] theorem encode_breakOf (k : Key) : encode (breakOf k) = wireWord (breakBytes k) := by cases k <;> rfl
@[simp] theorem wellFormed_makeOf (k : Key) : (makeOf k).WellFormed = true := by cases k <;> rfl
@[simp] theorem wellFormed_breakOf (k : Key) : (breakOf k).WellFormed = true := by cases k <;> rfl

/-! ### The wire sequences -/

/-- The sequences of R56, each with the row it is the word of. -/
inductive WireSequence : List Byte → Instr → Prop
  | pause : WireSequence Config.pauseSeq .pauseMake
  | make1 (c : Byte) (hnone : c ≠ Config.keyNone) (hpause : c ≠ Config.keyPause) : WireSequence [c] (make1 c)
  | break2 (c : Byte) : WireSequence [Config.prefixBreak, c] (break2 c)
  | xmake2 (c : Byte) : WireSequence [Config.prefixExt, c] (xmake2 c)
  | xbreak3 (c : Byte) : WireSequence [Config.prefixExt, Config.prefixBreak, c] (xbreak3 c)

/-- i is a well-formed row and bs its word. -/
def Spells (bs : List Byte) (i : Instr) : Prop := i.WellFormed = true ∧ encode i = wireWord bs

/-- A key's press is spelled as R95 spells its entry. -/
theorem spells_makeOf {x : Bool} {c : Byte} {k : Key} (h : keyOf? x c = some k) :
    Spells (if x then [Config.prefixExt, c] else [c]) (makeOf k) := by
  obtain ⟨rfl, rfl⟩ := keyOf?_eq_some_iff.1 h
  exact ⟨wellFormed_makeOf k, encode_makeOf k⟩

/-- A key's release is spelled as R96 spells its entry. -/
theorem spells_breakOf {x : Bool} {c : Byte} {k : Key} (h : keyOf? x c = some k) :
    Spells (if x then [Config.prefixExt, Config.prefixBreak, c] else [Config.prefixBreak, c]) (breakOf k) := by
  obtain ⟨rfl, rfl⟩ := keyOf?_eq_some_iff.1 h
  exact ⟨wellFormed_breakOf k, encode_breakOf k⟩

/-- Every sequence is the word of its row: the named row of the code where there is one, else the generic row. -/
theorem WireSequence.spells {bs : List Byte} {i : Instr} (h : WireSequence bs i) : Spells bs i := by
  cases h with
  | pause => exact ⟨rfl, rfl⟩
  | make1 c hnone hpause =>
    unfold Sys2Proof.make1
    split
    next k hk => exact spells_makeOf hk
    next hk => exact ⟨by simp [Instr.WellFormed, hnone, hpause, hk], rfl⟩
  | break2 c =>
    unfold Sys2Proof.break2
    split
    next k hk => exact spells_breakOf hk
    next hk => exact ⟨by simp [Instr.WellFormed, hk], rfl⟩
  | xmake2 c =>
    unfold Sys2Proof.xmake2
    split
    next k hk => exact spells_makeOf hk
    next hk => exact ⟨by simp [Instr.WellFormed, hk], rfl⟩
  | xbreak3 c =>
    unfold Sys2Proof.xbreak3
    split
    next k hk => exact spells_breakOf hk
    next hk => exact ⟨by simp [Instr.WellFormed, hk], rfl⟩

theorem wireSequence_makeOf (k : Key) : WireSequence (makeBytes k) (makeOf k) := by
  have hk := keyOf?_entry k
  obtain ⟨hnone, hpause⟩ := k.code_ne_sentinel
  cases hx : k.ext <;> rw [hx] at hk
  case true => simpa [makeBytes, hx, xmake2, hk] using WireSequence.xmake2 k.code
  case false => simpa [makeBytes, hx, make1, hk] using WireSequence.make1 k.code hnone hpause

theorem wireSequence_breakOf (k : Key) : WireSequence (breakBytes k) (breakOf k) := by
  have hk := keyOf?_entry k
  cases hx : k.ext <;> rw [hx] at hk
  case true => simpa [breakBytes, hx, xbreak3, hk] using WireSequence.xbreak3 k.code
  case false => simpa [breakBytes, hx, break2, hk] using WireSequence.break2 k.code

/-- Every well-formed row with a wire word is one of the sequences: the named rows by their key, the generic rows by having
no key. -/
theorem Spells.wireSequence {bs : List Byte} {i : Instr} (h : Spells bs i) : WireSequence bs i := by
  obtain ⟨hw, he⟩ := h
  cases i
  case makeM | makeQ | makeA | makeO | makeP | make0 | make1 | make2 | make3 | make4 | make5 | make6 | make7 | make8 | make9
      | makeEsc | makeF1 | makeEnter | makeUpArrow | makeDownArrow | makeLeftArrow | makeRightArrow =>
    cases he
    exact wireSequence_makeOf _
  case breakM | breakQ | breakA | breakO | breakP | break0 | break1 | break2 | break3 | break4 | break5 | break6 | break7
      | break8 | break9 | breakEsc | breakF1 | breakEnter | breakUpArrow | breakDownArrow | breakLeftArrow
      | breakRightArrow =>
    cases he
    exact wireSequence_breakOf _
  case pauseMake =>
    cases he
    exact .pause
  case make1Generic c =>
    cases he
    simp only [Instr.WellFormed, Bool.and_eq_true, bne_iff_ne, Option.isNone_iff_eq_none] at hw
    obtain ⟨⟨hnone, hpause⟩, hk⟩ := hw
    simpa only [Sys2Proof.make1, hk] using WireSequence.make1 c hnone hpause
  case break2Generic c =>
    cases he
    simpa only [Sys2Proof.break2, Option.isNone_iff_eq_none.1 hw] using WireSequence.break2 c
  case xmake2Generic c =>
    cases he
    simpa only [Sys2Proof.xmake2, Option.isNone_iff_eq_none.1 hw] using WireSequence.xmake2 c
  case xbreak3Generic c =>
    cases he
    simpa only [Sys2Proof.xbreak3, Option.isNone_iff_eq_none.1 hw] using WireSequence.xbreak3 c
  all_goals cases he

/-! ### The wire decoder -/

/-- A sequence at the head of a stream is read off it, a code byte E0 or F0 excepted (R62). -/
theorem WireSequence.decodeWire_append {bs : List Byte} {i : Instr} (h : WireSequence bs i)
    (hp : prefixCodeWord bs = none) (rest : List Byte) : decodeWire (bs ++ rest) = .ok (i, rest) := by
  cases h with
  | pause => rfl
  | make1 c hnone hpause =>
    have hc : ¬(c = Config.prefixExt ∨ c = Config.prefixBreak) := by simpa [prefixCodeWord] using hp
    obtain ⟨hext, hbreak⟩ := not_or.1 hc
    simp [decodeWire, hnone, hpause, hext, hbreak]
  | break2 c => rfl
  | xmake2 c =>
    have hc : c ≠ Config.prefixBreak := by simpa [prefixCodeWord] using hp
    exact if_neg hc
  | xbreak3 c => rfl

/-- The rest of a Pause literal is the literal's seven last bytes (R58). -/
theorem decodePause_eq_ok {bs rest : List Byte} {i : Instr} (h : decodePause bs = .ok (i, rest)) :
    Config.keyPause :: bs = Config.pauseSeq ++ rest ∧ i = .pauseMake := by
  unfold decodePause at h
  split at h
  next =>
    split at h
    next heq =>
      cases h
      exact ⟨congrArg (· ++ rest) heq, rfl⟩
    next => cases h
  next => cases h

/-- What the stream parse reads off is a sequence (R62). -/
theorem wireSequence_of_decodeWire {bs rest : List Byte} {i : Instr} (h : decodeWire bs = .ok (i, rest)) :
    ∃ head, bs = head ++ rest ∧ WireSequence head i := by
  fun_cases decodeWire bs
  case case2 tail =>
    obtain ⟨hbytes, rfl⟩ := decodePause_eq_ok h
    exact ⟨_, hbytes, .pause⟩
  case case5 =>
    cases h
    exact ⟨_, rfl, .xbreak3 _⟩
  case case6 c tail hc hne =>
    cases (if_neg hc).symm.trans h
    exact ⟨_, rfl, .xmake2 _⟩
  case case8 =>
    cases h
    exact ⟨_, rfl, .break2 _⟩
  case case10 c tail hpause hext hbreak hnone =>
    simp only [decodeWire, hpause, hext, hbreak, hnone, if_false] at h
    cases h
    exact ⟨_, rfl, .make1 c hnone hpause⟩
  case case1 | case3 | case4 | case7 | case9 => cases h

/-- A whole word with the code byte E0 or F0 is a sequence (R61 c; log 23). -/
theorem wireSequence_of_prefixCodeWord {bs : List Byte} {i : Instr} (h : prefixCodeWord bs = some i) :
    WireSequence bs i := by
  match bs with
  | [c] =>
    obtain ⟨hc, hi⟩ := Option.ite_none_right_eq_some.1 h
    cases hi
    obtain rfl | rfl := hc
    · exact .make1 Config.prefixExt (by decide) (by decide)
    · exact .make1 Config.prefixBreak (by decide) (by decide)
  | [p, c] =>
    obtain ⟨⟨rfl, rfl⟩, hi⟩ := Option.ite_none_right_eq_some.1 h
    cases hi
    exact .xmake2 Config.prefixBreak
  | [] | _ :: _ :: _ :: _ => cases h

/-- A whole word with the code byte E0 or F0 is the word of one row only (R61 c; log 23). -/
theorem WireSequence.eq_of_prefixCodeWord {bs : List Byte} {i j : Instr} (h : WireSequence bs i)
    (hp : prefixCodeWord bs = some j) : j = i := by
  cases h with
  | pause => cases hp
  | make1 c _ _ =>
    simp only [prefixCodeWord, Option.ite_none_right_eq_some] at hp
    obtain ⟨rfl | rfl, hj⟩ := hp <;> exact (Option.some.inj hj).symm
  | break2 c => cases hp
  | xmake2 c =>
    simp only [prefixCodeWord, true_and, Option.ite_none_right_eq_some] at hp
    obtain ⟨rfl, hj⟩ := hp
    exact (Option.some.inj hj).symm
  | xbreak3 c => cases hp

theorem decode_wire_of_prefix {bs : List Byte} {i : Instr} (h : prefixCodeWord bs = some i) :
    decode (wireWord bs) = .ok i := by
  simp only [decode, wireWord, h]

theorem decode_wire_of_decodeWire {bs : List Byte} {i : Instr} (hp : prefixCodeWord bs = none)
    (h : decodeWire bs = .ok (i, [])) : decode (wireWord bs) = .ok i := by
  simp only [decode, wireWord, hp, h]

/-- The wire words and the sequences of R56 are the same. -/
theorem decode_wire_iff {bs : List Byte} {i : Instr} : decode (wireWord bs) = .ok i ↔ WireSequence bs i := by
  cases hp : prefixCodeWord bs with
  | some j =>
    rw [decode_wire_of_prefix hp, Except.ok.injEq]
    exact ⟨fun h => h ▸ wireSequence_of_prefixCodeWord hp, fun h => h.eq_of_prefixCodeWord hp⟩
  | none =>
    refine ⟨fun h => ?_, fun h => decode_wire_of_decodeWire hp (by simpa using h.decodeWire_append hp [])⟩
    simp only [decode, wireWord, hp] at h
    split at h
    next j hj =>
      cases h
      obtain ⟨head, rfl, hs⟩ := wireSequence_of_decodeWire hj
      rwa [List.append_nil]
    next => cases h
    next => cases h

/-! ### The stream parse -/

/-- The bytes of a sequence are at least one. -/
theorem WireSequence.length_pos {bs : List Byte} {i : Instr} (h : WireSequence bs i) : 0 < bs.length := by
  cases h <;> exact Nat.succ_pos _

/-- One turn of the stream parse: a sequence at the head of the stream comes first (R62). -/
theorem parseStreamAux_append {fuel : Nat} {bs rest : List Byte} {i : Instr} {is : List Instr} (h : WireSequence bs i)
    (hp : prefixCodeWord bs = none) (hrest : parseStreamAux fuel rest = .ok is) :
    parseStreamAux (fuel + 1) (bs ++ rest) = .ok (i :: is) := by
  have hd := h.decodeWire_append hp rest
  obtain ⟨b, tail, rfl⟩ := List.exists_cons_of_length_pos h.length_pos
  rw [List.cons_append] at hd ⊢
  simp only [parseStreamAux, hd, hrest]

/-- The stream parse reads whole sequences back, whatever fuel is left over. -/
theorem parseStreamAux_flatMap {is : List Instr}
    (h : ∀ i ∈ is, WireSequence (encode i).bytes i ∧ prefixCodeWord (encode i).bytes = none) {fuel : Nat}
    (hf : (is.flatMap fun i => (encode i).bytes).length ≤ fuel) :
    parseStreamAux fuel (is.flatMap fun i => (encode i).bytes) = .ok is := by
  induction is generalizing fuel with
  | nil => cases fuel <;> rfl
  | cons i is ih =>
    obtain ⟨⟨hs, hp⟩, hrest⟩ := List.forall_mem_cons.1 h
    have hpos := hs.length_pos
    rw [List.flatMap_cons, List.length_append] at hf
    obtain ⟨fuel, rfl⟩ := Nat.exists_eq_add_of_lt (show 0 < fuel by omega)
    rw [List.flatMap_cons, Nat.zero_add]
    exact parseStreamAux_append hs hp (ih hrest (by omega))

theorem encode_of_wire {i : Instr} (hc : (encode i).channel = .wire) : encode i = wireWord (encode i).bytes := by
  rw [wireWord, ← hc]

/-- Settles O4, by induction on the sequences: each is read off the head of the stream. -/
theorem streamParseRecoversSequences : Obligations.StreamParseRecoversSequences := by
  intro is h
  refine parseStreamAux_flatMap (fun i hi => ?_) le_rfl
  obtain ⟨hw, hc, hp⟩ := h i hi
  exact ⟨Spells.wireSequence ⟨hw, encode_of_wire hc⟩, hp⟩

/-! ### Operation words -/

/-- A flag byte gives its flag back to whatever is made of it. -/
theorem map_flagOf_flagByte (x : Bool) (f : Bool → Instr) : (flagOf (flagByte x)).map f = .ok (f x) := by
  cases x <;> rfl

theorem flagByte_of_flagOf {b : Byte} {x : Bool} (h : flagOf b = .ok x) : flagByte x = b := by
  unfold flagOf at h
  split_ifs at h with h0 h1
  · cases h; exact h0.symm
  · cases h; exact h1.symm

/-- A field widened to a byte stays in its range. -/
theorem toNat_setWidth_lt {n : Nat} (hn : n ≤ 8) (x : BitVec n) : (x.setWidth 8).toNat < 2 ^ n := by
  rw [BitVec.toNat_setWidth_of_le hn]
  exact x.isLt

/-- A byte in a field's range is the field widened. -/
theorem setWidth_setWidth_of_lt {n : Nat} {b : Byte} (h : b.toNat < 2 ^ n) : (b.setWidth n).setWidth 8 = b := by
  refine BitVec.eq_of_toNat_eq ?_
  rw [BitVec.toNat_setWidth, BitVec.toNat_setWidth, Nat.mod_eq_of_lt h, Nat.mod_eq_of_lt b.isLt]

theorem toNat_profile_lt (p : Profile) : (p.setWidth 8).toNat < 4 := toNat_setWidth_lt (by decide) p

theorem decode_layoutLookup (p : Profile) (b : BitVec 3) :
    decode (encode (.layoutLookup p b)) = .ok (.layoutLookup p b) :=
  (if_pos ⟨toNat_profile_lt p, toNat_setWidth_lt (by decide) b⟩).trans (by simp)

theorem decode_releaseAll (p : Profile) : decode (encode (.releaseAll p)) = .ok (.releaseAll p) :=
  (if_pos (toNat_profile_lt p)).trans (by simp)

theorem decode_cfgLayout (p : Profile) : decode (encode (.cfgLayout p)) = .ok (.cfgLayout p) :=
  (if_pos (toNat_profile_lt p)).trans (by simp)

/-- A guarded answer was answered because its guard held. -/
theorem of_guard_eq_ok {p : Prop} [Decidable p] {i j : Instr} {e : DecodeError}
    (h : (if p then .ok j else .error e : Except DecodeError Instr) = .ok i) : p ∧ j = i := by
  split_ifs at h with hp
  exact ⟨hp, Except.ok.inj h⟩

/-- An answer made from a flag byte was made from the flag it stores. -/
theorem of_flag_eq_ok {b : Byte} {f : Bool → Instr} {i : Instr} (h : (flagOf b).map f = .ok i) :
    ∃ x, flagByte x = b ∧ f x = i := by
  cases hx : flagOf b with
  | error e => rw [hx] at h; cases h
  | ok x => rw [hx] at h; exact ⟨x, flagByte_of_flagOf hx, Except.ok.inj h⟩

/-- A two-bit operand's byte is the operand widened. -/
theorem setWidth_profile {b : Byte} (h : b.toNat < 4) : (b.setWidth 2).setWidth 8 = b := setWidth_setWidth_of_lt h

/-- An operation word that the decoder accepts is its operation's (log 2): by the number of operand bytes, which each
operation fixes, and then by the code: 4 and 15 take a profile, 1 a profile and a button, 2 and 3 an entry, and 5, 9, 16 and 17 any
byte. -/
theorem decodeOperation_canonical {bs : List Byte} {i : Instr} (h : decodeOperation bs = .ok i) :
    i.WellFormed = true ∧ encode i = ⟨.operation, bs⟩ := by
  obtain _ | ⟨op, args⟩ := bs
  · cases h
  have hop : (⟨.operation, op :: args⟩ : CodeWord) = opWord op.toNat args := by
    rw [opWord, BitVec.ofNat_toNat, BitVec.setWidth_eq]
  have hlt : ¬22 ≤ op.toNat := fun hge => nomatch (if_pos hge).symm.trans h
  replace h := (if_neg hlt).symm.trans h
  rw [hop]
  generalize op.toNat = n at h hlt ⊢
  clear hop
  rw [not_le] at hlt
  match args with
  | [] =>
    interval_cases n <;> cases h <;> exact ⟨rfl, rfl⟩
  | [b] =>
    obtain hprofile | hn | hn | hn : (n = 4 ∨ n = 15) ∨ n < 4 ∨ (4 < n ∧ n < 15) ∨ 15 < n := by omega
    · obtain rfl | rfl := hprofile
      all_goals
        obtain ⟨hb, rfl⟩ := of_guard_eq_ok h
        exact ⟨rfl, congrArg (fun b => opWord _ [b]) (setWidth_profile hb)⟩
    · interval_cases n <;> cases h
    · obtain ⟨hlo, hhi⟩ := hn
      interval_cases n <;> cases h <;> exact ⟨rfl, rfl⟩
    · interval_cases n <;> cases h <;> exact ⟨rfl, rfl⟩
  | [b, c] =>
    obtain rfl | rfl | hentry | hn : n = 0 ∨ n = 1 ∨ (n = 2 ∨ n = 3) ∨ 3 < n := by omega
    · cases h
    · obtain ⟨⟨hb, hc⟩, rfl⟩ := of_guard_eq_ok h
      exact ⟨rfl, congrArg₂ (fun b c => opWord 1 [b, c]) (setWidth_profile hb) (setWidth_setWidth_of_lt hc)⟩
    · obtain rfl | rfl := hentry
      all_goals
        obtain ⟨x, rfl, rfl⟩ := of_flag_eq_ok h
        exact ⟨rfl, rfl⟩
    · interval_cases n <;> cases h
  | _ :: _ :: _ :: _ => interval_cases n <;> cases h

/-! ### Mask bytes, entries and frames -/

theorem encode_maskRow (k : Button) (m : Mask) : encode (maskRow k m) = ⟨.mask8 k, [m]⟩ := by
  match k with
  | 0 | 1 | 2 | 3 | 4 | 5 | 6 | 7 => rfl

theorem wellFormed_maskRow (k : Button) (m : Mask) : (maskRow k m).WellFormed = pressed m k := by
  match k with
  | 0 | 1 | 2 | 3 | 4 | 5 | 6 | 7 => rfl

/-- A mask byte is the word of the row of any button it presses (R50, R51). -/
theorem decode_mask8 {k : Button} {m : Mask} (h : pressed m k = true) : decode ⟨.mask8 k, [m]⟩ = .ok (maskRow k m) :=
  if_pos h

theorem decodeMask_canonical {k : Button} {bs : List Byte} {i : Instr} (h : decodeMask k bs = .ok i) :
    i.WellFormed = true ∧ encode i = ⟨.mask8 k, bs⟩ := by
  unfold decodeMask at h
  split at h
  next m =>
    obtain ⟨hp, rfl⟩ := of_guard_eq_ok h
    exact ⟨(wellFormed_maskRow k m).trans hp, encode_maskRow k m⟩
  next => cases h

theorem decodeEntry_canonical {bs : List Byte} {i : Instr} (h : decodeEntry bs = .ok i) :
    i.WellFormed = true ∧ encode i = ⟨.entry9, bs⟩ := by
  unfold decodeEntry at h
  split at h
  next x c =>
    obtain ⟨x, rfl, rfl⟩ := of_flag_eq_ok h
    exact ⟨rfl, rfl⟩
  next => cases h

/-- The eleven bits of a frame, bit 0 first: start, data, parity, stop (R59). -/
theorem frameBits_getLsbD (p : Bool) (d : Byte) (n : Nat) : (frameBits p d).getLsbD n =
    if n = 0 then false else if n < 9 then d.getLsbD (n - 1) else if n = 9 then p else decide (n = 10) := by
  simp only [frameBits, BitVec.getLsbD_append]
  rcases Nat.lt_or_ge n 9 with h | h
  · rcases n with _ | n
    · rfl
    · simp [h, show n < 8 by omega]
  · obtain ⟨k, rfl⟩ := Nat.exists_eq_add_of_le' h
    rcases k with _ | k
    · simp
    · simp [BitVec.getLsbD_one]

/-- Bits 8 to 1 of a frame are its data (R59). -/
theorem extractLsb'_frameBits (p : Bool) (d : Byte) : (frameBits p d).extractLsb' 1 8 = d := by
  refine BitVec.eq_of_getLsbD_eq fun k hk => ?_
  rw [BitVec.getLsbD_extractLsb', frameBits_getLsbD, if_neg (by omega), if_pos (by omega)]
  simp [hk]

/-- Sixteen bits that hold the frame of p and d, the upper five bits 0 (R59; log 3). -/
theorem eq_frameBits_iff {f : BitVec 16} {p : Bool} {d : Byte} : f = (frameBits p d).setWidth 16 ↔
    f.toNat < 2048 ∧ f.getLsbD 0 = false ∧ f.getLsbD 10 = true ∧ f.getLsbD 9 = p ∧ f.extractLsb' 1 8 = d := by
  constructor
  · rintro rfl
    have hlt : ((frameBits p d).setWidth 16).toNat < 2048 := by
      rw [BitVec.toNat_setWidth_of_le (by decide)]
      exact (frameBits p d).isLt
    have hbit (k : Nat) (hk : k < 16) : ((frameBits p d).setWidth 16).getLsbD k = (frameBits p d).getLsbD k := by
      rw [BitVec.getLsbD_setWidth, decide_eq_true hk, Bool.true_and]
    have hdata : ((frameBits p d).setWidth 16).extractLsb' 1 8 = d := by
      rw [BitVec.extractLsb'_setWidth_of_le (by decide), extractLsb'_frameBits]
    simp only [hbit, Nat.reduceLT, frameBits_getLsbD]
    exact ⟨hlt, rfl, rfl, rfl, hdata⟩
  · rintro ⟨hlt, h0, h10, rfl, rfl⟩
    refine BitVec.eq_of_getLsbD_eq fun k hk => ?_
    rw [BitVec.getLsbD_setWidth, frameBits_getLsbD]
    have hhigh (h : 11 ≤ k) : f.getLsbD k = false :=
      Nat.testBit_lt_two_pow (hlt.trans_le (Nat.pow_le_pow_right (n := 2) (i := 11) (by decide) h))
    simp only [hk, decide_true, Bool.true_and]
    split_ifs with hk0 hk9 hk9
    · rw [hk0, h0]
    · rw [BitVec.getLsbD_extractLsb', decide_eq_true (by omega), Bool.true_and, Nat.add_sub_cancel' (by omega)]
    · rw [hk9]
    · rcases Nat.lt_or_ge k 11 with h | h
      · obtain rfl : k = 10 := by omega
        exact h10
      · rw [hhigh h, decide_eq_false (by omega)]

/-- The frame words are the two bytes of a frame with odd parity (R59, R60; log 3, 16). -/
theorem decodeFrame_eq_ok_iff {h l : Byte} {i : Instr} : decodeFrame [h, l] = .ok i ↔
    ∃ d, h ++ l = (frameBits (parity d) d).setWidth 16 ∧ i = .frame (parity d) d := by
  simp only [decodeFrame]
  generalize h ++ l = f
  constructor
  · intro hd
    split_ifs at hd with hlt hbits hpar
    simp only [Bool.or_eq_true, Bool.not_eq_true', not_or, Bool.not_eq_true, Bool.not_eq_false] at hbits
    simp only [bne_iff_ne, ne_eq, not_not] at hpar
    obtain ⟨h0, h10⟩ := hbits
    refine ⟨_, eq_frameBits_iff.2 ⟨not_le.1 hlt, h0, h10, hpar, rfl⟩, ?_⟩
    rw [← hpar]
    exact (Except.ok.inj hd).symm
  · rintro ⟨d, hf, rfl⟩
    obtain ⟨hlt, h0, h10, hp, hd⟩ := eq_frameBits_iff.1 hf
    simp only [ge_iff_le, not_le.2 hlt, h0, h10, hp, hd, Bool.not_true, Bool.or_self, bne_self_eq_false,
      Bool.false_eq_true, if_false]

theorem encode_frame {h l : Byte} {p : Bool} {d : Byte} (hbits : h ++ l = (frameBits p d).setWidth 16) :
    encode (.frame p d) = ⟨.frame11, [h, l]⟩ := by
  simp only [encode, ← hbits, BitVec.extractLsb'_append_eq_left, BitVec.extractLsb'_append_eq_right]

theorem decode_frame {p : Bool} {d : Byte} (h : (Instr.frame p d).WellFormed = true) :
    decode (encode (.frame p d)) = .ok (.frame p d) := by
  obtain rfl : p = parity d := eq_of_beq h
  exact decodeFrame_eq_ok_iff.2
    ⟨d, (BitVec.extractLsb'_append_extractLsb'_eq_extractLsb' rfl).trans BitVec.extractLsb'_eq_self, rfl⟩

theorem decodeFrame_canonical {bs : List Byte} {i : Instr} (h : decodeFrame bs = .ok i) :
    i.WellFormed = true ∧ encode i = ⟨.frame11, bs⟩ := by
  match bs with
  | [_, _] =>
    obtain ⟨d, hbits, rfl⟩ := decodeFrame_eq_ok_iff.1 h
    exact ⟨beq_self_eq_true _, encode_frame hbits⟩
  | [] | [_] | _ :: _ :: _ :: _ => cases h

/-! ### The whole decoder -/

/-- Settles O3: a word of each channel, by what its decoder accepts. -/
theorem decodedWordsAreCanonical : Obligations.DecodedWordsAreCanonical := by
  rintro ⟨channel, bs⟩ i h
  cases channel with
  | wire => exact (decode_wire_iff.1 h).spells
  | silent r =>
    obtain _ | ⟨_, _⟩ := bs
    · cases r <;> cases h <;> exact ⟨rfl, rfl⟩
    · cases h
  | operation => exact decodeOperation_canonical h
  | mask8 k => exact decodeMask_canonical h
  | settings8 =>
    match bs with
    | [v] => cases h; exact ⟨rfl, rfl⟩
    | [] | _ :: _ :: _ => cases h
  | entry9 => exact decodeEntry_canonical h
  | frame11 => exact decodeFrame_canonical h
  | padstream =>
    match bs with
    | [r] => cases h; exact ⟨rfl, rfl⟩
    | [] | _ :: _ :: _ => cases h

/-- Settles O2: the wire words are the sequences of R56; the words of every other channel are read back one by one. -/
theorem decodeOfEncodeIsIdentity : Obligations.DecodeOfEncodeIsIdentity := by
  intro i hw
  by_cases hc : (encode i).channel = .wire
  · have he := encode_of_wire hc
    rw [he]
    exact decode_wire_iff.2 (Spells.wireSequence ⟨hw, he⟩)
  cases i
  case pauseBreak | disabledMake | disabledBreak => rfl
  case sample | enqueue | enqueuePause | drain | idleWait | txByte | cycle | cfgEnter | cfgExit | cfgSwapA | cfgSwapB
      | edgeScan | storePrev | debounce | nvLoad | nvSave | reset => rfl
  case layoutLookup p b => exact decode_layoutLookup p b
  case encPress e => exact map_flagOf_flagByte e.ext (fun x => .encPress ⟨x, e.code⟩)
  case encRelease e => exact map_flagOf_flagByte e.ext (fun x => .encRelease ⟨x, e.code⟩)
  case releaseAll p => exact decode_releaseAll p
  case cfgLayout p => exact decode_cfgLayout p
  case maskA | maskB | maskSelect | maskStart | maskUp | maskDown | maskLeft | maskRight => exact decode_mask8 hw
  case settings | padstream => rfl
  case entry e => exact map_flagOf_flagByte e.ext (fun x => .entry ⟨x, e.code⟩)
  case frame p d => exact decode_frame hw
  all_goals exact absurd rfl hc

/-! ### Words of the spec, parity, frames and the settings byte -/

/-- Settles O1: each word is decoded. -/
theorem specWordsDecodeToTheirRows : Obligations.SpecWordsDecodeToTheirRows := by
  refine ⟨?_, ?_, ?_, ?_, ?_, ?_, ?_, ?_, ?_, ?_, ?_, ?_, ?_⟩ <;> decide

/-- The ones of an exclusive-or, modulo 2. -/
theorem toNat_xor_mod_two (a b : Bool) : (a ^^ b).toNat = (a.toNat + b.toNat) % 2 := by
  cases a <;> cases b <;> rfl

/-- Settles O35: an exclusive-or counts ones modulo 2. -/
theorem frameParityIsOdd : Obligations.FrameParityIsOdd := by
  refine ⟨fun b => rfl, fun b => ?_, by decide, by decide, by decide, by decide, by decide, by decide⟩
  simp only [parity, toNat_xor_mod_two, Bool.toNat_true, List.range_succ, List.range_zero, List.nil_append,
    List.cons_append, List.map_cons, List.map_nil, List.sum_cons, List.sum_nil]
  omega

/-- Settles O36, by the bits of the frame. -/
theorem frameHasElevenBits : Obligations.FrameHasElevenBits := by
  intro p b
  refine ⟨frameBits_getLsbD p b 0, fun k => ?_, frameBits_getLsbD p b 9, frameBits_getLsbD p b 10,
    extractLsb'_frameBits p b⟩
  rw [frameBits_getLsbD, if_neg (Nat.succ_ne_zero _), if_pos (Nat.succ_lt_succ k.isLt), Nat.add_sub_cancel]

/-- The profile is the low two of the three bits that count (R52, R53). -/
theorem settingsProfile_eq_low (v : Byte) : settingsProfile v = (v.extractLsb' 0 3).setWidth 2 := by
  refine BitVec.eq_of_getLsbD_eq fun k hk => ?_
  simp [settingsProfile, hk, show k < 3 by omega]

/-- The swap flag is the highest of the three bits that count (R52, R53). -/
theorem settingsSwap_eq_low (v : Byte) : settingsSwap v = (v.extractLsb' 0 3).getLsbD 2 := by
  simp [settingsSwap]

/-- Settles O48: both fields are in the three low bits, and the byte is their concatenation. -/
theorem settingsByteFields : Obligations.SettingsByteFields := by
  refine ⟨fun v v' h => ?_, fun v => ⟨BitVec.setWidth_eq_extractLsb' (by decide), rfl, (settingsProfile v).isLt⟩,
    fun swap p => ⟨?_, Machine.settingsProfile_settingsByte swap p, Machine.settingsSwap_settingsByte swap p⟩⟩
  · rw [settingsProfile_eq_low, settingsSwap_eq_low, h, ← settingsProfile_eq_low, ← settingsSwap_eq_low]
    exact ⟨rfl, rfl⟩
  · revert swap p
    decide

end Sys2Proof

/-! What the words do (R50, R56, R64, R66): the sequence rows, PADSTREAM, the mask rows, and the step that runs a word. -/

namespace Sys2Proof.Machine

/-! ### Sequence rows -/

/-- ENC_PRESS of an ordinary code enqueues the code behind its extension byte, if it has one (R95). -/
theorem encPress_ordinary_enqueuedInOrder {e : Entry} (hnone : e.code ≠ Config.keyNone)
    (hpause : e.code ≠ Config.keyPause) (s : State) :
    EnqueuedInOrder (if e.ext then [Config.prefixExt, e.code] else [e.code]) s (encPress e s) := by
  rw [encPress, if_neg hnone, if_neg hpause]
  exact enqueueAll_enqueuedInOrder _ s

/-- ENC_RELEASE of an ordinary code enqueues the code behind the break byte (R96). -/
theorem encRelease_ordinary_enqueuedInOrder {e : Entry} (hnone : e.code ≠ Config.keyNone)
    (hpause : e.code ≠ Config.keyPause) (s : State) :
    EnqueuedInOrder (if e.ext then [Config.prefixExt, Config.prefixBreak, e.code] else [Config.prefixBreak, e.code]) s
      (encRelease e s) := by
  rw [encRelease, if_neg hnone, if_neg hpause]
  exact enqueueAll_enqueuedInOrder _ s

/-- Settles O15: each row is the press or release of its entry, and its word is the bytes of that call. -/
theorem sequenceRowsEnqueueTheirBytes : Obligations.SequenceRowsEnqueueTheirBytes := by
  intro s
  refine ⟨fun k => ?_, fun c hnone hpause => ?_⟩
  · obtain ⟨hnone, hpause⟩ := k.code_ne_sentinel
    rw [encode_makeOf, encode_breakOf]
    exact ⟨⟨_, exec_makeOf k s, encPress_ordinary_enqueuedInOrder (e := k.entry) hnone hpause s⟩,
      _, exec_breakOf k s, encRelease_ordinary_enqueuedInOrder (e := k.entry) hnone hpause s⟩
  · simp only [List.forall_mem_cons, List.not_mem_nil, false_imp_iff, implies_true, and_true]
    exact ⟨⟨_, exec_make1Generic c s, encPress_ordinary_enqueuedInOrder (e := ⟨false, c⟩) hnone hpause s⟩,
      ⟨_, exec_break2Generic c s, encRelease_ordinary_enqueuedInOrder (e := ⟨false, c⟩) hnone hpause s⟩,
      ⟨_, exec_xmake2Generic c s, encPress_ordinary_enqueuedInOrder (e := ⟨true, c⟩) hnone hpause s⟩,
      ⟨_, exec_xbreak3Generic c s, encRelease_ordinary_enqueuedInOrder (e := ⟨true, c⟩) hnone hpause s⟩⟩

/-- ENC_PRESS of the Pause code enqueues all eight bytes or none (R93). -/
theorem encPress_pauseEnqueued {e : Entry} (h : e.code = Config.keyPause) (s : State) : PauseEnqueued s (encPress e s) := by
  rw [encPress_pause s ((cls_pause_iff e).2 h)]
  exact enqueuePause_pauseEnqueued s

/-- ENC_RELEASE of a sentinel does nothing (R92, R94). -/
theorem encRelease_sentinel {e : Entry} (h : e.code = Config.keyNone ∨ e.code = Config.keyPause) (s : State) :
    encRelease e s = s := by
  unfold encRelease
  rcases h with h | h
  · rw [if_pos h]
  · rw [if_neg (by rw [h]; decide), if_pos h]

/-- ENC_PRESS of the disabled code does nothing (R92). -/
theorem encPress_none {e : Entry} (h : e.code = Config.keyNone) (s : State) : encPress e s = s :=
  encPress_disabled s ((cls_disabled_iff e).2 h)

/-- Settles O16: each row is the press or release of a sentinel's entry. -/
theorem sentinelRowsFollowTheirClass : Obligations.SentinelRowsFollowTheirClass := by
  intro s
  have stays {t : State} (h : t = s) : (.next t : Host.Outcome State Fault Refusal) = .next s := congrArg _ h
  simp only [List.forall_mem_cons, List.not_mem_nil, false_imp_iff, implies_true, and_true]
  exact ⟨⟨⟨_, exec_pauseMake s, encPress_pauseEnqueued rfl s⟩,
      ⟨_, exec_make1Generic _ s, encPress_pauseEnqueued rfl s⟩,
      ⟨_, exec_xmake2Generic _ s, encPress_pauseEnqueued rfl s⟩⟩,
    stays (encRelease_sentinel (.inr rfl) s), stays (encPress_none rfl s), stays (encRelease_sentinel (.inl rfl) s),
    stays (encRelease_sentinel (.inr rfl) s), stays (encRelease_sentinel (.inr rfl) s), stays (encPress_none rfl s),
    stays (encRelease_sentinel (.inl rfl) s), stays (encPress_none rfl s), stays (encRelease_sentinel (.inl rfl) s)⟩

/-! ### Levels given by a word -/

/-- SAMPLE with the eight levels of a mask first reads that mask, and leaves the inputs behind them (R66, R70). -/
theorem sample_maskLevels (s : State) (m : Mask) (rest : List Bool) :
    sample { s with padIn := maskLevels m ++ rest } =
      { s with
        curMask := m
        sampCnt := 8
        padIn := rest
        padLatch := false
        padClk := false
        now := timeAdd s.params.timeW s.now 108
        trace := sampleEvents.reverse ++ s.trace } := by
  have hdraws : s.draws + (8 - (maskLevels m ++ rest).length) = s.draws := by
    rw [List.length_append, show (maskLevels m).length = 8 from rfl]
    omega
  rw [sample_eq _ m fun i hi => (levelAt_maskLevels s m rest i hi).symm]
  simp only [hdraws]
  rfl

/-- Settles O34: the levels given are the mask read, and the inputs behind them are left. -/
theorem padstreamIsSampledBitByBit : Obligations.PadstreamIsSampledBitByBit := by
  intro s r
  rw [exec_padstream, sample_maskLevels]
  rfl

/-! ### One cycle on a given mask -/

/-- Between s and t the sampled mask and the mode are the same. -/
def SameMode (s t : State) : Prop := t.curMask = s.curMask ∧ t.cfg = s.cfg

theorem QueueOnly.sameMode {s t : State} (h : QueueOnly s t) : SameMode s t := ⟨h.curMask_eq, h.cfg_eq⟩

theorem sameMode_edgeScan (m : Mask) (s : State) : SameMode s (edgeScan m s) := by
  obtain ⟨u, -, hu, he, -⟩ := edgeScan_spec m s
  rw [he]
  exact hu.sameMode

theorem sameMode_applyAction (a : Action) (s : State) : SameMode s (applyAction a s) := by
  obtain ⟨u, bs, hu, he⟩ := applyAction_spec a s
  rw [he]
  exact hu.frame.sameMode

theorem sameMode_runAction (a : Action) (s : State) : SameMode s (runAction a s) := by
  rw [runAction, endAction_eq, debounce_eq]
  exact sameMode_applyAction a s

/-- Steps 4 to 6 end the cycle and leave the mask and the mode (R20, R125). -/
theorem steps4to6_ends (s : State) : (steps4to6 s).phase = .drain ∧ SameMode s (steps4to6 s) := by
  have scanned : SameMode s (goto .drain (storePrev s.curMask (edgeScan s.curMask s))) := sameMode_edgeScan s.curMask s
  unfold steps4to6
  simp only
  split
  · split
    next a _ => exact ⟨by rw [runAction, endAction_eq], sameMode_runAction a s⟩
    next => exact ⟨rfl, scanned⟩
  · exact ⟨rfl, scanned⟩

/-- Steps 2 to 6 of a cycle whose eight reads answer the mask m (R125, R143 a). -/
theorem afterDrain_maskLevels {s : State} {m : Mask} {rest : List Bool} (h : s.padIn = maskLevels m ++ rest) :
    (afterDrain s).phase = .drain ∧ (afterDrain s).curMask = m ∧ (afterDrain s).cfg = selectPressed m := by
  have hm : (sample s).curMask = m := by
    have hs := congrArg State.curMask (sample_maskLevels s m rest)
    rwa [← h] at hs
  obtain ⟨u, bs, hu, hedge⟩ := selectEdge_spec (sample s)
  obtain ⟨hphase, hmask, hcfg⟩ := steps4to6_ends (selectEdge (sample s))
  refine ⟨hphase, hmask.trans ?_, hcfg.trans ?_⟩
  · rw [hedge]
    exact hu.frame.curMask_eq.trans hm
  · rw [hedge, hm]

/-- The byte at `tail` is written where a byte is resident (R105, R181). -/
theorem InvCore.oldest_written {s : State} (h : InvCore s) (hn : s.head ≠ s.tail) : ∃ b, qramRead s s.tail = some b := by
  have hcount : 0 < count s := Nat.pos_of_ne_zero fun h0 => hn ((count_eq_zero_iff s).1 h0)
  have hw := h.resident_written 0 hcount
  rw [BitVec.add_zero] at hw
  exact Option.isSome_iff_exists.1 hw

theorem padIn_readNow (s : State) : (readNow s).padIn = s.padIn := by rw [readNow_frame]

theorem padIn_pollLines (s : State) : (pollLines s).2.padIn = s.padIn := by rw [pollLines_frame]

theorem padIn_stampSend (s : State) : (stampSend s).padIn = s.padIn := padIn_readNow s

theorem padIn_txByte (b : Byte) (s : State) : (txByte b s).padIn = s.padIn := by rw [txByte_eq]

theorem padIn_consumeByte (s : State) : (consumeByte s).padIn = s.padIn := rfl

/-- DRAIN with the gate closed or both lines high completes, and leaves the levels to come (R109, R110, R111). -/
theorem InvCore.drain_completes {s : State} (h : InvCore s)
    (hg : gateOpen (readNow s) = false ∨ (pollLines (readNow s)).1 = (true, true)) :
    ∃ t, Machine.drain s = .next t ∧ t.phase = .sample ∧ t.padIn = s.padIn := by
  cases hopen : gateOpen (readNow s) with
  | false => exact ⟨_, drain_of_closed hopen, rfl, padIn_readNow s⟩
  | true =>
    have hidle := hg.resolve_left (by simp [hopen])
    have k := (keeps_readNow s).trans (keeps_pollLines _)
    obtain ⟨b, hb⟩ := (k.core h).oldest_written ((keeps_pollLines _).nonempty ((gateOpen_iff _).1 hopen).1)
    refine ⟨_, (drain_of_open hopen).trans ((waitThenSend_of_idle hidle).trans (sendOldest_of_some hb)), rfl, ?_⟩
    rw [goto_padIn, padIn_stampSend, padIn_consumeByte, padIn_txByte, padIn_pollLines, padIn_readNow]

/-- The levels to come do not matter to a read of the time input. -/
theorem readNow_withPadIn (s : State) (v : List Bool) : readNow { s with padIn := v } = { readNow s with padIn := v } := by
  cases ht : s.timeIn <;> simp only [readNow, ht] <;> rfl

/-- The levels to come do not matter to a poll of the keyboard lines. -/
theorem pollLines_withPadIn (s : State) (v : List Bool) : (pollLines { s with padIn := v }).1 = (pollLines s).1 := by
  cases hk : s.kbIn <;> simp only [pollLines, readPeer, hk]

/-- CYCLE from phase DRAIN starts with DRAIN (R125). -/
theorem cycle_of_drain {s : State} (h : s.phase = .drain) : cycle s = completeCycle (drain s) := by
  simp only [cycle, h]

/-- A cycle whose DRAIN completed goes on to steps 2 to 6 (R125). -/
theorem completeCycle_of_sample {s : State} (h : s.phase = .sample) :
    completeCycle (.next s) = .next (afterDrain s) := by
  simp [completeCycle, h]

/-- Settles O46: the row is the cycle on the mask's levels, and that cycle's DRAIN completes and leaves them to SAMPLE. -/
theorem maskRowsRunOneCycle : Obligations.MaskRowsRunOneCycle := by
  intro s k m hi hp hg
  obtain ⟨u, hu, hphase, hpad⟩ := ((keeps_padIn s (maskLevels m)).core hi.core).drain_completes
    (by rwa [readNow_withPadIn, pollLines_withPadIn])
  have hcycle : cycle { s with padIn := maskLevels m } = .next (afterDrain u) := by
    rw [cycle_of_drain (by exact hp), hu, completeCycle_of_sample hphase]
  exact ⟨afterDrain u, (exec_maskRow k m s).trans hcycle, hcycle,
    afterDrain_maskLevels (rest := []) (by rw [hpad, List.append_nil])⟩

/-! ### Steps -/

/-- A script word runs when the reset input is released (log 5, 6). -/
theorem step_of_word {s : State} {w : CodeWord} {rest : List CodeWord} (hr : s.resetPin = false)
    (hs : s.script = w :: rest) : step s = runWord w rest s := by
  unfold step
  rw [if_neg (by simp [hr]), hs]

theorem runWord_of_ok {w : CodeWord} {i : Instr} (h : decode w = .ok i) (rest : List CodeWord) (s : State) :
    runWord w rest s = exec i { s with script := rest } := by
  simp only [runWord, h]

theorem runWord_of_error {w : CodeWord} {e : DecodeError} (h : decode w = .error e) (rest : List CodeWord) (s : State) :
    runWord w rest s = runNoRow e { s with script := rest } := by
  simp only [runWord, h]

/-- What is no word of a row and no mask byte is refused by name (R61 e, R64). -/
theorem runNoRow_of_not_mask {e : DecodeError} (h : ∀ m, e ≠ .notPressed m) (s : State) :
    runNoRow e s = .refused (.badWord e) := by
  cases e with
  | notPressed m => exact absurd rfl (h m)
  | empty | truncated | badPause | neverSent | trailing | unknownOperation | operandRange | length | badFrame
  | badParity => rfl

/-- Settles O5, by the three answers of the decoder. -/
theorem stepRunsTheDecodedWord : Obligations.StepRunsTheDecodedWord := by
  intro s w rest hr hs
  rw [step_of_word hr hs]
  refine ⟨fun i h => runWord_of_ok h rest s, fun m h => ?_, fun e h hne => ?_⟩
  · rw [runWord_of_error h]
    rfl
  · rw [runWord_of_error h, runNoRow_of_not_mask hne]

theorem decodeTableWord_eq_some_iff {nbits w : Nat} {i : Instr} :
    decodeTableWord nbits w = some i ↔ decode (tableWord nbits w) = .ok i := by
  unfold decodeTableWord
  split <;> simp [*]

/-- Settles O6: the word placed is the next script word. -/
theorem placedTableWordRunsNext : Obligations.PlacedTableWordRunsNext := by
  intro s nbits w i h
  rw [step_of_word (s := s.withFetchWord nbits w) rfl rfl, runWord_of_ok (decodeTableWord_eq_some_iff.1 h)]
  rfl

end Sys2Proof.Machine

/-! The Input Sampler (R70 to R73): what SAMPLE reads, whatever levels the controller answers. -/

namespace Sys2Proof.Machine

/-- Settles O33: the levels named are those SAMPLE answers, bit by bit, so its equation is the statement. -/
theorem sampleReadsTheEightLevels : Obligations.SampleReadsTheEightLevels := by
  intro s m hlevels
  have hm : ∀ i < 8, m.getLsbD i = levelAt s i := fun i hi => hlevels ⟨i, hi⟩
  rw [exec_sample, sample_eq s m hm]
  rfl

end Sys2Proof.Machine

/-! The Layout Table (R81 to R86): the contents of the default ROM. -/

namespace Sys2Proof.Machine

/-- At reset LROM is the default table (R22). -/
theorem reset_lrom : State.reset.params.lrom = layoutRom := rfl

/-- R85: the extended entries of the default table are the four arrows, profile 3's last four. -/
theorem layoutRom_ext_eq : ∀ a : Fin 32, layoutRom[a.val].ext = decide (28 ≤ a.val) := by
  decide

/-- Settles O20: the codes are those of the keys the table names; the flags are `layoutRom_ext_eq`. -/
theorem layoutRomHoldsTheFourProfiles : Obligations.LayoutRomHoldsTheFourProfiles := by
  unfold Obligations.LayoutRomHoldsTheFourProfiles
  rw [reset_lrom]
  exact ⟨rfl, layoutRom_ext_eq⟩

end Sys2Proof.Machine

/-! The encoder (R90 to R99): what ENC_PRESS and ENC_RELEASE enqueue, class by class, and where they enqueue nothing. -/

namespace Sys2Proof.Machine

/-! ### By class of the entry -/

/-- Settles O13: each class has its own equation of ENC_PRESS. -/
theorem encPressEnqueuesByClass : Obligations.EncPressEnqueuesByClass := by
  intro e s
  refine ⟨fun h => ⟨_, exec_encPress e s, ?_⟩,
    fun h => ⟨_, exec_encPress e s, encPress_pauseEnqueued ((cls_pause_iff e).1 h) s⟩, fun h => ?_⟩
  · rw [encPress_ordinary s h]
    exact enqueueAll_enqueuedInOrder _ s
  · rw [exec_encPress, encPress_disabled s h]

/-- Settles O14: a sentinel has no release; every other entry's bytes are enqueued in order. -/
theorem encReleaseEnqueuesByClass : Obligations.EncReleaseEnqueuesByClass := by
  intro e s
  refine ⟨fun _ => ⟨_, exec_encRelease e s, encRelease_enqueuedInOrder e s⟩, fun h => ?_⟩
  rw [exec_encRelease, encRelease_sentinel (h.symm.imp (cls_disabled_iff e).1 (cls_pause_iff e).1)]

/-- Settles O17, by the fold of RELEASE_ALL's turns over the eight buttons. -/
theorem releaseAllReleasesEveryMarkedButton : Obligations.ReleaseAllReleasesEveryMarkedButton := by
  intro p s
  obtain ⟨u, hu, he⟩ := releaseAll_spec p s
  exact ⟨u, hu, (exec_releaseAll p s).trans (congrArg _ he)⟩

/-! ### States with the same queue -/

theorem SameQueue.free_eq {s t : State} (h : SameQueue s t) : free t = free s := by
  simp only [free, count, h.head_eq, h.tail_eq]

theorem SameQueue.queueFull_eq {s t : State} (h : SameQueue s t) : queueFull t = queueFull s := by
  simp only [queueFull, h.head_eq, h.tail_eq]

/-- ENQUEUE looks at the queue alone (R106). -/
theorem SameQueue.enqueue {s t : State} (h : SameQueue s t) (b : Byte) :
    SameQueue (Machine.enqueue b s) (Machine.enqueue b t) := by
  cases hf : queueFull s with
  | true =>
    rw [enqueue_of_full b hf, enqueue_of_full b (h.queueFull_eq.trans hf)]
    exact ⟨h.qram_eq, h.head_eq, h.tail_eq⟩
  | false =>
    rw [enqueue_of_not_full b hf, enqueue_of_not_full b (h.queueFull_eq.trans hf)]
    exact ⟨by simp [h.qram_eq, h.head_eq], by simp [h.head_eq], h.tail_eq⟩

theorem SameQueue.enqueueAll {s t : State} (h : SameQueue s t) (bs : List Byte) :
    SameQueue (Machine.enqueueAll bs s) (Machine.enqueueAll bs t) := by
  induction bs generalizing s t with
  | nil => exact h
  | cons b bs ih => exact ih (h.enqueue b)

/-- ENQUEUE_PAUSE looks at the queue alone (R107). -/
theorem SameQueue.enqueuePause {s t : State} (h : SameQueue s t) :
    SameQueue (Machine.enqueuePause s) (Machine.enqueuePause t) := by
  by_cases hroom : 8 ≤ free s
  · rw [enqueuePause_of_room hroom, enqueuePause_of_room (h.free_eq ▸ hroom)]
    exact ⟨by simp only [storePause_qram_congr h.qram_eq h.head_eq], by simp only [h.head_eq], h.tail_eq⟩
  · have hroom : free s < 8 := Nat.lt_of_not_le hroom
    rw [enqueuePause_of_no_room hroom, enqueuePause_of_no_room (h.free_eq ▸ hroom)]
    exact ⟨h.qram_eq, h.head_eq, h.tail_eq⟩

theorem SameQueue.encPress {s t : State} (h : SameQueue s t) (e : Entry) :
    SameQueue (Machine.encPress e s) (Machine.encPress e t) := by
  cases hc : e.cls with
  | disabled => simpa only [encPress_disabled _ hc] using h
  | pause => simpa only [encPress_pause _ hc] using h.enqueuePause
  | extended => simpa only [encPress_ordinary _ (.inr hc)] using h.enqueueAll _
  | normal => simpa only [encPress_ordinary _ (.inl hc)] using h.enqueueAll _

theorem SameQueue.encRelease {s t : State} (h : SameQueue s t) (e : Entry) :
    SameQueue (Machine.encRelease e s) (Machine.encRelease e t) := by
  simpa only [encRelease_eq] using h.enqueueAll _

/-- Settles O18: both calls keep two states' queues the same. -/
theorem encoderDependsOnEntryAndQueueOnly : Obligations.EncoderDependsOnEntryAndQueueOnly := by
  intro e s s' hqram hhead htail
  have h : SameQueue s' s := ⟨hqram, hhead, htail⟩
  obtain ⟨hq, hh, ht⟩ := h.encPress e
  obtain ⟨hq', hh', ht'⟩ := h.encRelease e
  exact ⟨_, _, _, _, exec_encPress e s, exec_encPress e s', hq, hh, ht, exec_encRelease e s, exec_encRelease e s', hq',
    hh', ht'⟩

/-! ### Changes that enqueue nothing -/

/-- What calls EDGE_SCAN makes for one button: a press for a new press, a release for a new release (R137). -/
theorem mem_turnCall {m : Mask} {s : State} {j : Button} {c : Instr} (h : c ∈ turnCall m s j) :
    (logical s.swapAB m j = true ∧ s.btn[j.val] = false ∧ c = .encPress (lookupEntry s.params.lrom s.profile j)) ∨
      (logical s.swapAB m j = false ∧ s.btn[j.val] = true ∧
        c = .encRelease (lookupEntry s.params.lrom s.profile j)) := by
  simp only [turnCall, Bool.and_eq_true, Bool.not_eq_true'] at h
  split at h
  next hpress => exact .inl ⟨hpress.1, hpress.2, List.mem_singleton.1 h⟩
  next =>
    split at h
    next hrelease => exact .inr ⟨hrelease.1, hrelease.2, List.mem_singleton.1 h⟩
    next => cases h

/-- Calls that each do nothing do nothing one after the other. -/
theorem runAll_of_forall_stays {cs : List Instr} {s : State} (h : ∀ c ∈ cs, exec c s = .next s) :
    runAll cs s = .next s := by
  induction cs with
  | nil => rfl
  | cons c cs ih =>
    rw [runAll, h c List.mem_cons_self]
    exact ih fun d hd => h d (List.mem_cons_of_mem c hd)

/-- EDGE_SCAN only updates the marks where every change is of a disabled entry, or is the release of a PAUSE entry (R92,
R94, R137). -/
theorem exec_edgeScan_of_silent_changes {m : Mask} {s : State}
    (h : ∀ j : Button, logical s.swapAB m j ≠ s.btn[j.val] →
      (lookupEntry s.params.lrom s.profile j).code = Config.keyNone ∨
        s.btn[j.val] = true ∧ (lookupEntry s.params.lrom s.profile j).code = Config.keyPause) :
    exec (.edgeScan m) s =
      .next { s with btn := logicalButtons s.swapAB m, phase := .store, engine := .off } := by
  have hstays : ∀ c ∈ edgeCalls m s, exec c s = .next s := by
    intro c hc
    obtain ⟨j, -, hj⟩ := List.mem_flatMap.1 hc
    obtain ⟨hl, hb, rfl⟩ | ⟨hl, hb, rfl⟩ := mem_turnCall hj
    · have hnone := (h j (by simp [hl, hb])).resolve_right (by simp [hb])
      rw [exec_encPress, encPress_none hnone]
    · have hcode := (h j (by simp [hl, hb])).imp_right And.right
      rw [exec_encRelease, encRelease_sentinel hcode]
  obtain ⟨u, hrun, -, he, -⟩ := edgeScan_spec m s
  obtain rfl := Host.Outcome.next.inj ((runAll_of_forall_stays hstays).symm.trans hrun)
  rw [exec_edgeScan, he]
  rfl

/-- A turn of RELEASE_ALL on a button that, if it is marked, has a PAUSE entry only writes the marks, and sets none (R94,
R97). -/
theorem releaseButton_of_pause {p : Profile} {s : State} {i : Button}
    (h : s.btn[i.val] = true → (lookupEntry s.params.lrom p i).code = Config.keyPause) :
    ∃ v, releaseButton p s i = { s with btn := v } ∧ ∀ j : Button, v[j.val] = true → s.btn[j.val] = true := by
  unfold releaseButton
  split
  next hb =>
    rw [encRelease_sentinel (.inr (h hb))]
    refine ⟨_, rfl, fun j hj => ?_⟩
    rw [Vector.getElem_set] at hj
    split at hj
    next => cases hj
    next => exact hj
  next => exact ⟨s.btn, rfl, fun _ => id⟩

/-- The turns of RELEASE_ALL write nothing but the marks where every marked button's entry is a PAUSE entry (R94, R97). -/
theorem foldl_releaseButton_of_pause {p : Profile} (l : List Button) {s : State}
    (h : ∀ i : Button, s.btn[i.val] = true → (lookupEntry s.params.lrom p i).code = Config.keyPause) :
    ∃ v, l.foldl (releaseButton p) s = { s with btn := v } := by
  induction l generalizing s with
  | nil => exact ⟨s.btn, rfl⟩
  | cons i l ih =>
    obtain ⟨v, hv, hmarks⟩ := releaseButton_of_pause (h i)
    rw [List.foldl_cons, hv]
    exact ih (s := { s with btn := v }) fun j hj => h j (hmarks j hj)

theorem releaseAll_of_pause {p : Profile} {s : State}
    (h : ∀ i : Button, s.btn[i.val] = true → (lookupEntry s.params.lrom p i).code = Config.keyPause) :
    releaseAll p s = { s with btn := Vector.replicate 8 false } := by
  obtain ⟨v, hv⟩ : ∃ v, releaseAll p s = { s with btn := v } := foldl_releaseButton_of_pause buttons h
  obtain ⟨u, -, hu⟩ := releaseAll_spec p s
  have hmarks : v = Vector.replicate 8 false := congrArg State.btn (hv.symm.trans hu)
  rw [hv, hmarks]

/-- Settles O24: the code KEY_NONE is the disabled class, and a change of such an entry is silent. -/
theorem disabledButtonsAreTrackedSilently : Obligations.DisabledButtonsAreTrackedSilently := by
  refine ⟨fun x s => ⟨?_, ?_⟩, fun m s h => ?_, by decide⟩
  · rw [exec_encPress, encPress_none rfl]
  · rw [exec_encRelease, encRelease_sentinel (.inl rfl)]
  · exact ⟨_, exec_edgeScan_of_silent_changes fun j hj => .inl (h j hj), rfl⟩

/-- In profile 0, which the state at reset has, Start's entry is the PAUSE entry (R81). -/
theorem edgeBytes_start_at_reset : edgeBytes 0xF7 State.reset = Config.pauseSeq := by
  decide

/-- At reset a press of Start alone enqueues the eight-byte literal (R93, R137). -/
theorem edgeScan_start_at_reset : resident (edgeScan 0xF7 State.reset) = Config.pauseSeq.map some := by
  obtain ⟨u, -, -, he, hstored⟩ := edgeScan_spec 0xF7 State.reset
  rw [edgeBytes_start_at_reset] at hstored
  rw [he]
  exact resident_of_stored (hstored (by decide)) (by decide)

/-- Where Start alone is pressed and then nothing, the one change is the release of a PAUSE entry in profile 0 (R81). -/
theorem start_released_is_pause : ∀ i : Button, logical false 0xFF i ≠ (logicalButtons false 0xF7)[i.val] →
    (logicalButtons false 0xF7)[i.val] = true ∧ (lookupEntry layoutRom 0 i).code = Config.keyPause := by
  decide

/-- Settles O25: the release of a PAUSE entry is silent on every path; in profile 0 Start's entry is one. -/
theorem pauseHasNoRelease : Obligations.PauseHasNoRelease := by
  refine ⟨fun x s => ?_, fun m s h => exec_edgeScan_of_silent_changes fun j hj => .inr (h j hj), fun p s h => ?_, ?_⟩
  · rw [exec_encRelease, encRelease_sentinel (.inr rfl)]
  · rw [exec_releaseAll, releaseAll_of_pause h]
  · refine ⟨_, _, exec_edgeScan 0xF7 State.reset, exec_edgeScan_of_silent_changes ?_, edgeScan_start_at_reset,
      rfl⟩
    obtain ⟨u, -, hu, he, -⟩ := edgeScan_spec 0xF7 State.reset
    rw [he]
    simp only [goto_btn, goto_profile, goto_params, goto_swapAB, hu.profile_eq, hu.params_eq, hu.swapAB_eq]
    exact fun j hj => .inr (start_released_is_pause j hj)

end Sys2Proof.Machine

/-! The Output Queue and the Transmitter (R105 to R117): what ENQUEUE and ENQUEUE_PAUSE store, what a frame sends, and
DRAIN along its branches: the gate closed, a line low, the oldest byte sent. -/

namespace Sys2Proof.Machine

/-! ### The producer side -/

/-- Settles O12, by the count's own bound and its two extreme values. -/
theorem queueIndicesGiveTheCount : Obligations.QueueIndicesGiveTheCount := fun s =>
  ⟨count_le s, count_eq_zero_iff s, (queueFull_iff s).symm.trans beq_iff_eq, queueEmpty_iff s, queueFull_iff s⟩

/-- Settles O10: on a queue that is not full the one byte fits, so it is stored behind the resident ones. -/
theorem enqueueStoresOrDrops : Obligations.EnqueueStoresOrDrops := by
  intro b s
  refine ⟨fun hroom => ?_, fun hfull => ?_⟩
  · have hnot : queueFull s = false := beq_eq_false_iff_ne.2 hroom
    have hfree : [b].length ≤ free s :=
      Nat.one_le_iff_ne_zero.2 fun h0 => by simp [(queueFull_iff_free s).2 h0] at hnot
    have hstored := (enqueue_enqueuedInOrder b s).stored hfree
    rw [enqueue_of_not_full b hnot] at hstored
    refine ⟨_, (exec_enqueue b s).trans (congrArg _ (enqueue_of_not_full b hnot)), rfl,
      qramRead_qramWrite_same s.head b s, fun a ha => qramRead_qramWrite_other b s ha,
      count_of_stored hstored hfree, resident_of_stored hstored hfree⟩
  · exact (exec_enqueue b s).trans (congrArg _ (enqueue_of_full b (beq_iff_eq.2 hfull)))

/-- Settles O11: eight slots are free exactly with at most 55 bytes resident. -/
theorem enqueuePauseIsAllOrNothing : Obligations.EnqueuePauseIsAllOrNothing := by
  intro s
  refine ⟨fun hroom => ?_, fun hfull => ?_⟩
  · have hfree : 8 ≤ free s := by unfold free; omega
    exact ⟨_, (exec_enqueuePause s).trans (congrArg _ (enqueuePause_of_room hfree)), storePause_stored s, rfl,
      resident_of_stored (storePause_stored s) hfree⟩
  · have hfree : free s < 8 := by unfold free; omega
    exact (exec_enqueuePause s).trans (congrArg _ (enqueuePause_of_no_room hfree))

/-! ### The frame -/

/-- Settles O37, by the equation of a whole frame. -/
theorem txByteSendsOneFrame : Obligations.TxByteSendsOneFrame := by
  intro s p b sent
  refine ⟨(exec_frame p b s).trans (congrArg _ (sendFrame_eq p b s)), ?_⟩
  rw [exec_txByte, txByte, sendFrame_eq]
  rfl

/-- TX_BYTE transmits its byte (R112). -/
theorem sentBytes_txByte (b : Byte) (s : State) : sentBytes (txByte b s) = sentBytes s ++ [b] := by
  rw [txByte, (silent_delay _ _).sent_eq, sendFrame_eq]
  exact sentBytes_frame s.params.tKbHalf (parity b) b s

/-! ### IDLE_WAIT and the gate -/

/-- Settles O41: IDLE_WAIT has one equation for each outcome of the poll. -/
theorem idleWaitPollsBothLines : Obligations.IdleWaitPollsBothLines := by
  intro s
  have hscript : (pollLines s).2.script = s.script := by rw [pollLines_frame]
  refine ⟨fun hidle => ?_, fun hbusy => ?_⟩
  · exact (exec_idleWait s).trans (execIdleWait_of_idle hidle)
  · rw [exec_idleWait, execIdleWait_of_busy hbusy, hscript]

/-- The gate DRAIN tests: on the registers as they are and the time it has just read (R110). -/
theorem gateOpen_readNow_iff (s : State) : gateOpen (readNow s) = true ↔
    s.head ≠ s.tail ∧ 2500 ≤ timeSub s.params.timeW (readNow s).now s.lastSend := by
  rw [gateOpen_iff, readNow_frame]

/-- Settles O38: either condition closes the gate. -/
theorem drainWithClosedGateDoesNothing : Obligations.DrainWithClosedGateDoesNothing := by
  intro s hclosed
  have hgate : gateOpen (readNow s) = false := by
    rw [← Bool.not_eq_true, gateOpen_readNow_iff]
    rintro ⟨hne, hdue⟩
    exact hclosed.elim hne (Nat.not_lt.2 hdue)
  exact (exec_drain s).trans (drain_of_closed hgate)

/-! ### DRAIN behind an open gate -/

/-- Neither the read of the time nor the poll changes a queue slot. -/
theorem qramRead_pollLines_readNow (s : State) (a : Index) : qramRead (pollLines (readNow s)).2 a = qramRead s a :=
  qramRead_congr ((silent_readNow s).trans (silent_pollLines _)).qram_eq a

theorem tail_pollLines_readNow (s : State) : (pollLines (readNow s)).2.tail = s.tail :=
  ((silent_readNow s).trans (silent_pollLines _)).tail_eq

/-- DRAIN that finds a line low (R111, R164). -/
theorem drain_of_busy {s : State} (hgate : gateOpen (readNow s) = true)
    (hbusy : (pollLines (readNow s)).1 ≠ (true, true)) :
    drain s = .next (goto .idleWait (pollLines (readNow s)).2) :=
  (drain_of_open hgate).trans (waitThenSend_of_busy hbusy)

/-- DRAIN that sends (R109). -/
theorem drain_of_idle {s : State} {b : Byte} (hgate : gateOpen (readNow s) = true)
    (hidle : (pollLines (readNow s)).1 = (true, true)) (hb : qramRead s s.tail = some b) :
    drain s = .next (goto .sample (stampSend (consumeByte (txByte b (pollLines (readNow s)).2)))) := by
  rw [drain_of_open hgate, waitThenSend_of_idle hidle]
  exact sendOldest_of_some (by rwa [tail_pollLines_readNow, qramRead_pollLines_readNow])

/-- DRAIN that has no byte to send (log 9). -/
theorem drain_of_unwritten {s : State} (hgate : gateOpen (readNow s) = true)
    (hidle : (pollLines (readNow s)).1 = (true, true)) (hb : qramRead s s.tail = none) :
    drain s = .fault (.qramUnwritten s.tail.toNat) := by
  rw [drain_of_open hgate, waitThenSend_of_idle hidle,
    sendOldest_of_none (by rwa [tail_pollLines_readNow, qramRead_pollLines_readNow]), tail_pollLines_readNow]

/-- Settles O40: DRAIN is held, and a cycle whose DRAIN is held goes no further. -/
theorem busyPeerHoldsTheCycle : Obligations.BusyPeerHoldsTheCycle := by
  intro s hne hdue hbusy hphase t
  have hdrain : drain s = .next t := drain_of_busy ((gateOpen_readNow_iff s).2 ⟨hne, hdue⟩) hbusy
  refine ⟨hdrain, ?_, ?_⟩
  · rw [exec_cycle, cycle_of_drain hphase, hdrain]
    rfl
  · exact congrArg (goto .idleWait) (pollLines_readNow_frame s)

/-- Settles O39: the equation of DRAIN that sends, its TX_BYTE written out. -/
theorem drainSendsTheOldestByte : Obligations.DrainSendsTheOldestByte := by
  intro s hne hdue p hidle
  have hgate := (gateOpen_readNow_iff s).2 ⟨hne, hdue⟩
  refine ⟨fun b hb => ?_, fun hb => ?_⟩
  · have hparams : p.2.params = s.params := ((silent_readNow s).trans (silent_pollLines _)).params_eq
    rw [exec_drain, drain_of_idle hgate hidle hb, txByte_eq]
    simp only [consumeByte, stampSend, goto, tail_pollLines_readNow, hparams, p]
  · exact (exec_drain s).trans (drain_of_unwritten hgate hidle hb)

/-! ### The send timestamps -/

/-- A DRAIN that moves `tail` has found the gate open and has sent the byte there (R109). -/
theorem drain_sends {s t : State} (h : drain s = .next t) (htail : t.tail ≠ s.tail) :
    gateOpen (readNow s) = true ∧ ∃ b, qramRead s s.tail = some b ∧
      t = goto .sample (stampSend (consumeByte (txByte b (pollLines (readNow s)).2))) := by
  cases hgate : gateOpen (readNow s) with
  | false =>
    obtain rfl := Host.Outcome.next.inj ((drain_of_closed hgate).symm.trans h)
    exact absurd (silent_readNow s).tail_eq htail
  | true =>
    by_cases hidle : (pollLines (readNow s)).1 = (true, true)
    · cases hb : qramRead s s.tail with
      | none => cases (drain_of_unwritten hgate hidle hb).symm.trans h
      | some b => exact ⟨rfl, b, rfl, (Host.Outcome.next.inj ((drain_of_idle hgate hidle hb).symm.trans h)).symm⟩
    · obtain rfl := Host.Outcome.next.inj ((drain_of_busy hgate hidle).symm.trans h)
      exact absurd (tail_pollLines_readNow s) htail

/-- With an unbounded time base an elapsed time of d > 0 lies d after its start (R44 e). -/
theorem add_le_of_le_timeSub {a b d : Nat} (hd : 0 < d) (h : d ≤ timeSub none a b) : b + d ≤ a := by
  have hsub : d ≤ a - b := h
  omega

/-- With an unbounded time base a read of the time input never goes back (R15). -/
theorem le_readNow_now {s : State} (hw : s.params.timeW = none) : s.now ≤ (readNow s).now := by
  obtain ⟨d, hd⟩ := readNow_now s
  rw [hd, hw]
  exact Nat.le_add_right _ _

/-- With an unbounded time base the timestamp is not before the end of TX_BYTE (R113, R114, R115). -/
theorem le_lastSend_stampSend (b : Byte) {s : State} (hw : s.params.timeW = none) :
    s.now + 22 * s.params.tKbHalf + 150 ≤ (stampSend (consumeByte (txByte b s))).lastSend :=
  calc s.now + 22 * s.params.tKbHalf + 150
    _ = s.now + (22 * s.params.tKbHalf + 150) := Nat.add_assoc ..
    _ = (consumeByte (txByte b s)).now := by simp only [consumeByte, txByte_eq, hw, timeAdd]
    _ ≤ (stampSend (consumeByte (txByte b s))).lastSend :=
      le_readNow_now (by simp only [consumeByte, txByte_eq, hw])

/-- The byte sent is consumed (R41, R116). -/
theorem tail_stampSend_txByte (b : Byte) (s : State) : (stampSend (consumeByte (txByte b s))).tail = s.tail + 1 := by
  rw [(silent_stampSend _).tail_eq, txByte_eq]
  rfl

/-- Consuming the byte and taking the timestamp send nothing more (R112, R115, R116). -/
theorem sentBytes_stampSend_txByte (b : Byte) (s : State) :
    sentBytes (stampSend (consumeByte (txByte b s))) = sentBytes s ++ [b] :=
  (silent_stampSend _).sent_eq.trans (sentBytes_txByte b s)

/-- Settles O42: the gate gives T_INTERBYTE up to the first read of the time, TX_BYTE the rest. -/
theorem timestampsAreSpaced : Obligations.TimestampsAreSpaced := by
  intro s t hw h htail
  obtain ⟨hgate, b, hb, rfl⟩ := drain_sends h htail
  have hpoll := (silent_readNow s).trans (silent_pollLines _)
  refine ⟨?_, ?_, b, hb, ?_⟩
  · have hdue : 2500 ≤ timeSub none (readNow s).now s.lastSend := hw ▸ ((gateOpen_readNow_iff s).1 hgate).2
    have hnow : (pollLines (readNow s)).2.now = (readNow s).now := by rw [pollLines_frame]
    have hstamp := le_lastSend_stampSend b (hpoll.params_eq ▸ hw)
    rw [hnow, hpoll.params_eq] at hstamp
    exact (Nat.add_le_add_right (Nat.add_le_add_right (add_le_of_le_timeSub (by decide) hdue) _) _).trans hstamp
  · rw [goto_tail, tail_stampSend_txByte, tail_pollLines_readNow]
  · rw [(silent_goto _ _).sent_eq, sentBytes_stampSend_txByte, hpoll.sent_eq]

end Sys2Proof.Machine

/-! The sequencer's invariant (R71, R109, R113, R143, R183): the two serial phases step by step, every other phase by the
pins it leaves idle and by what it does to the mode and the marks. -/

namespace Sys2Proof.Machine

/-! ### Pins, mode and marks -/

/-- No pin is driven: each stands at its idle level (R183). -/
structure PinsIdle (s : State) : Prop where
  padLatch : s.padLatch = false
  padClk : s.padClk = false
  kbClk : s.kbClk = .release
  kbData : s.kbData = .release

/-- Between s and t no pin changed. -/
structure PinsKept (s t : State) : Prop where
  padLatch_eq : t.padLatch = s.padLatch := by rfl
  padClk_eq : t.padClk = s.padClk := by rfl
  kbClk_eq : t.kbClk = s.kbClk := by rfl
  kbData_eq : t.kbData = s.kbData := by rfl

/-- The clauses of the sequencer's invariant on the mode and the marks (R143). -/
structure ModeInv (s : State) : Prop where
  select_mode : s.phase = .config ∨ s.phase = .debounce ∨ s.phase = .normal ∨ s.phase = .store →
    s.cfg = selectPressed s.curMask
  action_mode : s.phase = .config ∨ s.phase = .debounce → s.cfg = true
  scanned : s.phase = .store → s.btn = logicalButtons s.swapAB s.curMask

theorem PinsIdle.kept {s t : State} (h : PinsIdle s) (k : PinsKept s t) : PinsIdle t :=
  ⟨k.padLatch_eq.trans h.padLatch, k.padClk_eq.trans h.padClk, k.kbClk_eq.trans h.kbClk, k.kbData_eq.trans h.kbData⟩

theorem PinsKept.trans {s t u : State} (h : PinsKept s t) (k : PinsKept t u) : PinsKept s u where
  padLatch_eq := k.padLatch_eq.trans h.padLatch_eq
  padClk_eq := k.padClk_eq.trans h.padClk_eq
  kbClk_eq := k.kbClk_eq.trans h.kbClk_eq
  kbData_eq := k.kbData_eq.trans h.kbData_eq

theorem QueueOnly.pinsKept {s t : State} (h : QueueOnly s t) : PinsKept s t :=
  ⟨h.padLatch_eq, h.padClk_eq, h.kbClk_eq, h.kbData_eq⟩

theorem pinsKept_readNow (s : State) : PinsKept s (readNow s) := by
  rw [readNow_frame]
  exact {}

theorem pinsKept_pollLines (s : State) : PinsKept s (pollLines s).2 := by
  rw [pollLines_frame]
  exact {}

theorem pinsKept_nvLoad (s : State) : PinsKept s (nvLoad s) := by
  rw [nvLoad_eq]
  exact {}

theorem pinsKept_endAction (s : State) : PinsKept s (endAction s) := by
  rw [endAction_eq]
  exact {}

theorem pinsKept_selectEdge (s : State) : PinsKept s (selectEdge s) := by
  obtain ⟨u, bs, hu, he⟩ := selectEdge_spec s
  rw [he]
  exact hu.frame.pinsKept.trans {}

theorem pinsKept_applyAction (a : Action) (s : State) : PinsKept s (applyAction a s) := by
  obtain ⟨u, bs, hu, he⟩ := applyAction_spec a s
  rw [he]
  exact hu.frame.pinsKept.trans {}

theorem pinsKept_edgeScan (m : Mask) (s : State) : PinsKept s (edgeScan m s) := by
  obtain ⟨u, -, hu, he, -⟩ := edgeScan_spec m s
  rw [he]
  exact hu.pinsKept.trans {}

/-! ### The invariant by phase -/

/-- Outside SAMPLE the controller's pins are idle (R71, R183). -/
theorem SequencerInv.padIdle {s : State} (h : SequencerInv s) (hp : s.phase ≠ .sample) :
    s.padLatch = false ∧ s.padClk = false :=
  ⟨Bool.eq_false_iff.2 fun e => hp (h.latch_high e).1, Bool.eq_false_iff.2 fun e => hp (h.pad_clk_high e).1⟩

theorem Drive.eq_release_of_ne_low {d : Drive} (h : d ≠ .low) : d = .release := by
  cases d with
  | low => exact absurd rfl h
  | release => rfl

/-- Outside a frame the keyboard lines are released (R113, R183). -/
theorem SequencerInv.kbIdle {s : State} (h : SequencerInv s) (hp : s.phase ≠ .tx) :
    s.kbClk = .release ∧ s.kbData = .release :=
  ⟨Drive.eq_release_of_ne_low fun e => hp (h.kb_clk_low e).1, Drive.eq_release_of_ne_low fun e => hp (h.kb_data_low e).1⟩

/-- Outside the serial phases no pin is driven (R183). -/
theorem SequencerInv.pinsIdle {s : State} (h : SequencerInv s) (hp : s.phase ≠ .sample ∧ s.phase ≠ .tx) : PinsIdle s :=
  ⟨(h.padIdle hp.1).1, (h.padIdle hp.1).2, (h.kbIdle hp.2).1, (h.kbIdle hp.2).2⟩

/-- With no pin driven and no serial engine begun, only the clauses on the mode and the marks say something. -/
theorem SequencerInv.of_pinsIdle {t : State} (h : PinsIdle t) (hm : ModeInv t)
    (he : t.engine = .off ∨ t.phase = .debounce ∧ t.engine ∈ [.writing, .saved]) : SequencerInv t where
  latch_high e := by simp [h.padLatch] at e
  pad_clk_high e := by simp [h.padClk] at e
  kb_clk_low e := by simp [h.kbClk] at e
  kb_data_low e := by simp [h.kbData] at e
  bit_out hp hb := by simp [hp] at he; simp [he] at hb
  frame_position hp hn := by simp [hp, hn] at he
  sample_position hp hn := by simp [hp, hn] at he
  engine_of_phase := he.imp_right fun hd => .inr (.inr hd)
  select_mode := hm.select_mode
  action_mode := hm.action_mode
  scanned := hm.scanned

/-- Phase TX, the engine begun. -/
theorem SequencerInv.of_tx {t : State} (hp : t.phase = .tx) (he : t.engine ∈ [.ready, .dataOut, .clkLow])
    (hlatch : t.padLatch = false) (hclk : t.padClk = false) (hkb : t.engine ≠ .clkLow → t.kbClk = .release)
    (hbit : t.engine = .dataOut ∨ t.engine = .clkLow →
      t.kbData = if t.txShift.getLsbD t.txCnt.toNat then .release else .low)
    (hframe : t.txCnt.toNat ≤ 10 ∧ ∃ b, qramRead t t.tail = some b ∧ t.txShift = frameBits (parity b) b) :
    SequencerInv t where
  latch_high e := by simp [hlatch] at e
  pad_clk_high e := by simp [hclk] at e
  kb_clk_low e := ⟨hp, not_not.1 fun hne => by simp [hkb hne] at e⟩
  kb_data_low _ := ⟨hp, fun e => by simp [e] at he⟩
  bit_out _ := hbit
  frame_position _ _ := hframe
  sample_position e := by simp [hp] at e
  engine_of_phase := .inr (.inr (.inl ⟨hp, he⟩))
  select_mode e := by simp [hp] at e
  action_mode e := by simp [hp] at e
  scanned e := by simp [hp] at e

/-- Phase SAMPLE, the engine begun. -/
theorem SequencerInv.of_sample {t : State} (hp : t.phase = .sample)
    (he : t.engine ∈ [.latchHigh, .ready, .clkHigh, .clkLow])
    (hlatch : t.engine ≠ .latchHigh → t.padLatch = false) (hclk : t.engine ≠ .clkHigh → t.padClk = false)
    (hkc : t.kbClk = .release) (hkd : t.kbData = .release)
    (hcnt : t.engine ≠ .latchHigh → t.sampCnt.toNat ≤ 7) : SequencerInv t where
  latch_high e := ⟨hp, not_not.1 fun hne => by simp [hlatch hne] at e⟩
  pad_clk_high e := ⟨hp, not_not.1 fun hne => by simp [hclk hne] at e⟩
  kb_clk_low e := by simp [hkc] at e
  kb_data_low e := by simp [hkd] at e
  bit_out e := by simp [hp] at e
  frame_position e := by simp [hp] at e
  sample_position _ _ := hcnt
  engine_of_phase := .inr (.inl ⟨hp, he⟩)
  select_mode e := by simp [hp] at e
  action_mode e := by simp [hp] at e
  scanned e := by simp [hp] at e

/-- The phases of which the invariant says nothing about the mode and the marks. -/
def beforeSelectEdge : List Phase := [.resetLoad, .drain, .idleWait, .tx, .settle, .sample, .selectEdge]

theorem ModeInv.of_phase {t : State} (hp : t.phase ∈ beforeSelectEdge) : ModeInv t := by
  have hne : t.phase ≠ .config ∧ t.phase ≠ .debounce ∧ t.phase ≠ .normal ∧ t.phase ≠ .store := by
    revert hp
    cases t.phase <;> decide
  obtain ⟨hc, hd, hn, hs⟩ := hne
  exact ⟨by simp [hc, hd, hn, hs], by simp [hc, hd], by simp [hs]⟩

/-- Going on, with no pin driven, to a phase up to the Select edge of a cycle. -/
theorem SequencerInv.goto_of_pinsIdle {s : State} (h : PinsIdle s) {p : Phase} (hp : p ∈ beforeSelectEdge) :
    SequencerInv (goto p s) :=
  .of_pinsIdle (h.kept {}) (.of_phase hp) (.inl rfl)

/-! ### The serial phases -/

/-- A four-bit counter that is not yet at its end n goes on to a value below it (R24, R25; log 29). -/
theorem toNat_add_one_lt {c : BitVec 4} {n : Nat} (hn : n < 16) (hc : c.toNat < n) (hne : c + 1 ≠ BitVec.ofNat 4 n) :
    (c + 1).toNat < n := by
  have hval : (c + 1).toNat = c.toNat + 1 := by
    have hone : (1 : BitVec 4).toNat = 1 := rfl
    rw [BitVec.toNat_add, hone]
    omega
  have hne' : c.toNat + 1 ≠ n := fun e => hne (BitVec.eq_of_toNat_eq (by rw [hval, BitVec.toNat_ofNat]; omega))
  omega

/-- The clock goes low (R113). -/
theorem lowerKbClk_eq (s : State) : lowerKbClk s =
    { s with
      kbClk := .low
      now := timeAdd s.params.timeW s.now s.params.tKbHalf
      trace := .kbClk .low :: .delay s.params.tKbHalf :: s.trace } := by
  simp only [lowerKbClk, driveKbClk, delay, advance, emit]

/-- The clock is released, which ends the turn (R113). -/
theorem endBit_eq (s : State) : endBit s =
    { s with
      kbClk := .release
      txCnt := s.txCnt + 1
      now := timeAdd s.params.timeW s.now s.params.tKbHalf
      trace := .kbClk .release :: .delay s.params.tKbHalf :: s.trace } := by
  simp only [endBit, driveKbClk, delay, advance, emit]

/-- The end of a frame releases the one line that may still be low (R113). -/
theorem pinsIdle_endFrame {s : State} (h : s.padLatch = false ∧ s.padClk = false ∧ s.kbClk = .release) :
    PinsIdle (endFrame s) :=
  ⟨h.1, h.2.1, h.2.2, rfl⟩

theorem SequencerInv.stepTx {s t : State} (h : SequencerInv s) (hp : s.phase = .tx) (ht : stepTx s = .next t) :
    SequencerInv t := by
  obtain ⟨hlatch, hclk⟩ := h.padIdle (by simp [hp])
  have hkb (hne : s.engine ≠ .clkLow) : s.kbClk = .release :=
    Drive.eq_release_of_ne_low fun e => hne (h.kb_clk_low e).2
  cases he : s.engine <;> simp only [Machine.stepTx, he] at ht
  case ready =>
    cases ht
    exact .of_tx hp (by simp) hlatch hclk (fun _ => hkb (by simp [he])) (fun _ => rfl)
      (h.frame_position hp (by simp [he]))
  case dataOut =>
    cases ht
    rw [lowerKbClk_eq]
    exact .of_tx hp (by simp) hlatch hclk (fun e => absurd rfl e) (fun _ => h.bit_out hp (.inl he))
      (h.frame_position hp (by simp [he]))
  case clkLow =>
    obtain ⟨hcnt, hframe⟩ := h.frame_position hp (by simp [he])
    have turn : (endBit s).padLatch = false ∧ (endBit s).padClk = false ∧ (endBit s).kbClk = .release := by
      rw [endBit_eq]
      exact ⟨hlatch, hclk, rfl⟩
    cases ht
    split
    case isTrue => exact .goto_of_pinsIdle (pinsIdle_endFrame turn) (by decide)
    case isFalse hne =>
      rw [endBit_eq] at hne ⊢
      have hcnt' := toNat_add_one_lt (by decide) (Nat.lt_succ_of_le hcnt) hne
      exact .of_tx hp (by simp) hlatch hclk (fun _ => rfl) (by simp) ⟨Nat.le_of_lt_succ hcnt', hframe⟩
  case off | latchHigh | clkHigh | writing | saved =>
    split at ht <;> cases ht
    next b hb =>
    exact .of_tx hp (by simp) hlatch hclk (fun _ => hkb (by simp [he])) (by simp) ⟨Nat.zero_le 10, b, hb, rfl⟩

/-- The latch pulse ends (R70, R71). -/
theorem lowerLatch_eq (s : State) : lowerLatch s =
    { s with
      padLatch := false
      sampCnt := 0
      now := timeAdd s.params.timeW s.now 12
      trace := .padLatch false :: .delay 12 :: s.trace } := by
  simp only [lowerLatch, drivePadLatch, delay, advance, emit, Config.tLatch]

/-- The clock pulse of a read ends (R71). -/
theorem lowerPadClk_eq (s : State) : lowerPadClk s =
    { s with
      padClk := false
      now := timeAdd s.params.timeW s.now 6
      trace := .padClk false :: .delay 6 :: s.trace } := by
  simp only [lowerPadClk, drivePadClk, delay, advance, emit, Config.tPadHalf]

/-- The low half-phase ends the turn of a read (R71). -/
theorem endRead_eq (s : State) : endRead s =
    { s with
      sampCnt := s.sampCnt + 1
      now := timeAdd s.params.timeW s.now 6
      trace := .delay 6 :: s.trace } := by
  simp only [endRead, delay, advance, emit, Config.tPadHalf]

theorem SequencerInv.stepSample {s : State} (h : SequencerInv s) (hp : s.phase = .sample) :
    SequencerInv (stepSample s) := by
  obtain ⟨hkc, hkd⟩ := h.kbIdle (by simp [hp])
  have hlatch (hne : s.engine ≠ .latchHigh) : s.padLatch = false :=
    Bool.eq_false_iff.2 fun e => hne (h.latch_high e).2
  have hclk (hne : s.engine ≠ .clkHigh) : s.padClk = false :=
    Bool.eq_false_iff.2 fun e => hne (h.pad_clk_high e).2
  cases he : s.engine <;> simp only [Machine.stepSample, he]
  case latchHigh =>
    rw [lowerLatch_eq]
    exact .of_sample hp (by simp) (fun _ => rfl) (fun _ => hclk (by simp [he])) hkc hkd (fun _ => Nat.zero_le 7)
  case ready =>
    rw [readBit_eq]
    exact .of_sample hp (by simp) (fun _ => hlatch (by simp [he])) (fun e => absurd rfl e) hkc hkd
      (fun _ => h.sample_position hp (by simp [he]) (by simp [he]))
  case clkHigh =>
    rw [lowerPadClk_eq]
    exact .of_sample hp (by simp) (fun _ => hlatch (by simp [he])) (fun _ => rfl) hkc hkd
      (fun _ => h.sample_position hp (by simp [he]) (by simp [he]))
  case clkLow =>
    have hcnt := h.sample_position hp (by simp [he]) (by simp [he])
    have hl := hlatch (by simp [he])
    have hc := hclk (by simp [he])
    have read : PinsIdle (endRead s) := by rw [endRead_eq]; exact ⟨hl, hc, hkc, hkd⟩
    split
    case isTrue => exact .goto_of_pinsIdle read (by decide)
    case isFalse hne =>
      rw [endRead_eq] at hne ⊢
      have hcnt' := toNat_add_one_lt (by decide) (Nat.lt_succ_of_le hcnt) hne
      exact .of_sample hp (by simp) (fun _ => hl) (fun _ => hc) hkc hkd (fun _ => Nat.le_of_lt_succ hcnt')
  case off | dataOut | writing | saved =>
    exact .of_sample hp (by simp) (fun e => absurd rfl e) (fun _ => hclk (by simp [he])) hkc hkd
      (fun e => absurd rfl e)

/-! ### The other phases -/

/-- From the Select edge on the mode is that of the mask; what a phase adds to that is asked for. -/
theorem ModeInv.goto {s : State} {p : Phase} (hmode : s.cfg = selectPressed s.curMask)
    (haction : p = .config ∨ p = .debounce → s.cfg = true)
    (hscan : p = .store → s.btn = logicalButtons s.swapAB s.curMask) : ModeInv (goto p s) :=
  ⟨fun _ => hmode, haction, hscan⟩

/-- Outside SAMPLE, TX and DEBOUNCE no engine runs. -/
theorem SequencerInv.engine_off {s : State} (h : SequencerInv s)
    (hp : s.phase ≠ .sample ∧ s.phase ≠ .tx ∧ s.phase ≠ .debounce) : s.engine = .off := by
  obtain ⟨hs, ht, hd⟩ := hp
  simpa [hs, ht, hd] using h.engine_of_phase

theorem SequencerInv.stepDrain {s : State} (h : SequencerInv s) (hp : s.phase = .drain) :
    SequencerInv (stepDrain s) := by
  have read := (h.pinsIdle (by simp [hp])).kept (pinsKept_readNow s)
  unfold Machine.stepDrain
  simp only
  split <;> exact .goto_of_pinsIdle read (by decide)

theorem SequencerInv.execIdleWait {s t : State} (h : SequencerInv s) (hp : s.phase = .idleWait)
    (ht : execIdleWait s = .next t) : SequencerInv t := by
  have polled := (h.pinsIdle (by simp [hp])).kept (pinsKept_pollLines s)
  by_cases hi : (pollLines s).1 = (true, true)
  · rw [execIdleWait_of_idle hi, if_pos hp] at ht
    cases ht
    exact .goto_of_pinsIdle polled (by decide)
  · rw [execIdleWait_of_busy hi, if_pos hp] at ht
    cases ht
    have hphase : (pollLines s).2.phase = .idleWait := (keeps_pollLines s).phase_eq.trans hp
    have hengine : (pollLines s).2.engine = .off := by
      rw [pollLines_frame]
      exact h.engine_off (by simp [hp])
    exact .of_pinsIdle polled (.of_phase (by simp [hphase, beforeSelectEdge])) (.inl hengine)

theorem SequencerInv.stepSettle {s : State} (h : SequencerInv s) (hp : s.phase = .settle) :
    SequencerInv (stepSettle s) := by
  have settled : PinsKept s (consumeByte (delay Config.tSettle s)) := {}
  have stamped : PinsKept s (stampSend (consumeByte (delay Config.tSettle s))) :=
    settled.trans ((pinsKept_readNow _).trans {})
  exact .goto_of_pinsIdle ((h.pinsIdle (by simp [hp])).kept stamped) (by decide)

/-- After the Select edge `cfg` is selectPressed (R143 a). -/
theorem selectEdge_cfg (s : State) : (selectEdge s).cfg = selectPressed (selectEdge s).curMask := by
  obtain ⟨u, bs, hu, he⟩ := selectEdge_spec s
  rw [he, hu.frame.curMask_eq]

theorem SequencerInv.stepSelectEdge {s : State} (h : SequencerInv s) (hp : s.phase = .selectEdge) :
    SequencerInv (stepSelectEdge s) := by
  have edge := (h.pinsIdle (by simp [hp])).kept (pinsKept_selectEdge s)
  refine .of_pinsIdle (edge.kept {}) (.goto (selectEdge_cfg s) ?_ ?_) (.inl rfl)
  · cases (selectEdge s).cfg <;> simp
  · cases (selectEdge s).cfg <;> simp

theorem SequencerInv.stepConfig {s : State} (h : SequencerInv s) (hp : s.phase = .config) :
    SequencerInv (stepConfig s) := by
  have idle := h.pinsIdle (by simp [hp])
  have hmode := h.select_mode (.inl hp)
  unfold Machine.stepConfig
  split
  next a _ =>
    obtain ⟨hmask, hcfg⟩ := sameMode_applyAction a s
    exact .of_pinsIdle ((idle.kept (pinsKept_applyAction a s)).kept {})
      (.goto (by rw [hmask, hcfg, hmode]) (fun _ => hcfg.trans (h.action_mode (.inl hp))) (by simp)) (.inl rfl)
  next => exact .of_pinsIdle (idle.kept {}) (.goto hmode (by simp) (by simp)) (.inl rfl)

theorem SequencerInv.stepDebounce {s : State} (h : SequencerInv s) (hp : s.phase = .debounce) :
    SequencerInv (stepDebounce s) := by
  have idle := h.pinsIdle (by simp [hp])
  cases he : s.engine <;> simp only [Machine.stepDebounce, he]
  case writing =>
    rw [nvSave_eq]
    exact .of_pinsIdle (idle.kept {}) ⟨h.select_mode, h.action_mode, h.scanned⟩ (.inr ⟨hp, by simp⟩)
  case saved =>
    have ended := (idle.kept (t := delay Config.tDebounce s) {}).kept (pinsKept_endAction _)
    rw [endAction_eq] at ended ⊢
    exact .of_pinsIdle ended (.of_phase (by simp [beforeSelectEdge])) (.inl rfl)
  case off | latchHigh | ready | clkHigh | dataOut | clkLow =>
    exact .of_pinsIdle (idle.kept {}) ⟨h.select_mode, h.action_mode, h.scanned⟩ (.inr ⟨hp, by simp⟩)

/-- After EDGE_SCAN `btn` is the logical mask (R143 c). -/
theorem edgeScan_btn (m : Mask) (s : State) : (edgeScan m s).btn = logicalButtons (edgeScan m s).swapAB m := by
  obtain ⟨u, -, hu, he, -⟩ := edgeScan_spec m s
  rw [he, hu.swapAB_eq]

theorem SequencerInv.scan {s : State} (h : SequencerInv s) (hp : s.phase = .normal) :
    SequencerInv (Machine.goto .store (edgeScan s.curMask s)) := by
  obtain ⟨hmask, hcfg⟩ := sameMode_edgeScan s.curMask s
  have scanned := (h.pinsIdle (by simp [hp])).kept (pinsKept_edgeScan s.curMask s)
  refine .of_pinsIdle (scanned.kept {}) (.goto ?_ (by simp) fun _ => ?_) (.inl rfl)
  · rw [hmask, hcfg]
    exact h.select_mode (by simp [hp])
  · rw [hmask]
    exact edgeScan_btn s.curMask s

/-- A step of the sequencer, by its phase. -/
theorem SequencerInv.sequencerStep {s t : State} (h : SequencerInv s) (ht : sequencerStep s = .next t) :
    SequencerInv t := by
  unfold Machine.sequencerStep at ht
  cases hp : s.phase <;> rw [hp] at ht
  case resetLoad =>
    cases ht
    exact .goto_of_pinsIdle ((h.pinsIdle (by simp [hp])).kept (pinsKept_nvLoad s)) (by decide)
  case drain => cases ht; exact h.stepDrain hp
  case idleWait => exact h.execIdleWait hp ht
  case tx => exact h.stepTx hp ht
  case settle => cases ht; exact h.stepSettle hp
  case sample => cases ht; exact h.stepSample hp
  case selectEdge => cases ht; exact h.stepSelectEdge hp
  case config => cases ht; exact h.stepConfig hp
  case debounce => cases ht; exact h.stepDebounce hp
  case normal => cases ht; exact h.scan hp
  case store =>
    cases ht
    exact .goto_of_pinsIdle ((h.pinsIdle (by simp [hp])).kept {}) (by decide)

/-- RESET puts every pin to its idle level (R180). -/
theorem SequencerInv.assertReset (s : State) : SequencerInv (assertReset s) :=
  .goto_of_pinsIdle ⟨rfl, rfl, rfl, rfl⟩ (by decide)

/-! ### The script and the settings -/

/-- Between s and t neither the script nor the settings changed. -/
structure Steady (s t : State) : Prop where
  script_eq : t.script = s.script := by rfl
  profile_eq : t.profile = s.profile := by rfl
  swapAB_eq : t.swapAB = s.swapAB := by rfl

theorem Steady.trans {s t u : State} (h : Steady s t) (k : Steady t u) : Steady s u :=
  ⟨k.script_eq.trans h.script_eq, k.profile_eq.trans h.profile_eq, k.swapAB_eq.trans h.swapAB_eq⟩

theorem QueueOnly.steady {s t : State} (h : QueueOnly s t) : Steady s t := ⟨h.script_eq, h.profile_eq, h.swapAB_eq⟩

theorem steady_readNow (s : State) : Steady s (readNow s) := by
  rw [readNow_frame]
  exact {}

theorem steady_pollLines (s : State) : Steady s (pollLines s).2 := by
  rw [pollLines_frame]
  exact {}

theorem steady_selectEdge (s : State) : Steady s (selectEdge s) := by
  obtain ⟨u, bs, hu, he⟩ := selectEdge_spec s
  rw [he]
  exact hu.frame.steady.trans {}

theorem steady_edgeScan (m : Mask) (s : State) : Steady s (edgeScan m s) := by
  obtain ⟨u, -, hu, he, -⟩ := edgeScan_spec m s
  rw [he]
  exact hu.steady.trans {}

theorem steady_stepDrain (s : State) : Steady s (stepDrain s) := by
  unfold stepDrain
  simp only
  split <;> exact (steady_readNow s).trans {}

theorem steady_execIdleWait {s t : State} (hp : s.phase = .idleWait) (ht : execIdleWait s = .next t) : Steady s t := by
  by_cases hi : (pollLines s).1 = (true, true)
  · rw [execIdleWait_of_idle hi, if_pos hp] at ht
    cases ht
    exact (steady_pollLines s).trans {}
  · rw [execIdleWait_of_busy hi, if_pos hp] at ht
    cases ht
    exact steady_pollLines s

theorem steady_stepTx {s t : State} (ht : stepTx s = .next t) : Steady s t := by
  cases he : s.engine <;> simp only [stepTx, he] at ht
  case ready | dataOut => cases ht; exact {}
  case clkLow =>
    have turn : Steady s (endBit s) := by rw [endBit_eq]; exact {}
    cases ht
    split <;> exact turn.trans {}
  case off | latchHigh | clkHigh | writing | saved =>
    split at ht <;> cases ht
    exact {}

theorem steady_stepSample (s : State) : Steady s (stepSample s) := by
  cases he : s.engine <;> simp only [stepSample, he]
  case latchHigh => rw [lowerLatch_eq]; exact {}
  case ready => rw [readBit_eq]; exact {}
  case clkHigh => rw [lowerPadClk_eq]; exact {}
  case clkLow =>
    have turn : Steady s (endRead s) := by rw [endRead_eq]; exact {}
    split <;> exact turn.trans {}
  case off | dataOut | writing | saved => exact {}

theorem steady_stepDebounce (s : State) : Steady s (stepDebounce s) := by
  cases he : s.engine <;> simp only [stepDebounce, he]
  case writing => rw [nvSave_eq]; exact {}
  case saved => rw [endAction_eq]; exact {}
  case off | latchHigh | ready | clkHigh | dataOut | clkLow => exact {}

/-- A step of the sequencer changes the settings in RESET_LOAD and CONFIG only (R131 to R133, R151). -/
theorem sequencerStep_steady {s t : State} (hload : s.phase ≠ .resetLoad) (hconfig : s.phase ≠ .config)
    (ht : sequencerStep s = .next t) : Steady s t := by
  unfold sequencerStep at ht
  cases hp : s.phase <;> rw [hp] at ht
  case resetLoad => exact absurd hp hload
  case config => exact absurd hp hconfig
  case drain => cases ht; exact steady_stepDrain s
  case idleWait => exact steady_execIdleWait hp ht
  case tx => exact steady_stepTx ht
  case settle =>
    cases ht
    have settled : Steady s (consumeByte (delay Config.tSettle s)) := {}
    exact settled.trans ((steady_readNow _).trans {})
  case sample => cases ht; exact steady_stepSample s
  case selectEdge => cases ht; exact (steady_selectEdge s).trans {}
  case debounce => cases ht; exact steady_stepDebounce s
  case normal => cases ht; exact (steady_edgeScan _ s).trans {}
  case store => cases ht; exact {}

theorem stepConfig_script (s : State) : (stepConfig s).script = s.script := by
  unfold stepConfig
  split
  next a _ =>
    obtain ⟨u, bs, hu, he⟩ := applyAction_spec a s
    rw [goto_script, he]
    exact hu.frame.script_eq
  next => rfl

/-- The sequencer places no script word (log 6). -/
theorem sequencerStep_script {s t : State} (ht : sequencerStep s = .next t) : t.script = s.script := by
  by_cases hload : s.phase = .resetLoad
  · simp only [sequencerStep, hload, execNvLoad] at ht
    cases ht
    rw [goto_script, nvLoad_eq]
  · by_cases hconfig : s.phase = .config
    · simp only [sequencerStep, hconfig] at ht
      cases ht
      exact stepConfig_script s
    · exact (sequencerStep_steady hload hconfig ht).script_eq

theorem assertReset_script (s : State) : (assertReset s).script = s.script := by
  unfold assertReset interruptWrite
  split <;> rfl

/-- Settles O56: the reset input leaves every pin idle, and each phase keeps its part of the invariant. -/
theorem sequencerKeepsItsInvariant : Obligations.SequencerKeepsItsInvariant := by
  intro s t h hs ht
  cases hr : s.resetPin with
  | true =>
    have hreset : step s = .next (assertReset s) := if_pos hr
    obtain rfl := Host.Outcome.next.inj (hreset.symm.trans ht)
    exact ⟨.assertReset s, (assertReset_script s).trans hs⟩
  | false =>
    rw [step_of_quiet hr hs] at ht
    exact ⟨h.sequencerStep ht, (sequencerStep_script ht).trans hs⟩

/-- Settles O57: every phase but RESET_LOAD and CONFIG is steady, and in CONFIG the mode is on. -/
theorem settingsChangeOnlyInConfigMode : Obligations.SettingsChangeOnlyInConfigMode := by
  intro s t h hs hr ht hchange
  rw [step_of_quiet hr hs] at ht
  by_cases hload : s.phase = .resetLoad
  · exact .inl hload
  by_cases hconfig : s.phase = .config
  · exact .inr ⟨hconfig, h.action_mode (.inl hconfig)⟩
  have kept := sequencerStep_steady hload hconfig ht
  exact absurd hchange (by simp [kept.profile_eq, kept.swapAB_eq])

end Sys2Proof.Machine

/-! The Controller State Machine (R128 to R143): the releases and the actions as one equation each, EDGE_SCAN, DEBOUNCE in
its three steps, and the configuration dispatch. -/

namespace Sys2Proof.Machine

/-! ### RELEASE_ALL as one list of bytes -/

theorem enqueueAll_append (as bs : List Byte) (s : State) :
    enqueueAll (as ++ bs) s = enqueueAll bs (enqueueAll as s) := List.foldl_append

theorem enqueueAll_queueOnly (bs : List Byte) (s : State) : QueueOnly s (enqueueAll bs s) :=
  (enqueueAll_enqueuedInOrder bs s).frame

/-- A button that is not marked is passed over (R97). -/
theorem releaseButton_of_unmarked {p : Profile} {s : State} {i : Button} (h : s.btn[i.val] = false) :
    releaseButton p s i = s := by
  rw [releaseButton, if_neg (by simp [h])]

/-- The state with the marks v. -/
def setMarks (v : Vector Bool 8) (s : State) : State := { s with btn := v }

theorem unnoticed_setMarks (v : Vector Bool 8) : Unnoticed (setMarks v) := unnoticed_btn v

/-- A marked button's release bytes are enqueued and its mark is cleared (R97). -/
theorem releaseButton_of_marked {p : Profile} {s : State} {i : Button} (h : s.btn[i.val] = true) :
    releaseButton p s i =
      setMarks (s.btn.set i.val false) (enqueueAll (releaseBytes (lookupEntry s.params.lrom p i)) s) := by
  rw [releaseButton, if_pos h, encRelease_eq, setBtn, (enqueueAll_queueOnly _ s).btn_eq]
  rfl

/-- The bytes that RELEASE_ALL's turns over the buttons `l` attempt under profile p (R97). -/
def releaseListBytes (p : Profile) (l : List Button) (s : State) : List Byte :=
  (l.filter fun i => s.btn[i.val]).flatMap fun i => releaseBytes (lookupEntry s.params.lrom p i)

theorem releaseListBytes_cons_unmarked {p : Profile} {l : List Button} {i : Button} {s : State}
    (h : s.btn[i.val] = false) : releaseListBytes p (i :: l) s = releaseListBytes p l s := by
  simp only [releaseListBytes, List.filter_cons, h, Bool.false_eq_true, if_false]

theorem releaseListBytes_cons_marked {p : Profile} {l : List Button} {i : Button} {s : State}
    (h : s.btn[i.val] = true) : releaseListBytes p (i :: l) s =
      releaseBytes (lookupEntry s.params.lrom p i) ++ releaseListBytes p l s := by
  simp only [releaseListBytes, List.filter_cons, h, if_true, List.flatMap_cons]

/-- Clearing the mark of a button that is not listed does not change what is released. -/
theorem releaseListBytes_setMarks {p : Profile} {l : List Button} {i : Button} (hi : i ∉ l) {s u : State}
    (hq : QueueOnly s u) :
    releaseListBytes p l (setMarks (s.btn.set i.val false) u) = releaseListBytes p l s := by
  simp only [releaseListBytes, setMarks, hq.params_eq]
  congr 1
  refine List.filter_congr fun j hj => ?_
  have hij : i.val ≠ j.val := fun e => hi (Fin.ext e ▸ hj)
  simp only [Vector.getElem_set_ne _ _ hij]

/-- The turns over distinct buttons, apart from the marks they leave. -/
theorem foldl_releaseButton_eq (p : Profile) (l : List Button) (hl : l.Nodup) (s : State) :
    ∃ v, l.foldl (releaseButton p) s = setMarks v (enqueueAll (releaseListBytes p l s) s) := by
  induction l generalizing s with
  | nil => exact ⟨s.btn, rfl⟩
  | cons i l ih =>
    obtain ⟨hi, hl⟩ := List.nodup_cons.1 hl
    rw [List.foldl_cons]
    cases hb : s.btn[i.val] with
    | false =>
      rw [releaseButton_of_unmarked hb, releaseListBytes_cons_unmarked hb]
      exact ih hl s
    | true =>
      rw [releaseButton_of_marked hb, releaseListBytes_cons_marked hb, enqueueAll_append]
      obtain ⟨v, hv⟩ := ih hl (setMarks (s.btn.set i.val false)
        (enqueueAll (releaseBytes (lookupEntry s.params.lrom p i)) s))
      refine ⟨v, hv.trans ?_⟩
      rw [releaseListBytes_setMarks hi (enqueueAll_queueOnly _ s), (unnoticed_setMarks _).enqueueAll]
      rfl

/-- RELEASE_ALL enqueues the release bytes of the marked buttons and clears every mark (R97). -/
theorem releaseAll_eq (p : Profile) (s : State) :
    releaseAll p s = { enqueueAll (releaseAllBytes p s) s with btn := Vector.replicate 8 false } := by
  obtain ⟨v, hv⟩ := foldl_releaseButton_eq p buttons buttons_nodup s
  obtain ⟨u, -, hu⟩ := releaseAll_spec p s
  have hmarks : v = Vector.replicate 8 false := congrArg State.btn (hv.symm.trans hu)
  exact hv.trans (by rw [hmarks]; rfl)

/-- Settles O26: CFG_ENTER is RELEASE_ALL under the active profile, and the mode set. -/
theorem cfgEnterReleasesAndSetsMode : Obligations.CfgEnterReleasesAndSetsMode := by
  intro s
  refine ⟨_, enqueueAll_enqueuedInOrder _ s, ?_⟩
  rw [exec_cfgEnter, cfgEnter, releaseAll_eq]
  rfl

/-- Settles O27: the arm of CFG_EXIT is the statement. -/
theorem cfgExitOnlyClearsMode : Obligations.CfgExitOnlyClearsMode := fun s => exec_cfgExit s

/-! ### The configuration actions -/

/-- The bytes an action attempts: a layout change releases everything marked under the profile before it (R133). -/
def actionBytes (a : Action) (s : State) : List Byte :=
  match a with
  | .swapA | .swapB => []
  | .layout _ => releaseAllBytes s.profile s

theorem applyAction_eq (a : Action) (s : State) :
    applyAction a s =
      { enqueueAll (actionBytes a s) s with
        profile := actionProfile a s.profile
        swapAB := actionSwap a s.swapAB
        btn := actionBtn a s.btn } := by
  cases a with
  | swapA | swapB => rfl
  | layout n =>
    have hswap := (enqueueAll_queueOnly (releaseAllBytes s.profile s) s).swapAB_eq
    simp only [applyAction, releaseAll_eq, actionBytes, actionProfile, actionSwap, actionBtn, hswap]

/-- The settings byte an action saves (R131, R132, R133, R153). -/
def actionSettings (a : Action) (s : State) : Byte :=
  settingsByte (actionSwap a s.swapAB) (actionProfile a s.profile)

/-- A whole action (R131, R132, R133, R139, R140). -/
theorem runAction_eq (a : Action) (s : State) :
    runAction a s =
      { enqueueAll (actionBytes a s) s with
        profile := actionProfile a s.profile
        swapAB := actionSwap a s.swapAB
        btn := actionBtn a s.btn
        nv := Memory.write (some nvErased) s.nv s.params.nvAddr (actionSettings a s)
        now := timeAdd s.params.timeW (timeAdd s.params.timeW s.now s.params.tNvWrite) 300000
        prevMask := if s.params.cfgActionUpdatesPrev then s.curMask else s.prevMask
        phase := .drain
        engine := .off
        trace := .delay 300000 :: .delay s.params.tNvWrite :: .nvWrite (actionSettings a s) ::
          (enqueueAll (actionBytes a s) s).trace } := by
  have hq := enqueueAll_queueOnly (actionBytes a s) s
  rw [runAction, endAction_eq, debounce_eq, applyAction_eq]
  simp only [hq.params_eq, hq.nv_eq, hq.now_eq, hq.curMask_eq, hq.prevMask_eq, actionSettings]

/-- Settles O28: an action that changes the swap flag enqueues nothing. -/
theorem swapActionsForceAndSave : Obligations.SwapActionsForceAndSave := by
  intro s v _
  cases v with
  | false => exact (exec_cfgSwapA s).trans (congrArg _ (runAction_eq .swapA s))
  | true => exact (exec_cfgSwapB s).trans (congrArg _ (runAction_eq .swapB s))

/-- Settles O29: a layout change enqueues the releases under the profile before it. -/
theorem cfgLayoutReleasesUnderOldProfile : Obligations.CfgLayoutReleasesUnderOldProfile := by
  intro n s
  have hswap := (enqueueAll_queueOnly (releaseAllBytes s.profile s) s).swapAB_eq
  refine ⟨_, enqueueAll_enqueuedInOrder _ s, ?_⟩
  rw [exec_cfgLayout, runAction_eq]
  simp only [actionBytes, actionProfile, actionSwap, actionBtn, actionSettings, hswap]

/-! ### EDGE_SCAN -/

/-- Settles O21, by the fold of EDGE_SCAN's turns over the eight buttons. -/
theorem edgeScanEncodesEveryChange : Obligations.EdgeScanEncodesEveryChange := by
  intro m s
  obtain ⟨u, hrun, hq, he, hstored⟩ := edgeScan_spec m s
  exact ⟨u, hrun, hq, (exec_edgeScan m s).trans (by rw [he]; rfl), hstored⟩

/-- Settles O22: after EDGE_SCAN the marks are the logical mask, so a second one finds no change. -/
theorem edgeScanTwiceChangesNothing : Obligations.EdgeScanTwiceChangesNothing := by
  intro m s t h
  rw [exec_edgeScan] at h
  obtain rfl := Host.Outcome.next.inj h
  rw [exec_edgeScan, edgeScan_of_scanned m (goto .store (edgeScan m s)) (edgeScan_btn m s), goto_goto]

/-- The swap flag exchanges A and B (R136). -/
theorem logical_swap {m m' : Mask} (hA : m'.getLsbD 0 = m.getLsbD 1) (hB : m'.getLsbD 1 = m.getLsbD 0)
    (hrest : ∀ i, 2 ≤ i → m'.getLsbD i = m.getLsbD i) (i : Button) : logical true m i = logical false m' i := by
  unfold logical
  split
  case isTrue => exact congrArg not hA.symm
  case isFalse h0 =>
    split
    case isTrue => exact congrArg not hB.symm
    case isFalse h1 =>
      have hi : 2 ≤ i.val := by
        have h0 : i.val ≠ 0 := fun e => h0 (Fin.ext e)
        have h1 : i.val ≠ 1 := fun e => h1 (Fin.ext e)
        omega
      simp only [pressed, hrest i.val hi]

/-- Settles O23: the two scans make the same encoder calls, which do not look at the swap flag. -/
theorem swapExchangesPhysicalAAndB : Obligations.SwapExchangesPhysicalAAndB := by
  intro m m' s hA hB hrest
  have hlogical : logical true m = logical false m' := funext (logical_swap hA hB hrest)
  have hcalls : edgeCalls m { s with swapAB := true } = edgeCalls m' { s with swapAB := false } := by
    simp only [edgeCalls, hlogical]
  have hmarks : logicalButtons true m = logicalButtons false m' := by
    simp only [logicalButtons, hlogical]
  obtain ⟨u, hrun, -, hscan, -⟩ := edgeScan_spec m { s with swapAB := true }
  obtain ⟨u', hrun', hq, hscan', -⟩ := edgeScan_spec m' { s with swapAB := false }
  obtain ⟨w, hw, hwswap⟩ := (unnoticed_swap true).runAll (edgeCalls m' { s with swapAB := false })
    (edgeCalls_encoder m' _) { s with swapAB := false }
  obtain rfl : u' = w := Host.Outcome.next.inj (hrun'.symm.trans hw)
  obtain rfl : u = { u' with swapAB := true } := Host.Outcome.next.inj (hrun.symm.trans (hcalls ▸ hwswap))
  have hclear : u'.swapAB = false := hq.swapAB_eq
  refine ⟨{ u' with btn := logicalButtons true m, phase := .store, engine := .off }, ?_, ?_⟩
  · rw [exec_edgeScan, hscan]
    rfl
  · rw [exec_edgeScan, hscan', hmarks, ← hclear]
    rfl

/-! ### STORE_PREV, NV_SAVE and DEBOUNCE -/

/-- Settles O30, by the equations of the three operations. -/
theorem storeSaveAndDebounceEffects : Obligations.StoreSaveAndDebounceEffects := by
  intro m s saved
  refine ⟨exec_storePrev m s, (exec_nvSave s).trans (congrArg _ (nvSave_eq s)), ?_⟩
  rw [exec_debounce, debounce_eq]
  rfl

/-- DEBOUNCE: the settings write begins (R139, R180; log 22). -/
theorem step_beginWrite {s : State} (h : At .debounce .off s) : step s = .next { s with engine := .writing } := by
  rw [h.step_eq]
  simp only [sequencerStep, h.phase, stepDebounce, h.engine]

/-- DEBOUNCE: the settings byte is stored (R139, R153). -/
theorem step_storeSettings {s : State} (h : At .debounce .writing s) :
    step s = .next { nvSave s with engine := .saved } := by
  rw [h.step_eq]
  simp only [sequencerStep, h.phase, stepDebounce, h.engine]

/-- DEBOUNCE: the delay ends the cycle (R139, R140). -/
theorem step_endDelay {s : State} (h : At .debounce .saved s) :
    step s = .next (endAction (delay Config.tDebounce s)) := by
  rw [h.step_eq]
  simp only [sequencerStep, h.phase, stepDebounce, h.engine]

/-- RESET leaves the store alone where no settings write is in progress (R180). -/
theorem assertReset_nv {s : State} (h : ¬(s.phase = .debounce ∧ s.engine = .writing)) : (assertReset s).nv = s.nv := by
  have hskip : interruptWrite { s with resetPin := false } = { s with resetPin := false } := by
    rw [interruptWrite, if_neg (by simpa using h)]
  rw [assertReset, hskip]
  rfl

/-- Settles O31: the three steps of the phase, and RESET in the third position. -/
theorem debounceStoresThenWaits : Obligations.DebounceStoresThenWaits := by
  intro s hr hs hp he
  have begun : At .debounce .writing { s with engine := .writing } := ⟨⟨hr, hs⟩, hp, rfl⟩
  have stored : At .debounce .saved { nvSave { s with engine := .writing } with engine := .saved } := by
    rw [nvSave_eq]
    exact ⟨⟨hr, hs⟩, hp, rfl⟩
  refine ⟨_, _, step_beginWrite ⟨⟨hr, hs⟩, hp, he⟩, rfl, step_storeSettings begun, ?_, rfl,
    ⟨_, exec_debounce s, (step_endDelay stored).trans ?_⟩, _, if_pos rfl, assertReset_nv (by simp)⟩
  · rw [exec_nvSave, nvSave_eq, nvSave_eq, ← he]
  · rw [endAction_eq, nvSave_eq, debounce_eq]
    rfl

/-! ### The configuration dispatch -/

/-- Settles O32, along the chain of the dispatch: the first fresh button decides. -/
theorem configDispatchPriority : Obligations.ConfigDispatchPriority := by
  intro m p
  unfold configAction
  cases fresh m p 0 with
  | true => simp
  | false =>
    cases fresh m p 1 with
    | true => simp
    | false =>
      cases fresh m p 5 with
      | true => simp [eq_comm (a := 0#2)]
      | false =>
        cases fresh m p 6 with
        | true => simp [eq_comm (a := 1#2)]
        | false =>
          cases fresh m p 7 with
          | true => simp [eq_comm (a := 2#2)]
          | false => cases fresh m p 4 <;> simp [eq_comm (a := 3#2)]

end Sys2Proof.Machine

/-! Whole cycles (R125 to R143, R190): what the producer side of steps 3 to 6 adds to the queue, the cycle as a whole from
the state that DRAIN leaves, and a second cycle with the same button held. -/

namespace Sys2Proof.Machine

/-! ### What encoder calls produce -/

theorem SameQueue.refl (s : State) : SameQueue s s := ⟨rfl, rfl, rfl⟩

theorem SameQueue.symm {s t : State} (h : SameQueue s t) : SameQueue t s :=
  ⟨h.qram_eq.symm, h.head_eq.symm, h.tail_eq.symm⟩

/-- A call of the encoder (R90, R91). -/
def EncoderCalls (cs : List Instr) : Prop := ∀ c ∈ cs, ∃ e, c = .encPress e ∨ c = .encRelease e

theorem EncoderCalls.append {as bs : List Instr} (ha : EncoderCalls as) (hb : EncoderCalls bs) :
    EncoderCalls (as ++ bs) :=
  fun c hc => (List.mem_append.1 hc).elim (ha c) (hb c)

/-- Encoder calls look at the queue alone (R99 a). -/
theorem SameQueue.runAll {cs : List Instr} (hcs : EncoderCalls cs) {s t u : State} (h : SameQueue s t)
    (hu : runAll cs s = .next u) : ∃ v, Machine.runAll cs t = .next v ∧ SameQueue u v := by
  induction cs generalizing s t with
  | nil => cases hu; exact ⟨t, rfl, h⟩
  | cons c cs ih =>
    have hrest : EncoderCalls cs := fun d hd => hcs d (List.mem_cons_of_mem c hd)
    obtain ⟨e, rfl | rfl⟩ := hcs c List.mem_cons_self
    · exact ih hrest (h.encPress e) hu
    · exact ih hrest (h.encRelease e) hu

/-- From s to t the producer side did exactly what the encoder calls `cs` do, and where there was room it stored exactly
`bs` behind the resident bytes. -/
structure Produces (cs : List Instr) (bs : List Byte) (s t : State) : Prop where
  encoder : EncoderCalls cs
  calls : ∃ u, runAll cs s = .next u ∧ SameQueue u t
  bytes : bs.length ≤ free s → resident t = resident s ++ bs.map some

/-- Producing does not look beyond the queue. -/
theorem Produces.congr {cs : List Instr} {bs : List Byte} {s t s' t' : State} (h : Produces cs bs s t)
    (hs : SameQueue s s') (ht : SameQueue t t') : Produces cs bs s' t' where
  encoder := h.encoder
  calls := by
    obtain ⟨u, hu, hut⟩ := h.calls
    obtain ⟨v, hv, huv⟩ := hs.runAll h.encoder hu
    exact ⟨v, hv, huv.symm.trans (hut.trans ht)⟩
  bytes hroom := by
    rw [ht.resident_eq, hs.resident_eq]
    exact h.bytes (hs.free_eq ▸ hroom)

theorem Produces.nil (s : State) : Produces [] [] s s :=
  ⟨List.forall_mem_nil _, ⟨s, rfl, .refl s⟩, fun _ => by simp⟩

theorem length_resident (s : State) : (resident s).length = count s := by
  rw [resident, List.length_map, List.length_range]

/-- What was produced with room is taken from the free slots. -/
theorem Produces.free_eq {cs : List Instr} {bs : List Byte} {s t : State} (h : Produces cs bs s t)
    (hroom : bs.length ≤ free s) : free t = free s - bs.length := by
  have hcount := congrArg List.length (h.bytes hroom)
  rw [List.length_append, List.length_map, length_resident, length_resident] at hcount
  unfold free
  omega

theorem Produces.append {as bs : List Instr} {xs ys : List Byte} {s t u : State} (h : Produces as xs s t)
    (k : Produces bs ys t u) : Produces (as ++ bs) (xs ++ ys) s u where
  encoder := h.encoder.append k.encoder
  calls := by
    obtain ⟨v, hv, hvt⟩ := h.calls
    obtain ⟨w, hw, hwu⟩ := k.calls
    obtain ⟨x, hx, hwx⟩ := hvt.symm.runAll k.encoder hw
    exact ⟨x, (runAll_append as bs hv).trans hx, hwx.symm.trans hwu⟩
  bytes hroom := by
    rw [List.length_append] at hroom
    have hfree := h.free_eq (by omega)
    rw [k.bytes (by omega), h.bytes (by omega), List.map_append, List.append_assoc]

/-! ### What the steps of a cycle produce -/

/-- The releases RELEASE_ALL makes are those of its marked buttons (R97). -/
theorem runAll_releases (es : List Entry) (s : State) :
    runAll (es.map .encRelease) s = .next (enqueueAll (es.flatMap releaseBytes) s) := by
  induction es generalizing s with
  | nil => rfl
  | cons e es ih =>
    rw [List.map_cons, List.flatMap_cons, enqueueAll_append, ← encRelease_eq]
    exact ih (encRelease e s)

theorem produces_releases (p : Profile) (s : State) :
    Produces (releaseCalls p s) (releaseAllBytes p s) s (enqueueAll (releaseAllBytes p s) s) := by
  have hcalls : releaseCalls p s =
      ((buttons.filter fun i => s.btn[i.val]).map (lookupEntry s.params.lrom p)).map .encRelease := by
    rw [List.map_map]
    rfl
  have hbytes : releaseAllBytes p s =
      ((buttons.filter fun i => s.btn[i.val]).map (lookupEntry s.params.lrom p)).flatMap releaseBytes := by
    rw [List.flatMap_map]
    rfl
  refine ⟨fun c hc => ?_, ⟨_, ?_, .refl _⟩, fun hroom => ?_⟩
  · obtain ⟨i, -, rfl⟩ := List.mem_map.1 hc
    exact ⟨_, .inr rfl⟩
  · rw [hcalls, hbytes]
    exact runAll_releases _ s
  · exact resident_of_stored ((enqueueAll_enqueuedInOrder _ s).stored hroom) hroom

theorem produces_edgeScan (m : Mask) (s : State) : Produces (edgeCalls m s) (edgeBytes m s) s (edgeScan m s) := by
  obtain ⟨u, hrun, -, he, hstored⟩ := edgeScan_spec m s
  have hu : SameQueue u (edgeScan m s) := by
    rw [he]
    exact ⟨rfl, rfl, rfl⟩
  exact ⟨edgeCalls_encoder m s, ⟨u, hrun, hu⟩, fun hroom => by
    rw [hu.resident_eq]
    exact resident_of_stored (hstored hroom) hroom⟩

/-- The calls of the Select edge: at configuration entry everything marked is released (R128). -/
def entryCalls (m : Mask) (s : State) : List Instr :=
  if selectPressed m && !s.cfg then releaseCalls s.profile s else []

/-- The bytes of the Select edge (R128). -/
def entryBytes (m : Mask) (s : State) : List Byte :=
  if selectPressed m && !s.cfg then releaseAllBytes s.profile s else []

/-- The Select edge: the mode becomes selectPressed, and configuration entry releases everything (R128, R129). -/
theorem selectEdge_eq (s : State) : selectEdge s =
    { enqueueAll (entryBytes s.curMask s) s with btn := entryBtn s.curMask s, cfg := selectPressed s.curMask } := by
  unfold selectEdge entryBytes entryBtn
  cases hp : selectPressed s.curMask <;> cases hc : s.cfg <;>
    simp only [Bool.not_true, Bool.not_false, Bool.and_true, Bool.and_false, Bool.false_eq_true, if_true, if_false]
  case false.false | true.true => rw [← hc]; rfl
  case false.true => rfl
  case true.false => rw [cfgEnter, releaseAll_eq]

theorem produces_selectEdge (s : State) :
    Produces (entryCalls s.curMask s) (entryBytes s.curMask s) s (selectEdge s) := by
  rw [selectEdge_eq]
  unfold entryCalls entryBytes
  split
  · exact (produces_releases s.profile s).congr (.refl s) ⟨rfl, rfl, rfl⟩
  · exact (Produces.nil s).congr (.refl s) ⟨rfl, rfl, rfl⟩

/-- The calls of an action (R131, R132, R133). -/
def actionCalls (a : Action) (s : State) : List Instr :=
  match a with
  | .swapA | .swapB => []
  | .layout _ => releaseCalls s.profile s

theorem produces_runAction (a : Action) (s : State) :
    Produces (actionCalls a s) (actionBytes a s) s (runAction a s) := by
  rw [runAction_eq]
  cases a with
  | swapA | swapB => exact (Produces.nil s).congr (.refl s) ⟨rfl, rfl, rfl⟩
  | layout n => exact (produces_releases s.profile s).congr (.refl s) ⟨rfl, rfl, rfl⟩


/-! ### Steps 3 to 6 of a cycle -/

/-- The Select edge changes the mode, at configuration entry the marks, and the queue (R128, R129). -/
theorem selectEdge_frame (s : State) : selectEdge s =
    { s with
      btn := entryBtn s.curMask s
      cfg := selectPressed s.curMask
      qram := (selectEdge s).qram
      head := (selectEdge s).head
      trace := (selectEdge s).trace } := by
  have hq := enqueueAll_queueOnly (entryBytes s.curMask s) s
  unfold QueueOnly at hq
  rw [selectEdge_eq, hq]

/-- Where the cycle fires an action, it is steps 4 to 6 (R130, R140). -/
theorem steps4to6_of_action {s : State} {a : Action} (hmode : s.cfg = selectPressed s.curMask)
    (h : cycleAction s.curMask s = some a) : steps4to6 s = runAction a s := by
  unfold cycleAction at h
  split at h
  next hpressed => simp only [steps4to6, hmode, hpressed, if_true, h]
  next => cases h

/-- Where it fires none, EDGE_SCAN and STORE_PREV are (R135, R137, R138). -/
theorem steps4to6_of_scan {s : State} (hmode : s.cfg = selectPressed s.curMask)
    (h : cycleAction s.curMask s = none) :
    steps4to6 s = goto .drain (storePrev s.curMask (edgeScan s.curMask s)) := by
  unfold cycleAction at h
  split at h
  next hpressed => simp only [steps4to6, hmode, hpressed, if_true, h]
  next hreleased => simp only [steps4to6, hmode, hreleased, if_false, Bool.false_eq_true]

/-- The Select edge leaves what the dispatch looks at (R130). -/
theorem cycleAction_selectEdge (s : State) :
    cycleAction (selectEdge s).curMask (selectEdge s) = cycleAction s.curMask s := by
  rw [selectEdge_frame]
  rfl

theorem afterEdge_of_action {s : State} {a : Action} (h : cycleAction s.curMask s = some a) :
    steps4to6 (selectEdge s) = runAction a (selectEdge s) :=
  steps4to6_of_action (selectEdge_cfg s) ((cycleAction_selectEdge s).trans h)

theorem afterEdge_of_scan {s : State} (h : cycleAction s.curMask s = none) :
    steps4to6 (selectEdge s) =
      goto .drain (storePrev s.curMask (edgeScan s.curMask (selectEdge s))) := by
  have hmask : (selectEdge s).curMask = s.curMask := by rw [selectEdge_frame]
  rw [steps4to6_of_scan (selectEdge_cfg s) ((cycleAction_selectEdge s).trans h), hmask]

/-- The calls and the bytes of a cycle are those of the Select edge and then those of the action or of EDGE_SCAN (R125). -/
theorem produces_afterEdge (s : State) :
    Produces (cycleCalls s.curMask s) (cycleBytes s.curMask s) s (steps4to6 (selectEdge s)) := by
  have edge := produces_selectEdge s
  cases h : cycleAction s.curMask s with
  | none =>
    have scan := produces_edgeScan s.curMask (selectEdge s)
    have hcalls : cycleCalls s.curMask s = entryCalls s.curMask s ++ edgeCalls s.curMask (selectEdge s) := by
      simp only [cycleCalls, h]
      rw [selectEdge_frame]
      rfl
    have hbytes : cycleBytes s.curMask s = entryBytes s.curMask s ++ edgeBytes s.curMask (selectEdge s) := by
      simp only [cycleBytes, h]
      rw [selectEdge_frame]
      rfl
    rw [hcalls, hbytes, afterEdge_of_scan h]
    exact edge.append (scan.congr (.refl _) ⟨rfl, rfl, rfl⟩)
  | some a =>
    have hcalls : cycleCalls s.curMask s = entryCalls s.curMask s ++ actionCalls a (selectEdge s) := by
      simp only [cycleCalls, h]
      rw [selectEdge_frame]
      cases a <;> rfl
    have hbytes : cycleBytes s.curMask s = entryBytes s.curMask s ++ actionBytes a (selectEdge s) := by
      simp only [cycleBytes, h]
      rw [selectEdge_frame]
      cases a <;> rfl
    rw [hcalls, hbytes, afterEdge_of_action h]
    exact edge.append (produces_runAction a _)

/-- A cycle without an action (R137, R138, R143 b, c). -/
theorem afterEdge_scanned {s : State} (h : cycleAction s.curMask s = none) :
    steps4to6 (selectEdge s) =
      { s with
        btn := logicalButtons s.swapAB s.curMask
        prevMask := s.curMask
        cfg := selectPressed s.curMask
        phase := .drain
        engine := .off
        qram := (steps4to6 (selectEdge s)).qram
        head := (steps4to6 (selectEdge s)).head
        trace := (steps4to6 (selectEdge s)).trace } := by
  obtain ⟨u, -, hq, he, -⟩ := edgeScan_spec s.curMask (selectEdge s)
  unfold QueueOnly at hq
  rw [afterEdge_of_scan h, he, hq, selectEdge_frame]
  rfl

/-- A cycle with an action (R131 to R133, R139, R140). -/
theorem afterEdge_acted {s : State} {a : Action} (h : cycleAction s.curMask s = some a) :
    steps4to6 (selectEdge s) =
      { s with
        btn := actionBtn a (entryBtn s.curMask s)
        profile := actionProfile a s.profile
        swapAB := actionSwap a s.swapAB
        cfg := selectPressed s.curMask
        nv := Memory.write (some nvErased) s.nv s.params.nvAddr (actionSettings a s)
        now := timeAdd s.params.timeW (timeAdd s.params.timeW s.now s.params.tNvWrite) 300000
        prevMask := if s.params.cfgActionUpdatesPrev then s.curMask else s.prevMask
        phase := .drain
        engine := .off
        qram := (steps4to6 (selectEdge s)).qram
        head := (steps4to6 (selectEdge s)).head
        trace := .delay 300000 :: .delay s.params.tNvWrite :: .nvWrite (actionSettings a s) ::
          (enqueueAll (actionBytes a (selectEdge s)) (selectEdge s)).trace } := by
  have hq := enqueueAll_queueOnly (actionBytes a (selectEdge s)) (selectEdge s)
  unfold QueueOnly at hq
  rw [afterEdge_of_action h, runAction_eq, hq, selectEdge_frame]
  rfl


theorem grows_runAction (a : Action) (s : State) : Grows s (runAction a s) :=
  ((grows_applyAction a s).trans (silent_debounce _).grows).trans (silent_endAction _).grows

/-- Steps 3 to 6 transmit nothing and leave `tail` (R41, R125). -/
theorem grows_afterEdge (s : State) : Grows s (steps4to6 (selectEdge s)) := by
  refine (grows_selectEdge s).trans ?_
  cases h : cycleAction s.curMask s with
  | none =>
    rw [afterEdge_of_scan h]
    exact ((grows_edgeScan _ _).trans (silent_storePrev _ _).grows).trans (silent_goto _ _).grows
  | some a =>
    rw [afterEdge_of_action h]
    exact grows_runAction a _

/-! ### A cycle from the state that DRAIN leaves -/

/-- Between s and t the registers are the same that steps 3 to 6 of a cycle look at, but for the sampled mask. -/
structure SameRegisters (s t : State) : Prop where
  prevMask_eq : t.prevMask = s.prevMask := by rfl
  btn_eq : t.btn = s.btn := by rfl
  profile_eq : t.profile = s.profile := by rfl
  swapAB_eq : t.swapAB = s.swapAB := by rfl
  cfg_eq : t.cfg = s.cfg := by rfl
  head_eq : t.head = s.head := by rfl
  qram_eq : t.qram = s.qram := by rfl
  nv_eq : t.nv = s.nv := by rfl
  params_eq : t.params = s.params := by rfl

theorem SameRegisters.trans {s t u : State} (h : SameRegisters s t) (k : SameRegisters t u) : SameRegisters s u where
  prevMask_eq := k.prevMask_eq.trans h.prevMask_eq
  btn_eq := k.btn_eq.trans h.btn_eq
  profile_eq := k.profile_eq.trans h.profile_eq
  swapAB_eq := k.swapAB_eq.trans h.swapAB_eq
  cfg_eq := k.cfg_eq.trans h.cfg_eq
  head_eq := k.head_eq.trans h.head_eq
  qram_eq := k.qram_eq.trans h.qram_eq
  nv_eq := k.nv_eq.trans h.nv_eq
  params_eq := k.params_eq.trans h.params_eq

theorem sameRegisters_readNow (s : State) : SameRegisters s (readNow s) := by
  rw [readNow_frame]
  exact {}

theorem sameRegisters_pollLines (s : State) : SameRegisters s (pollLines s).2 := by
  rw [pollLines_frame]
  exact {}

theorem sameRegisters_txByte (b : Byte) (s : State) : SameRegisters s (txByte b s) := by
  rw [txByte_eq]
  exact {}

theorem sameRegisters_stampSend (s : State) : SameRegisters s (stampSend s) := (sameRegisters_readNow s).trans {}

theorem sameRegisters_sample (s : State) : SameRegisters s (sample s) := by
  obtain ⟨m, -, he⟩ := sample_frame s
  rw [he]
  exact {}

section
variable {s t : State} (h : SameRegisters s t) (m : Mask)
include h

theorem SameRegisters.entryBtn_eq : entryBtn m t = entryBtn m s := by
  simp only [entryBtn, h.cfg_eq, h.btn_eq]

theorem SameRegisters.cycleAction_eq : cycleAction m t = cycleAction m s := by
  simp only [cycleAction, h.prevMask_eq]

theorem SameRegisters.cycleCalls_eq : cycleCalls m t = cycleCalls m s := by
  simp only [cycleCalls, h.entryBtn_eq, h.cycleAction_eq, releaseCalls, edgeCalls, h.cfg_eq, h.btn_eq, h.profile_eq,
    h.swapAB_eq, h.params_eq]

theorem SameRegisters.cycleBytes_eq : cycleBytes m t = cycleBytes m s := by
  simp only [cycleBytes, h.entryBtn_eq, h.cycleAction_eq, releaseAllBytes, edgeBytes, h.cfg_eq, h.btn_eq, h.profile_eq,
    h.swapAB_eq, h.params_eq]

end

/-- At most one byte has left, and it is the oldest resident one (R109). -/
def SentOldest (s t : State) : Prop :=
  (t.tail = s.tail ∧ sentBytes t = sentBytes s) ∨
    (s.head ≠ s.tail ∧ t.tail = s.tail + 1 ∧ ∃ b, qramRead s s.tail = some b ∧ sentBytes t = sentBytes s ++ [b])

theorem SentOldest.congr {s t u : State} (h : SentOldest s t) (htail : u.tail = t.tail)
    (hsent : sentBytes u = sentBytes t) : SentOldest s u := by
  simpa only [SentOldest, htail, hsent] using h

/-- Steps 3 to 6 leave the sampled mask (R24). -/
theorem afterEdge_curMask (s : State) : (steps4to6 (selectEdge s)).curMask = s.curMask := by
  obtain ⟨-, hmask, -⟩ := steps4to6_ends (selectEdge s)
  rw [hmask, selectEdge_frame]

/-- Steps 3 to 6 end a cycle that began at s and has sampled its mask in v. -/
theorem cycleEnds_afterEdge {s v : State} (h : SameRegisters s v) (hsent : SentOldest s v) :
    CycleEnds s (steps4to6 (selectEdge v)) := by
  have grows := grows_afterEdge v
  obtain ⟨hphase, -, hcfg⟩ := steps4to6_ends (selectEdge v)
  have hmask := afterEdge_curMask v
  have hqueue : SameQueue v { s with tail := (steps4to6 (selectEdge v)).tail } :=
    ⟨h.qram_eq.symm, h.head_eq.symm, grows.tail_eq⟩
  have produced := (produces_afterEdge v).congr hqueue (.refl _)
  rw [h.cycleCalls_eq, h.cycleBytes_eq] at produced
  refine ⟨hphase, ?_, ?_, ?_, ?_, ?_, hsent.congr grows.tail_eq grows.sent_eq⟩
  · rw [hmask, hcfg, selectEdge_frame]
  · intro hnone
    rw [hmask, ← h.cycleAction_eq] at hnone
    rw [afterEdge_scanned hnone]
    exact ⟨by rw [h.swapAB_eq], rfl, h.profile_eq, h.swapAB_eq, h.nv_eq⟩
  · intro a ha
    rw [hmask, ← h.cycleAction_eq] at ha
    have acted := afterEdge_acted ha
    have hprofile : (steps4to6 (selectEdge v)).profile = actionProfile a s.profile := by rw [acted, h.profile_eq]
    have hswap : (steps4to6 (selectEdge v)).swapAB = actionSwap a s.swapAB := by rw [acted, h.swapAB_eq]
    have hparams : (steps4to6 (selectEdge v)).params = s.params := by rw [acted, h.params_eq]
    have hnv : (steps4to6 (selectEdge v)).nv = Memory.write (some nvErased) s.nv s.params.nvAddr
        (settingsByte (actionSwap a s.swapAB) (actionProfile a s.profile)) := by
      rw [acted, h.nv_eq, h.params_eq, actionSettings, h.swapAB_eq, h.profile_eq]
    rw [hmask, hprofile, hswap, hparams]
    refine ⟨by rw [acted, h.entryBtn_eq], rfl, rfl, hnv, nvByteAt_settings _ _ _ hnv, ?_⟩
    rw [acted, h.params_eq, h.prevMask_eq]
  · rw [hmask]
    obtain ⟨u, hu, hq⟩ := produced.calls
    exact ⟨u, hu, hq.qram_eq, hq.head_eq⟩
  · rw [hmask]
    exact produced.bytes

/-! ### DRAIN before it -/

/-- From s to u a DRAIN has completed: what the rest of the cycle looks at is unchanged, the levels to come included, and
at most the oldest byte has left. -/
structure Drained (s u : State) : Prop extends SameRegisters s u where
  padIn_eq : u.padIn = s.padIn
  sent : SentOldest s u

/-- A completed DRAIN is followed by a whole cycle (R125). -/
theorem Drained.cycleEnds {s u : State} (h : Drained s u) : CycleEnds s (afterDrain u) :=
  have sampled := silent_sample u
  cycleEnds_afterEdge (h.toSameRegisters.trans (sameRegisters_sample u))
    (h.sent.congr sampled.tail_eq sampled.sent_eq)

/-- What DRAIN does before it looks at the lines or behind a closed gate. -/
theorem drained_of_silent {s u : State} (h : SameRegisters s u) (k : Silent s u) (hpad : u.padIn = s.padIn) :
    Drained s u :=
  ⟨h, hpad, .inl ⟨k.tail_eq, k.sent_eq⟩⟩

/-- Sending the byte at `tail` of a queue that is not empty (R109, R115, R116). -/
theorem drained_of_sent {s : State} {b : Byte} (hne : s.head ≠ s.tail) (hb : qramRead s s.tail = some b) :
    Drained s (goto .sample (stampSend (consumeByte (txByte b s)))) where
  toSameRegisters :=
    have consumed : SameRegisters s (consumeByte (txByte b s)) := (sameRegisters_txByte b s).trans {}
    (consumed.trans (sameRegisters_stampSend _)).trans {}
  padIn_eq := by rw [goto_padIn, padIn_stampSend, padIn_consumeByte, padIn_txByte]
  sent := .inr ⟨hne, tail_stampSend_txByte b s, b, hb,
    (silent_goto _ _).sent_eq.trans (sentBytes_stampSend_txByte b s)⟩

/-- Reading the time and the lines first changes nothing of this. -/
theorem Drained.after_poll {s u : State} (h : Drained (pollLines (readNow s)).2 u) : Drained s u := by
  have polled := (silent_readNow s).trans (silent_pollLines _)
  have hslot (b : Byte) (hb : qramRead (pollLines (readNow s)).2 s.tail = some b) : qramRead s s.tail = some b :=
    (qramRead_pollLines_readNow s s.tail).symm.trans hb
  refine ⟨((sameRegisters_readNow s).trans (sameRegisters_pollLines _)).trans h.toSameRegisters, ?_, ?_⟩
  · rw [h.padIn_eq, padIn_pollLines, padIn_readNow]
  · have hsent := h.sent
    simp only [SentOldest, polled.head_eq, polled.tail_eq, polled.sent_eq] at hsent
    exact hsent.imp_right fun ⟨hne, htail, b, hb, hbytes⟩ => ⟨hne, htail, b, hslot b hb, hbytes⟩

/-- DRAIN that is not held completes, and a byte leaves exactly when the gate is open (R109, R110). -/
theorem drain_drained {s u : State} (h : drain s = .next u) (hfree : u.phase ≠ .idleWait) :
    u.phase = .sample ∧ Drained s u ∧ u.tail = if gateOpen (readNow s) then s.tail + 1 else s.tail := by
  cases hgate : gateOpen (readNow s) with
  | false =>
    obtain rfl := Host.Outcome.next.inj ((drain_of_closed hgate).symm.trans h)
    have read := (silent_readNow s).trans (silent_goto .sample _)
    exact ⟨rfl, drained_of_silent ((sameRegisters_readNow s).trans {}) read (padIn_readNow s), read.tail_eq⟩
  | true =>
    have polled := (silent_readNow s).trans (silent_pollLines _)
    have hne : (pollLines (readNow s)).2.head ≠ (pollLines (readNow s)).2.tail := by
      rw [polled.head_eq, polled.tail_eq]
      exact ((gateOpen_readNow_iff s).1 hgate).1
    by_cases hidle : (pollLines (readNow s)).1 = (true, true)
    · cases hb : qramRead s s.tail with
      | none => cases (drain_of_unwritten hgate hidle hb).symm.trans h
      | some b =>
        obtain rfl := Host.Outcome.next.inj ((drain_of_idle hgate hidle hb).symm.trans h)
        rw [← qramRead_pollLines_readNow, ← tail_pollLines_readNow] at hb
        refine ⟨rfl, (drained_of_sent hne hb).after_poll, ?_⟩
        rw [if_pos rfl, goto_tail, tail_stampSend_txByte, tail_pollLines_readNow]
    · obtain rfl := Host.Outcome.next.inj ((drain_of_busy hgate hidle).symm.trans h)
      exact absurd rfl hfree

/-- Settles O44: DRAIN completes, and the cycle ends from the state it leaves. -/
theorem cycleCompletesAndFollowsTheMask : Obligations.CycleCompletesAndFollowsTheMask := by
  intro s hi hp hg
  obtain ⟨u, hu, hphase, -⟩ := hi.core.drain_completes hg
  obtain ⟨-, drained, htail⟩ := drain_drained hu (by simp [hphase])
  refine ⟨afterDrain u, ?_, drained.cycleEnds, ?_⟩
  · rw [exec_cycle, cycle_of_drain hp, hu, completeCycle_of_sample hphase]
  · rw [afterDrain, (grows_afterEdge _).tail_eq, (silent_sample u).tail_eq, htail]

/-! ### A button held in configuration mode -/

/-- A cycle from phase DRAIN that ends there was not held (R125, R164). -/
theorem cycle_completed {s t : State} (hp : s.phase = .drain) (h : cycle s = .next t) (ht : t.phase = .drain) :
    ∃ u, drain s = .next u ∧ Drained s u ∧ t = afterDrain u := by
  rw [cycle_of_drain hp] at h
  cases hd : drain s with
  | next u =>
    rw [hd] at h
    obtain rfl := Host.Outcome.next.inj h
    by_cases hheld : u.phase = .idleWait
    · rw [if_pos hheld, hheld] at ht
      cases ht
    · exact ⟨u, rfl, (drain_drained hd hheld).2.1, if_neg hheld⟩
  | fault r => rw [hd] at h; cases h
  | refused r => rw [hd] at h; cases h

/-- A completed mask row has sampled its mask, in a state v from which steps 3 to 6 followed (R50, R64, R125). -/
theorem maskRow_completed {s t : State} {k : Button} {m : Mask} (hp : s.phase = .drain)
    (h : exec (maskRow k m) s = .next t) (ht : t.phase = .drain) :
    ∃ v, SameRegisters s v ∧ SentOldest s v ∧ Confined s v ∧ v.curMask = m ∧ t = steps4to6 (selectEdge v) := by
  rw [exec_maskRow] at h
  obtain ⟨u, hu, drained, rfl⟩ := cycle_completed (s := { s with padIn := maskLevels m }) hp h ht
  have sampled := silent_sample u
  have hsample := sample_maskLevels u m []
  rw [List.append_nil, ← show u.padIn = maskLevels m from drained.padIn_eq] at hsample
  refine ⟨sample u, ?_, drained.sent.congr sampled.tail_eq sampled.sent_eq, ?_, congrArg State.curMask hsample, rfl⟩
  · have begun : SameRegisters s { s with padIn := maskLevels m } := {}
    exact (begun.trans drained.toSameRegisters).trans (sameRegisters_sample u)
  · exact ((silent_padIn _ s).toConfined.trans (confined_drain hu)).trans sampled.toConfined

/-- What a cycle that fires an action records last: the settings write and the delay, the newest event first (R139,
R153). -/
theorem trace_afterEdge_acted {s v : State} {a : Action} (h : SameRegisters s v) (hc : Confined s v)
    (ha : cycleAction v.curMask v = some a) :
    ∃ rest, (steps4to6 (selectEdge v)).trace = .delay 300000 :: .delay s.params.tNvWrite ::
      .nvWrite (settingsByte (actionSwap a s.swapAB) (actionProfile a s.profile)) :: rest ∧ s.trace <:+ rest := by
  have released := (enqueueAll_enqueuedInOrder (actionBytes a (selectEdge v)) (selectEdge v)).grows
  refine ⟨_, ?_, hc.trace.trans ((grows_selectEdge v).trans released).trace⟩
  rw [afterEdge_acted ha, actionSettings, h.params_eq, h.swapAB_eq, h.profile_eq]

/-- What a completed cycle leaves that samples m, fires the action a and keeps `prevMask` (R131 to R133, R139, R140). -/
structure Fired (a : Action) (m : Mask) (s t : State) : Prop where
  params : t.params = s.params
  prevMask : t.prevMask = s.prevMask
  cfg : t.cfg = true
  btn : t.btn = actionBtn a (entryBtn m s)
  profile : t.profile = actionProfile a s.profile
  swapAB : t.swapAB = actionSwap a s.swapAB
  saved : nvByteAt t t.params.nvAddr = settingsByte t.swapAB t.profile
  head : ∃ x, runAll (cycleCalls m s) { s with tail := t.tail } = .next x ∧ t.head = x.head
  trace : ∃ rest, t.trace = .delay 300000 :: .delay s.params.tNvWrite ::
    .nvWrite (settingsByte t.swapAB t.profile) :: rest ∧ s.trace <:+ rest

/-- A mask row whose mask fires an action, under the default CFG_ACTION_UPDATES_PREV (R140). -/
theorem maskRow_fires {s t : State} {k : Button} {m : Mask} {a : Action} (hp : s.phase = .drain)
    (hparam : s.params.cfgActionUpdatesPrev = false) (hpressed : selectPressed m = true)
    (ha : configAction m s.prevMask = some a) (h : exec (maskRow k m) s = .next t) (ht : t.phase = .drain) :
    Fired a m s t := by
  obtain ⟨v, hv, hsent, hconf, rfl, rfl⟩ := maskRow_completed hp h ht
  have fires : cycleAction v.curMask s = some a := by rw [cycleAction, if_pos hpressed, ha]
  have ends := cycleEnds_afterEdge hv hsent
  have hmask := afterEdge_curMask v
  obtain ⟨hbtn, hprofile, hswap, -, hread, hprev⟩ := ends.acted a (by rw [hmask, fires])
  obtain ⟨x, hx, -, hhead⟩ := ends.calls
  rw [hmask] at hbtn hx
  rw [if_neg (by simp [hparam])] at hprev
  obtain ⟨rest, htrace, hrest⟩ := trace_afterEdge_acted hv hconf ((hv.cycleAction_eq _).trans fires)
  exact ⟨(confined_exec h).params_eq, hprev, by rw [ends.mode, hmask, hpressed], hbtn, hprofile, hswap, hread,
    ⟨x, hx, hhead⟩, ⟨rest, by rw [htrace, hswap, hprofile], hrest⟩⟩

/-- In configuration mode the Select edge leaves the marks (R128). -/
theorem entryBtn_of_cfg {m : Mask} {s : State} (h : s.cfg = true) : entryBtn m s = s.btn := by
  rw [entryBtn, if_neg (by simp [h])]

/-- In configuration mode, with the marks as an action leaves them, the same action again makes no encoder call. -/
theorem cycleCalls_of_repeated {m : Mask} {s : State} {a : Action} {v : Vector Bool 8} (hcfg : s.cfg = true)
    (ha : cycleAction m s = some a) (hbtn : s.btn = actionBtn a v) : cycleCalls m s = [] := by
  have hentry : entryBtn m s = actionBtn a v := (entryBtn_of_cfg hcfg).trans hbtn
  simp only [cycleCalls, ha, hcfg, hentry, Bool.not_true, Bool.and_false, Bool.false_eq_true, if_false, List.nil_append]
  cases a <;> rfl

/-- Settles O47: both cycles fire the action, and an action done twice is the action done once. -/
theorem heldConfigButtonFiresAgain : Obligations.HeldConfigButtonFiresAgain := by
  intro s t u k m a hp hparam hpressed ha ht htp hu hup
  have first := maskRow_fires hp hparam hpressed ha ht htp
  have ha' : configAction m t.prevMask = some a := by rw [first.prevMask, ha]
  have second := maskRow_fires htp (by rw [first.params, hparam]) hpressed ha' hu hup
  have hprofile : u.profile = t.profile := by rw [second.profile, first.profile]; cases a <;> rfl
  have hswap : u.swapAB = t.swapAB := by rw [second.swapAB, first.swapAB]; cases a <;> rfl
  have hbtn : u.btn = t.btn := by rw [second.btn, entryBtn_of_cfg first.cfg, first.btn]; cases a <;> rfl
  have hhead : u.head = t.head := by
    obtain ⟨x, hx, hhead⟩ := second.head
    rw [cycleCalls_of_repeated first.cfg (by rw [cycleAction, if_pos hpressed, ha']) first.btn] at hx
    rw [hhead, ← Host.Outcome.next.inj hx]
  have htrace := second.trace
  have hsaved := second.saved
  rw [hswap, hprofile] at htrace hsaved
  exact ⟨first.prevMask, first.cfg, ha', htrace, second.prevMask.trans first.prevMask, hprofile, hswap, hbtn,
    second.cfg.trans first.cfg.symm, hhead, hsaved⟩

end Sys2Proof.Machine

/-! The persistent settings (R151, R155): NV_LOAD decodes whatever byte is stored, and RESET loads what NV_SAVE stored. -/

namespace Sys2Proof.Machine

/-- Settles O49: the masked index is always valid, so the repair branch of NV_LOAD is never taken. -/
theorem nvLoadDecodesAnyByte : Obligations.NvLoadDecodesAnyByte := by
  intro s
  rw [exec_nvLoad, nvLoad_eq]
  rfl

/-- RESET where no settings write is in progress: the constants, then the settings from the store as it stands (R180, R181). -/
theorem resetNow_of_noWrite {s : State} (h : ¬(s.phase = .debounce ∧ s.engine = .writing)) :
    resetNow s = goto .drain
      { resetConstants s with
        profile := settingsProfile (nvByteAt s s.params.nvAddr)
        swapAB := settingsSwap (nvByteAt s s.params.nvAddr)
        trace := .nvRead (nvByteAt s s.params.nvAddr) :: .reset :: s.trace } := by
  have hskip : interruptWrite s = s := if_neg (by simpa using h)
  rw [resetNow, hskip, nvLoad_eq]
  rfl

/-- NV_SAVE is read back from the store as the settings byte (R53, R153). -/
theorem nvByteAt_nvSave (s : State) : nvByteAt (nvSave s) s.params.nvAddr = settingsByte s.swapAB s.profile :=
  nvByteAt_settings _ _ _ (congrArg State.nv (nvSave_eq s))

/-- Settles O51: RESET finds the settings byte NV_SAVE stored, and decoding it gives back both fields. -/
theorem settingsSurviveReset : Obligations.SettingsSurviveReset := by
  intro s h
  have hstored : nvByteAt (nvSave s) (nvSave s).params.nvAddr = settingsByte s.swapAB s.profile := nvByteAt_nvSave s
  have hreset := resetNow_of_noWrite (s := nvSave s) h
  rw [hstored] at hreset
  refine ⟨_, _, exec_nvSave s, (exec_reset _).trans (congrArg _ hreset), ?_, ?_, hstored⟩
  · exact settingsProfile_settingsByte _ _
  · exact settingsSwap_settingsByte _ _

end Sys2Proof.Machine

/-! Exceptions (R160, R164): a held cycle goes on from the wait, and from a state of the invariant every operation answers a
next state, so that a step stops only at a script word that is no row's word and no mask byte. -/

namespace Sys2Proof.Machine

/-! ### A held cycle goes on -/

/-- What leaves the registers and the queue alone and transmits nothing may come before a DRAIN that completes. -/
theorem Drained.after_silent {s v u : State} (r : SameRegisters s v) (k : Silent s v) (hpad : v.padIn = s.padIn)
    (h : Drained v u) : Drained s u := by
  refine ⟨r.trans h.toSameRegisters, h.padIn_eq.trans hpad, ?_⟩
  have hsent := h.sent
  simp only [SentOldest, k.head_eq, k.tail_eq, k.sent_eq, qramRead_congr k.qram_eq] at hsent
  exact hsent

/-- The wait that finds both lines high with a byte pending sends the oldest byte (R109, R111). -/
theorem InvCore.waitThenSend_completes {s : State} (h : InvCore s) (hne : s.head ≠ s.tail)
    (hidle : (pollLines s).1 = (true, true)) :
    ∃ u, Machine.waitThenSend s = .next u ∧ u.phase = .sample ∧ Drained s u ∧ u.tail = s.tail + 1 := by
  have polled := silent_pollLines s
  have hne' : (pollLines s).2.head ≠ (pollLines s).2.tail := (keeps_pollLines s).nonempty hne
  obtain ⟨b, hb⟩ := ((keeps_pollLines s).core h).oldest_written hne'
  refine ⟨_, (waitThenSend_of_idle hidle).trans (sendOldest_of_some hb), rfl,
    (drained_of_sent hne' hb).after_silent (sameRegisters_pollLines s) polled (padIn_pollLines s), ?_⟩
  rw [goto_tail, tail_stampSend_txByte, polled.tail_eq]

/-- CYCLE from phase IDLE_WAIT goes on from the wait (R164; log 18). -/
theorem cycle_of_idleWait {s : State} (h : s.phase = .idleWait) : cycle s = completeCycle (waitThenSend s) := by
  simp only [cycle, h]

/-- CYCLE from phase RESET_LOAD loads the settings first (R180; log 18). -/
theorem cycle_of_resetLoad {s : State} (h : s.phase = .resetLoad) : cycle s = completeCycle (drain (nvLoad s)) := by
  simp only [cycle, h]

/-- Settles O45: the wait sends the pending byte and the cycle ends from there; and DRAIN does not look at the phase that
NV_LOAD sets. -/
theorem heldCycleResumes : Obligations.HeldCycleResumes := by
  refine ⟨fun s hi hp hidle => ?_, fun s t hp ht => ?_⟩
  · obtain ⟨u, hu, hphase, drained, htail⟩ := hi.core.waitThenSend_completes (hi.pending (.inl hp)) hidle
    refine ⟨afterDrain u, ?_, drained.cycleEnds, ?_⟩
    · rw [exec_cycle, cycle_of_idleWait hp, hu, completeCycle_of_sample hphase]
    · rw [afterDrain, (grows_afterEdge _).tail_eq, (silent_sample u).tail_eq, htail]
  · obtain rfl := Host.Outcome.next.inj ((exec_nvLoad s).symm.trans ht)
    rw [exec_cycle, exec_cycle, cycle_of_resetLoad hp, cycle_of_drain (goto_phase _ _), goto_eq_atPhase, drain_atPhase]

/-! ### Operations that answer -/

/-- The outcome is a next state: neither a fault nor a refusal. -/
def Answers (o : Host.Outcome State Fault Refusal) : Prop := ∃ t, o = .next t

/-- The wait with a byte pending sends it or is held (R109, R111, R164). -/
theorem InvCore.waitThenSend_answers {s : State} (h : InvCore s) (hne : s.head ≠ s.tail) :
    Answers (Machine.waitThenSend s) := by
  by_cases hidle : (pollLines s).1 = (true, true)
  · obtain ⟨u, hu, -⟩ := h.waitThenSend_completes hne hidle
    exact ⟨u, hu⟩
  · exact ⟨_, waitThenSend_of_busy hidle⟩

/-- DRAIN completes or is held (R109, R110, R164). -/
theorem InvCore.drain_answers {s : State} (h : InvCore s) : Answers (Machine.drain s) := by
  cases hgate : gateOpen (readNow s) with
  | false => exact ⟨_, drain_of_closed hgate⟩
  | true =>
    rw [drain_of_open hgate]
    exact ((keeps_readNow s).core h).waitThenSend_answers ((gateOpen_iff _).1 hgate).1

/-- A cycle answers if its DRAIN does (R125). -/
theorem Answers.completeCycle {o : Host.Outcome State Fault Refusal} (h : Answers o) :
    Answers (Machine.completeCycle o) := by
  obtain ⟨u, rfl⟩ := h
  exact ⟨_, rfl⟩

/-- CYCLE answers from the wait, where a byte is pending, after NV_LOAD and from every other phase (R125; log 18). -/
theorem Inv.cycle_answers {s : State} (h : Inv s) : Answers (Machine.cycle s) := by
  unfold Machine.cycle
  cases hp : s.phase
  case idleWait => exact (h.core.waitThenSend_answers (h.pending (.inl hp))).completeCycle
  case resetLoad => exact ((keeps_nvLoad s).core h.core).drain_answers.completeCycle
  all_goals exact h.core.drain_answers.completeCycle

theorem Inv.runMask_answers {s : State} (h : Inv s) (m : Mask) : Answers (Machine.runMask m s) :=
  (h.keeps (keeps_padIn s _)).cycle_answers

/-- One poll answers, whatever it finds (R111). -/
theorem execIdleWait_answers (s : State) : Answers (execIdleWait s) := by
  by_cases hidle : (pollLines s).1 = (true, true)
  · exact ⟨_, execIdleWait_of_idle hidle⟩
  · exact ⟨_, execIdleWait_of_busy hidle⟩

/-- Only the instructions that read a queue slot could stop, DRAIN and the cycles; every other arm is a next state
outright. -/
theorem Inv.exec_answers {s : State} (h : Inv s) (i : Instr) : Answers (Machine.exec i s) := by
  cases i with
  | drain => exact h.core.drain_answers
  | idleWait => exact execIdleWait_answers s
  | cycle => exact h.cycle_answers
  | maskA m | maskB m | maskSelect m | maskStart m | maskUp m | maskDown m | maskLeft m | maskRight m =>
    exact h.runMask_answers m
  | _ => exact ⟨_, rfl⟩

/-- A script word stops the machine only where it is neither a row's word nor a mask byte (R64; log 6, 13). -/
theorem Inv.runWord_answers {s : State} (h : Inv s) (w : CodeWord) (rest : List CodeWord) :
    Answers (Machine.runWord w rest s) ∨
      ∃ e, decode w = .error e ∧ (∀ m, e ≠ .notPressed m) ∧ Machine.runWord w rest s = .refused (.badWord e) := by
  have taken := h.keeps (keeps_script s rest)
  cases hw : decode w with
  | ok i =>
    rw [runWord_of_ok hw]
    exact .inl (taken.exec_answers i)
  | error e =>
    rw [runWord_of_error hw]
    by_cases hmask : ∃ m, e = .notPressed m
    · obtain ⟨m, rfl⟩ := hmask
      exact .inl (taken.runMask_answers m)
    · rw [not_exists] at hmask
      exact .inr ⟨e, rfl, hmask, runNoRow_of_not_mask hmask _⟩

/-- Phase TX finds the byte at `tail` written, since one is pending (R105, R109). -/
theorem Inv.stepTx_answers {s : State} (h : Inv s) (hp : s.phase = .tx) : Answers (Machine.stepTx s) := by
  obtain ⟨b, hb⟩ := h.core.oldest_written (h.pending (.inr (.inl hp)))
  unfold Machine.stepTx
  rw [hb]
  cases s.engine <;> exact ⟨_, rfl⟩

/-- Of the phases only TX reads a queue slot (R20, R109). -/
theorem Inv.sequencerStep_answers {s : State} (h : Inv s) : Answers (Machine.sequencerStep s) := by
  unfold Machine.sequencerStep
  cases hp : s.phase
  case idleWait => exact execIdleWait_answers s
  case tx => exact h.stepTx_answers hp
  all_goals exact ⟨_, rfl⟩

/-- Settles O55: RESET and the sequencer answer, and so does every script word but those refused by name. -/
theorem noStepFaultsUnderTheInvariant : Obligations.NoStepFaultsUnderTheInvariant := by
  intro s h
  cases hr : s.resetPin with
  | true => exact .inl ⟨_, if_pos hr⟩
  | false =>
    cases hs : s.script with
    | nil =>
      rw [step_of_quiet hr hs]
      exact .inl h.sequencerStep_answers
    | cons w rest =>
      rw [step_of_word hr hs]
      refine (h.runWord_answers w rest).imp_right fun ⟨e, hw, hmask, hrefused⟩ => ?_
      exact ⟨rfl, w, rest, e, rfl, hw, hmask, hrefused⟩

end Sys2Proof.Machine

/-! Reset and its hazards (R180, R181, R192, R195): what RESET leaves in every register and in the store, the reset input as
a step, the gate in the first interval after it, and elapsed time on a time base that wraps. -/

namespace Sys2Proof.Machine

/-! ### RESET as one operation -/

/-- RESET starts the last timestamp again at 0, interrupted write or not (R181). -/
theorem resetNow_lastSend (s : State) : (resetNow s).lastSend = 0 := by
  rw [resetNow, nvLoad_eq]
  rfl

/-- A settings write that RESET interrupts leaves a free byte in the store (U17; log 22). -/
theorem interruptWrite_of_write {s : State} (h : s.phase = .debounce ∧ s.engine = .writing) :
    interruptWrite s = nvSet (Config.freeNvByte s.draws) { s with draws := s.draws + 1 } :=
  if_pos (by simpa using h)

/-- RESET during a settings write is RESET with a free byte stored and no write in progress (U17; log 22). -/
theorem resetNow_of_write {s : State} (h : s.phase = .debounce ∧ s.engine = .writing) :
    resetNow s =
      resetNow (nvSet (Config.freeNvByte s.draws) { s with engine := .off, draws := s.draws + 1 }) := by
  have hskip (u : State) (hu : u.engine = .off) : interruptWrite u = u := if_neg (by simp [hu])
  rw [resetNow, resetNow, interruptWrite_of_write h, hskip _ rfl, nvLoad_eq, nvLoad_eq]
  rfl

/-- RESET with a byte just placed in the store loads the settings that this byte encodes (R52, R64, R151). -/
theorem resetNow_nvSet {s : State} (v : Byte) (hw : Memory.wf (some nvErased) s.nv = true) (he : s.engine = .off) :
    resetNow (nvSet v s) = goto .drain
      { resetConstants (nvSet v s) with
        profile := settingsProfile v
        swapAB := settingsSwap v
        trace := .nvRead v :: .reset :: s.trace } := by
  have hstored : nvByteAt (nvSet v s) (nvSet v s).params.nvAddr = v := nvByteAt_write _ v hw rfl
  have hquiet : ¬((nvSet v s).phase = .debounce ∧ (nvSet v s).engine = .writing) := by simp [nvSet, he]
  rw [resetNow_of_noWrite hquiet, hstored]
  rfl

/-- Settles O50: RESET on the store as it stands, on the free byte an interrupted write leaves, and on a byte given. -/
theorem resetLeavesTheResetValues : Obligations.ResetLeavesTheResetValues := by
  intro s hw after
  refine ⟨fun hquiet => ?_, fun hwriting => ⟨Config.freeNvByte s.draws, ?_⟩, fun v => ?_⟩
  · exact (exec_reset s).trans (congrArg _ (resetNow_of_noWrite hquiet))
  · have hloaded := (resetNow_of_write hwriting).trans (resetNow_nvSet _ hw rfl)
    exact (exec_reset s).trans (congrArg _ hloaded)
  · exact (exec_settings v s).trans (congrArg _ (resetNow_nvSet v hw rfl))

/-! ### The reset input -/

/-- The reset input is a pulse: it is released when RESET has been taken (log 8). -/
theorem assertReset_resetPin (s : State) : (assertReset s).resetPin = false := by
  unfold assertReset interruptWrite
  split <;> rfl

/-- From RESET_LOAD the sequencer loads the settings and goes on to DRAIN (R20, R180). -/
theorem step_resetLoad {s : State} (hr : s.resetPin = false) (hs : s.script = []) (hp : s.phase = .resetLoad) :
    step s = .next (goto .drain (nvLoad s)) := by
  rw [step_of_quiet hr hs]
  simp only [sequencerStep, hp, execNvLoad]

/-- Settles O9: the constants stand in the definition of RESET, the store is confined to NV_ADDR, and the step from RESET_LOAD
is NV_LOAD. -/
theorem resetInputRestartsTheBlock : Obligations.ResetInputRestartsTheBlock := by
  intro s hr
  have confined := confined_assertReset s
  refine ⟨assertReset s, if_pos hr, rfl, rfl, assertReset_resetPin s, assertReset_script s, confined.params_eq,
    rfl, rfl, rfl, rfl, rfl, rfl, rfl, rfl, rfl, rfl, rfl, assertReset_nv, confined.store, fun hs => ?_⟩
  have hload := step_resetLoad (assertReset_resetPin s) ((assertReset_script s).trans hs) rfl
  rw [nvLoad_eq] at hload
  exact ⟨_, hload, rfl, rfl, rfl, rfl, rfl⟩

/-- Settles O53: at reset the queue is empty, both times are 0, no pin is driven and no serial engine has begun. -/
theorem resetStateMeetsTheInvariants : Obligations.ResetStateMeetsTheInvariants := by
  have empty : count State.reset = 0 := (count_eq_zero_iff _).2 rfl
  refine ⟨?_, .of_pinsIdle ⟨rfl, rfl, rfl, rfl⟩ (.of_phase (by decide)) (.inl rfl)⟩
  exact {
    qram_wf := rfl
    qram_slots := fun c hc => nomatch hc
    resident_written := fun k hk => by omega
    pending := fun hp => by simp [State.reset] at hp
    nv_wf := rfl
    time_order := fun _ => Nat.le_refl 0
    time_width := fun w hw => nomatch hw }

/-! ### The gate after RESET -/

/-- Settles O52: the last timestamp is 0, so the elapsed time is `now`, and below 2500 the gate is closed. -/
theorem nothingIsSentInTheFirstInterval : Obligations.NothingIsSentInTheFirstInterval := by
  intro s t u hw hreset v hlast hparams hdrain hearly
  obtain rfl := Host.Outcome.next.inj ((exec_reset s).symm.trans hreset)
  rw [resetNow_lastSend] at hlast
  rw [(confined_resetNow s).params_eq] at hparams
  have hshut : timeSub v.params.timeW (readNow v).now v.lastSend < 2500 := by
    rw [hparams, hw, hlast]
    exact hearly
  obtain rfl := Host.Outcome.next.inj ((drainWithClosedGateDoesNothing v (.inr hshut)).symm.trans hdrain)
  have read := silent_readNow v
  exact ⟨read.sent_eq, read.tail_eq, by rw [readNow_frame]⟩

/-! ### A time base that wraps -/

/-- The wrap of the start and the wrap of the end cancel: what is left is the true elapsed time, wrapped (R44 e, R192). -/
theorem timeSub_of_wrapped (w last elapsed : Nat) :
    timeSub (some w) ((last + elapsed) % 2 ^ w) (last % 2 ^ w) = elapsed % 2 ^ w := by
  have hstart : last % 2 ^ w < 2 ^ w := Nat.mod_lt _ (Nat.two_pow_pos w)
  have hsplit : last % 2 ^ w + 2 ^ w * (last / 2 ^ w) = last := Nat.mod_add_div ..
  calc timeSub (some w) ((last + elapsed) % 2 ^ w) (last % 2 ^ w)
    _ = ((last + elapsed) % 2 ^ w + (2 ^ w - last % 2 ^ w)) % 2 ^ w := by
      rw [timeSub, Nat.mod_mod, Nat.add_sub_assoc hstart.le]
    _ = (last + elapsed + (2 ^ w - last % 2 ^ w)) % 2 ^ w := Nat.mod_add_mod ..
    _ = (elapsed + 2 ^ w * (last / 2 ^ w + 1)) % 2 ^ w := by
      congr 1
      rw [Nat.mul_add_one]
      omega
    _ = elapsed % 2 ^ w := Nat.add_mul_mod_self_left ..

/-- Settles O43: the elapsed time is a remainder of the true one, and no remainder is more than what it is taken of. -/
theorem wrappedElapsedTimeNeverExceedsTheTrueOne : Obligations.WrappedElapsedTimeNeverExceedsTheTrueOne := by
  intro w last elapsed
  have hwrapped := timeSub_of_wrapped w last elapsed
  exact ⟨hwrapped, hwrapped.trans_le (Nat.mod_le ..)⟩

end Sys2Proof.Machine
